-- ==== Sys2Proof/Word.lean ====
section
/-! DEFINITION. The 32-bit word of every register and bus transaction (00_scope.md R8, R10). -/

namespace Sys2Proof

/-- Every register value and every bus transaction is an unsigned 32-bit word (R10, R64). -/
abbrev Word := BitVec 32

end Sys2Proof
end

