-- ==== Sys2Proof/Syntax.lean ====
section
/-! DEFINITION. The operations of the stream block as syntax: the ten operations of 30_encoding.md R95, the
Transfer Configuration record of R99 and the names of R100 to R109. -/

namespace Sys2Proof

/-- The five interrupt kinds (R15, R109). -/
inductive Kind where
  | tc   -- transfer-complete
  | ht   -- half-complete
  | te   -- transfer-error
  | dme  -- direct-mode-error
  | fe   -- fifo-error
  deriving DecidableEq, Repr

/-- A kind set: any subset of the five kinds (R15, R94). -/
structure KindSet where
  tc  : Bool := false
  ht  : Bool := false
  te  : Bool := false
  dme : Bool := false
  fe  : Bool := false
  deriving DecidableEq, Repr

/-- Transfer direction (R100). `reserved` is the raw code 0b11, which is not a value of the field (R110). -/
inductive Dir where
  | p2m | m2p | m2m | reserved
  deriving DecidableEq, Repr

/-- Data size of a transfer side (R101). `reserved` is the raw code 0b11, which is not a value of the field (R110). -/
inductive DataSize where
  | byte | halfword | word | reserved
  deriving DecidableEq, Repr

/-- Priority level (R102). -/
inductive Priority where
  | low | medium | high | veryHigh
  deriving DecidableEq, Repr

/-- Burst size, in beats (R103). -/
inductive Burst where
  | single | incr4 | incr8 | incr16
  deriving DecidableEq, Repr

/-- Who determines the transfer length (R104). -/
inductive FlowController where
  | dma | peripheral
  deriving DecidableEq, Repr

/-- Peripheral-increment-offset mode (R104). -/
inductive IncOffset where
  | psizeLinked | fixed4
  deriving DecidableEq, Repr

/-- The memory buffer operand of SET_TARGET_MEMORY (R93, R106). -/
inductive Buffer where
  | buffer0 | buffer1
  deriving DecidableEq, Repr

/-- FIFO threshold levels (R107). -/
inductive FifoLevel where
  | quarter | half | threeQuarters | full
  deriving DecidableEq, Repr

/-- FIFO status values (R108). The type has no order and no arithmetic (R213). -/
inductive FifoStatus where
  | empty | quarter | half | threeQuarter | almostFull | full
  deriving DecidableEq, Repr

/-- The Transfer Configuration record on CONSTRUCT's operand channel, with the defaults of R99. -/
structure Record where
  dir    : Dir
  psize  : DataSize
  msize  : DataSize
  pinc   : Bool
  minc   : Bool
  par    : Word
  m0ar   : Word
  m1ar   : Word := 0#32
  count  : Word
  pl     : Priority := .low
  circ   : Bool := false
  pincos : IncOffset := .psizeLinked
  dbm    : Bool := false
  trbuff : Bool := false
  pfctrl : FlowController := .dma
  pburst : Burst := .single
  mburst : Burst := .single
  deriving DecidableEq, Repr

/-- The operand channel with every bit zero: each field at its zero code. -/
def Record.zeros : Record :=
  { dir := .p2m, psize := .byte, msize := .byte, pinc := false, minc := false,
    par := 0#32, m0ar := 0#32, count := 0#32 }

/-- The ten operations (R95), one constructor per row of spec/opcode_table.json. -/
inductive Instr where
  | construct (cfg : Record)
  | enable
  | disable
  | setTargetMemory (b : Buffer)
  | enableInterrupt (kset : KindSet)
  | disableInterrupt (kset : KindSet)
  | clearInterruptFlag (k : Kind)
  | getInterruptFlag (k : Kind)
  | setFifoThreshold (lvl : FifoLevel)
  | getFifoStatus
  deriving DecidableEq, Repr

/-- A command as the encoder receives it (R90): the command word, and what the operand channel carries. Only
CONSTRUCT looks at the channel (R114; log 10). -/
structure Command where
  word   : Word
  record : Record := Record.zeros
  deriving DecidableEq, Repr

/-! ### Assembler lines (R112, R113), as abstract syntax; the text is in Machine/Assembler.lean (log 19) -/

/-- The operands of a `construct` line: the required ones, and the optional ones where they are written (R112). -/
structure AsmConstruct where
  dir    : Dir
  psize  : DataSize
  msize  : DataSize
  pinc   : Bool
  minc   : Bool
  par    : Word
  m0ar   : Word
  count  : Word
  m1ar   : Option Word := none
  pl     : Option Priority := none
  circ   : Option Bool := none
  pincos : Option IncOffset := none
  dbm    : Option Bool := none
  trbuff : Option Bool := none
  pfctrl : Option FlowController := none
  pburst : Option Burst := none
  mburst : Option Burst := none
  deriving DecidableEq, Repr

/-- A line of assembler: one command, the single-kind pseudo-operations of R113 among them. -/
inductive AsmLine where
  | construct (ops : AsmConstruct)
  | enable
  | disable
  | setTargetMemory (b : Buffer)
  | enableInterrupt (kinds : List Kind)
  | disableInterrupt (kinds : List Kind)
  | enableInterruptKind (k : Kind)
  | disableInterruptKind (k : Kind)
  | clearInterruptFlag (k : Kind)
  | getInterruptFlag (k : Kind)
  | setFifoThreshold (lvl : FifoLevel)
  | getFifoStatus
  deriving DecidableEq, Repr

end Sys2Proof
end

