-- ==== Sys2Proof/Config.lean ====
section
/-! DEFINITION. What is fixed for the life of a stream block (10_state.md R46), as plain data, and the free
values of the model: the draw of undefined bits (R26, R28, R34, R36, R37) and the width of the reserved size code. -/

namespace Sys2Proof

/-- THE FREE VALUE (log 5): the word that the `n`-th drawing read puts on the bits the spec leaves to "an
unconstrained draw, chosen afresh at each read" (R26). It has no body, so nothing can be proved of its bits. -/
opaque Config.freeDraw : Nat → BitVec 32

/-- A FREE VALUE (log 22): the exponent of `bytes(0b11)`, which R101 does not define. R16 bounds every size to 1, 2 or
4 bytes, so it is one of three. It can only decide which condition of R132 is the first to reject a record that is
rejected in any case. -/
opaque Config.reservedSizeLog : Fin 3

/-- `FLAG_BIT` of the four kinds the source leaves open; `FLAG_BIT(TC) = 0` is fixed (R109, D6; log 13). -/
structure FlagBits where
  ht  : Fin 5 := 1
  te  : Fin 5 := 2
  dme : Fin 5 := 3
  fe  : Fin 5 := 4
  deriving DecidableEq, Repr

/-- The ten registers (R23). -/
inductive Reg where
  | cr | ndtr | par | m0ar | m1ar | fcr | lisr | hisr | lifcr | hifcr
  deriving DecidableEq, Repr

/-- `regAddr`: the address of each register, supplied by the platform's memory map (R60; log 2, log 16). -/
structure RegAddrs where
  cr    : Word
  ndtr  : Word
  par   : Word
  m0ar  : Word
  m1ar  : Word
  fcr   : Word
  lisr  : Word
  hisr  : Word
  lifcr : Word
  hifcr : Word
  deriving DecidableEq, Repr

/-- The parameters of one stream block (R9, R46). `NCTX` is the length of the context list of the state. -/
structure Params where
  controller   : Nat
  nctrl        : Nat
  streamIndex  : Nat
  hwMayClearEn : Bool := true
  flagBits     : FlagBits := {}
  regAddrs     : RegAddrs
  deriving DecidableEq, Repr

/-- The STM32H7 addresses of R60 for the stream `i` of the controller at `base`: informational in the spec. -/
def RegAddrs.stm32h7 (base i : Nat) : RegAddrs :=
  let stream := base + 0x10 + 0x18 * i
  { cr := BitVec.ofNat 32 stream, ndtr := BitVec.ofNat 32 (stream + 0x04), par := BitVec.ofNat 32 (stream + 0x08),
    m0ar := BitVec.ofNat 32 (stream + 0x0C), m1ar := BitVec.ofNat 32 (stream + 0x10),
    fcr := BitVec.ofNat 32 (stream + 0x14),
    lisr := BitVec.ofNat 32 base, hisr := BitVec.ofNat 32 (base + 0x04), lifcr := BitVec.ofNat 32 (base + 0x08),
    hifcr := BitVec.ofNat 32 (base + 0x0C) }

/-- The parameters the reset state carries (log 2): stream 5 of the source's own example (95_test_vectors.md V2, P1). -/
def Params.default : Params :=
  { controller := 0, nctrl := 2, streamIndex := 5, regAddrs := RegAddrs.stm32h7 0x40020000 5 }

end Sys2Proof
end

