-- ==== Sys2Proof/WellFormed.lean ====
section
/-! DEFINITION. Checks on syntax and parameters: the reserved record codes of 30_encoding.md R110, and what R60,
R109 and D39 ask of the parameters. An ill-formed CONSTRUCT still runs: it faults (40_construct.md R132 (e)). -/

namespace Sys2Proof

/-- R110: `dir`, `psize` and `msize` are values of their fields, not the reserved code 0b11. -/
def Record.wf (cfg : Record) : Bool :=
  cfg.dir != .reserved && cfg.psize != .reserved && cfg.msize != .reserved

/-- Every operation but CONSTRUCT is well formed by its type; CONSTRUCT when its record is. -/
def Instr.wf : Instr → Bool
  | .construct cfg => cfg.wf
  | .enable => true
  | .disable => true
  | .setTargetMemory _ => true
  | .enableInterrupt _ => true
  | .disableInterrupt _ => true
  | .clearInterruptFlag _ => true
  | .getInterruptFlag _ => true
  | .setFifoThreshold _ => true
  | .getFifoStatus => true

/-- All five bits of a group, transfer-complete first (R109). -/
def FlagBits.toList (f : FlagBits) : List (Fin 5) := [0, f.ht, f.te, f.dme, f.fe]

/-- R109, D6: `FLAG_BIT` is injective into 0..4. -/
def FlagBits.wf (f : FlagBits) : Bool := decide f.toList.Nodup

/-- The ten addresses in the order of R23. -/
def RegAddrs.toList (a : RegAddrs) : List Word :=
  [a.cr, a.ndtr, a.par, a.m0ar, a.m1ar, a.fcr, a.lisr, a.hisr, a.lifcr, a.hifcr]

/-- R60: `regAddr` is injective and every value is a multiple of 4. -/
def RegAddrs.wf (a : RegAddrs) : Bool :=
  decide a.toList.Nodup && a.toList.all (fun w => w.toNat % 4 == 0)

/-- R60, R109, D39: what the spec asks of the parameters. `streamIndex` may be any natural number (R234). -/
def Params.wf (p : Params) : Bool :=
  decide (p.controller < p.nctrl) && p.flagBits.wf && p.regAddrs.wf

end Sys2Proof
end

