-- ==== Sys2Proof/Decode.lean ====
section
/-! DEFINITION. The command decoder of 30_encoding.md R98, total on every command, and the encoder written from the
formats R91 to R97. Command words are the spec's own spelling (D2). -/

namespace Sys2Proof

/-- Why a command decodes to no operation: the one reason of R98, with the value R233 records. -/
inductive DecodeError where
  /-- R98, R111: no operation. The fault is raised by the step that takes the command: safe. -/
  | illegalCommand (w : Word)
  deriving DecidableEq, Repr

/-- The kind code (R96, R109). -/
def Kind.code : Kind → BitVec 3
  | .tc => 0b000#3
  | .ht => 0b001#3
  | .te => 0b010#3
  | .dme => 0b011#3
  | .fe => 0b100#3

/-- The kind of a code; 0b101 to 0b111 are reserved (R96). -/
def Kind.ofCode (c : BitVec 3) : Option Kind :=
  match c.toNat with
  | 0 => some .tc
  | 1 => some .ht
  | 2 => some .te
  | 3 => some .dme
  | 4 => some .fe
  | _ => none

/-- Membership in a kind set (R94). -/
def KindSet.has (s : KindSet) : Kind → Bool
  | .tc => s.tc
  | .ht => s.ht
  | .te => s.te
  | .dme => s.dme
  | .fe => s.fe

/-- The singleton set of a single-kind pseudo-operation (R113). -/
def KindSet.single : Kind → KindSet
  | .tc => { tc := true }
  | .ht => { ht := true }
  | .te => { te := true }
  | .dme => { dme := true }
  | .fe => { fe := true }

/-- The five bits of `kset`, bit `code(k)` for the kind `k` (R94). -/
def KindSet.code (s : KindSet) : BitVec 5 :=
  (BitVec.ofBool s.fe ++ BitVec.ofBool s.dme ++ BitVec.ofBool s.te ++ BitVec.ofBool s.ht ++ BitVec.ofBool s.tc)

/-- The kind set of five bits (R94); every value is legal. -/
def KindSet.ofCode (c : BitVec 5) : KindSet :=
  { tc := c.getLsbD 0, ht := c.getLsbD 1, te := c.getLsbD 2, dme := c.getLsbD 3, fe := c.getLsbD 4 }

/-- The buffer operand `b` (R93). -/
def Buffer.code : Buffer → BitVec 1
  | .buffer0 => 0#1
  | .buffer1 => 1#1

/-- The buffer of a bit (R93). -/
def Buffer.ofCode (c : BitVec 1) : Buffer :=
  match c.toNat with
  | 0 => .buffer0
  | _ => .buffer1

/-- The FIFO threshold code (R107), the operand `lvl` of R97. -/
def FifoLevel.code : FifoLevel → BitVec 2
  | .quarter => 0b00#2
  | .half => 0b01#2
  | .threeQuarters => 0b10#2
  | .full => 0b11#2

/-- The level of a threshold code (R97, R107); all four are legal. -/
def FifoLevel.ofCode (c : BitVec 2) : FifoLevel :=
  match c.toNat with
  | 0 => .quarter
  | 1 => .half
  | 2 => .threeQuarters
  | _ => .full

/-- `decode` of R98 on the command word, with the operand channel's record for CONSTRUCT (R99, R114). -/
def decode (c : Command) : Except DecodeError Instr :=
  let w := c.word
  let illegal : Except DecodeError Instr := .error (.illegalCommand w)
  if w.extractLsb' 12 20 ≠ 0#20 then illegal
  else
    match (w.extractLsb' 0 4).toNat with
    | 0x0 => if w.extractLsb' 4 8 = 0#8 then .ok (.construct c.record) else illegal
    | 0x1 => if w.extractLsb' 4 8 = 0#8 then .ok .enable else illegal
    | 0x2 => if w.extractLsb' 4 8 = 0#8 then .ok .disable else illegal
    | 0x3 => if w.extractLsb' 5 7 = 0#7 then .ok (.setTargetMemory (Buffer.ofCode (w.extractLsb' 4 1))) else illegal
    | 0x4 => if w.extractLsb' 9 3 = 0#3 then .ok (.enableInterrupt (KindSet.ofCode (w.extractLsb' 4 5))) else illegal
    | 0x5 => if w.extractLsb' 9 3 = 0#3 then .ok (.disableInterrupt (KindSet.ofCode (w.extractLsb' 4 5))) else illegal
    | 0x6 =>
      if w.extractLsb' 7 5 = 0#5 then
        match Kind.ofCode (w.extractLsb' 4 3) with
        | some k => .ok (.clearInterruptFlag k)
        | none => illegal
      else illegal
    | 0x7 =>
      if w.extractLsb' 7 5 = 0#5 then
        match Kind.ofCode (w.extractLsb' 4 3) with
        | some k => .ok (.getInterruptFlag k)
        | none => illegal
      else illegal
    | 0x8 => if w.extractLsb' 6 6 = 0#6 then .ok (.setFifoThreshold (FifoLevel.ofCode (w.extractLsb' 4 2))) else illegal
    | 0x9 => if w.extractLsb' 4 8 = 0#8 then .ok .getFifoStatus else illegal
    | _ => illegal

/-- A command word: `op` in bits 3:0 and the operand field above it (R91). -/
def commandWord (op : BitVec 4) (operand : BitVec 8) : Word :=
  0#20 ++ operand ++ op

/-- The command of an operation (R91 to R97); the operand channel carries the record of CONSTRUCT and zeros else
(log 10). -/
def encode : Instr → Command
  | .construct cfg => { word := commandWord 0x0#4 0#8, record := cfg }
  | .enable => { word := commandWord 0x1#4 0#8 }
  | .disable => { word := commandWord 0x2#4 0#8 }
  | .setTargetMemory b => { word := commandWord 0x3#4 (0#7 ++ b.code) }
  | .enableInterrupt kset => { word := commandWord 0x4#4 (0#3 ++ kset.code) }
  | .disableInterrupt kset => { word := commandWord 0x5#4 (0#3 ++ kset.code) }
  | .clearInterruptFlag k => { word := commandWord 0x6#4 (0#5 ++ k.code) }
  | .getInterruptFlag k => { word := commandWord 0x7#4 (0#5 ++ k.code) }
  | .setFifoThreshold lvl => { word := commandWord 0x8#4 (0#6 ++ lvl.code) }
  | .getFifoStatus => { word := commandWord 0x9#4 0#8 }

/-- The kind set written as a list of kinds (R112). -/
def KindSet.ofList (ks : List Kind) : KindSet :=
  { tc := ks.contains .tc, ht := ks.contains .ht, te := ks.contains .te, dme := ks.contains .dme, fe := ks.contains .fe }

/-- The record of a `construct` line: an omitted optional operand takes the default of R99 (R112). -/
def AsmConstruct.record (a : AsmConstruct) : Record :=
  { dir := a.dir, psize := a.psize, msize := a.msize, pinc := a.pinc, minc := a.minc, par := a.par, m0ar := a.m0ar,
    count := a.count, m1ar := a.m1ar.getD 0#32, pl := a.pl.getD .low, circ := a.circ.getD false,
    pincos := a.pincos.getD .psizeLinked, dbm := a.dbm.getD false, trbuff := a.trbuff.getD false,
    pfctrl := a.pfctrl.getD .dma, pburst := a.pburst.getD .single, mburst := a.mburst.getD .single }

/-- The operation of a line (R112); a single-kind line is its singleton set's (R113). -/
def assemble : AsmLine → Instr
  | .construct ops => .construct ops.record
  | .enable => .enable
  | .disable => .disable
  | .setTargetMemory b => .setTargetMemory b
  | .enableInterrupt ks => .enableInterrupt (KindSet.ofList ks)
  | .disableInterrupt ks => .disableInterrupt (KindSet.ofList ks)
  | .enableInterruptKind k => .enableInterrupt (KindSet.single k)
  | .disableInterruptKind k => .disableInterrupt (KindSet.single k)
  | .clearInterruptFlag k => .clearInterruptFlag k
  | .getInterruptFlag k => .getInterruptFlag k
  | .setFifoThreshold lvl => .setFifoThreshold lvl
  | .getFifoStatus => .getFifoStatus

/-- One row of spec/opcode_table.json. -/
structure OpcodeRow where
  mnemonic : String
  pattern  : Word
  mask     : Word
  deriving DecidableEq, Repr

/-- spec/opcode_table.json, row by row. -/
def opcodeTable : List OpcodeRow :=
  [ ⟨"CONSTRUCT", 0x00000000#32, 0xFFFFFFFF#32⟩,
    ⟨"ENABLE", 0x00000001#32, 0xFFFFFFFF#32⟩,
    ⟨"DISABLE", 0x00000002#32, 0xFFFFFFFF#32⟩,
    ⟨"SET_TARGET_MEMORY", 0x00000003#32, 0xFFFFFFEF#32⟩,
    ⟨"ENABLE_INTERRUPT", 0x00000004#32, 0xFFFFFE0F#32⟩,
    ⟨"DISABLE_INTERRUPT", 0x00000005#32, 0xFFFFFE0F#32⟩,
    ⟨"CLEAR_INTERRUPT_FLAG", 0x00000006#32, 0xFFFFFF8F#32⟩,
    ⟨"GET_INTERRUPT_FLAG", 0x00000007#32, 0xFFFFFF8F#32⟩,
    ⟨"SET_FIFO_THRESHOLD", 0x00000008#32, 0xFFFFFFCF#32⟩,
    ⟨"GET_FIFO_STATUS", 0x00000009#32, 0xFFFFFFFF#32⟩ ]

/-- A word matches a row of the table. -/
def OpcodeRow.matches (r : OpcodeRow) (w : Word) : Bool := (w &&& r.mask) == r.pattern

/-- The mnemonic of an operation, as the table spells it. -/
def Instr.mnemonic : Instr → String
  | .construct _ => "CONSTRUCT"
  | .enable => "ENABLE"
  | .disable => "DISABLE"
  | .setTargetMemory _ => "SET_TARGET_MEMORY"
  | .enableInterrupt _ => "ENABLE_INTERRUPT"
  | .disableInterrupt _ => "DISABLE_INTERRUPT"
  | .clearInterruptFlag _ => "CLEAR_INTERRUPT_FLAG"
  | .getInterruptFlag _ => "GET_INTERRUPT_FLAG"
  | .setFifoThreshold _ => "SET_FIFO_THRESHOLD"
  | .getFifoStatus => "GET_FIFO_STATUS"

/-- The command of a word of the opcode table: the word has `nbits` bits and the bits above them are 0, and the
operand channel carries zeros (log 10). -/
def tableCommand (nbits w : Nat) : Command :=
  { word := BitVec.ofNat 32 (w % 2 ^ nbits), record := Record.zeros }

/-- The operation the decoder reads from an instruction whose bits are `w`, numbered as the opcode table numbers
them. -/
def decodeTableWord (nbits w : Nat) : Option Instr :=
  match decode (tableCommand nbits w) with
  | .ok i => some i
  | .error _ => none

end Sys2Proof
end

