-- ==== Sys2Proof/Machine/State.lean ====
section
/-! DEFINITION. The state of the stream block (10_state.md), as plain data, the reasons a step can stop, and reset
(70_reset_and_hazards.md R260 to R263). -/

namespace Sys2Proof.Machine

/-- Which condition of 40_construct.md R132 failed first (R236). -/
inductive CfgCondition where
  | countTooLarge  -- (a) element count over 16 bits
  | badPar         -- (b) PAR zero or misaligned for PSIZE
  | badM0ar        -- (c) M0AR zero or misaligned for MSIZE
  | badM1ar        -- (d) double-buffer mode and M1AR zero or misaligned for MSIZE
  | reservedCode   -- (e) a reserved raw code in dir, psize or msize
  deriving DecidableEq, Repr

/-- The block's fault codes with their recorded values (60_exceptions.md R230, R233 to R237). A fault of the block is
a RESULT of an operation, never a stop of the machine (R231). -/
inductive FaultCode where
  | illegalCommand (w : Word)
  | unmappedStreamIndex (i : Nat)
  | notConstructed
  | invalidConfiguration (c : CfgCondition)
  | unmappedFifoStatus (fs : BitVec 3)
  deriving DecidableEq, Repr

/-- The one hazard code (R239). -/
inductive HazardCode where
  | reconfigureWhileActive
  deriving DecidableEq, Repr

/-- What a completed command returns (R45). -/
inductive Result where
  | unit
  | flag (b : Bool)
  | fifo (s : FifoStatus)
  | fault (code : FaultCode)
  deriving DecidableEq, Repr

/-- A word as the bus carries it (log 6): the bits the spec gives are in `known`; on `openBits` it carries the bits of
`Config.freeDraw draw`, an unconstrained draw. -/
structure BusWord where
  known    : Word
  openBits : Word
  draw     : Nat
  deriving DecidableEq, Repr

/-- An operation under way (R45): the operation, the index of its next bus transaction, and its local variable, the
word it read last. -/
structure InFlight where
  instr : Instr
  index : Nat
  v     : BusWord
  deriving DecidableEq, Repr

/-- One software context (R45). -/
structure Context where
  prog     : List Command
  pc       : Nat
  inflight : Option InFlight
  results  : List Result
  deriving DecidableEq, Repr

/-- A context at the start of a run (R47, R260). -/
def Context.start (prog : List Command) : Context :=
  { prog := prog, pc := 0, inflight := none, results := [] }

/-- An entry of `faultLog` (R43). -/
structure FaultEntry where
  context : Nat
  command : Command
  code    : FaultCode
  deriving DecidableEq, Repr

/-- An entry of `hazardLog` (R44). -/
structure HazardEntry where
  context : Nat
  command : Command
  code    : HazardCode
  deriving DecidableEq, Repr

/-- The stored fields of `FCR` (R32). Bits 6 and 31:8 are not storage (R33, R47). -/
structure Fcr where
  fth  : BitVec 2
  fcr2 : Bool
  fs   : BitVec 3
  feie : Bool
  deriving DecidableEq, Repr

/-- The stored bits of the ten registers (R23). Reserved bits and the clear registers store nothing (R47). -/
structure Regs where
  cr   : BitVec 25
  ndt  : BitVec 16
  par  : Word
  m0ar : Word
  m1ar : Word
  fcr  : Fcr
  lisr : BitVec 20
  hisr : BitVec 20
  deriving DecidableEq, Repr

/-- The engine's moves (20_memory.md R81 to R86). -/
inductive EngineMove where
  | assertFlag (stream : Fin 8) (k : Kind)
  | setFs (fs : BitVec 3)
  | setNdt (ndt : BitVec 16)
  | clearEn
  | switchCt
  | sample
  deriving DecidableEq, Repr

/-- A foreign access: one whole-word read or write of any register (R74). -/
inductive ForeignAccess where
  | read (r : Reg)
  | write (r : Reg) (v : Word)
  deriving DecidableEq, Repr

/-- Who steps next (R72; log 7). `txn c` is one bus transaction of context `c`, the step of R72; `whole c` is the
transactions of `c` up to the end of its operation with no other agent's step between them (log 8). -/
inductive Turn where
  | whole (c : Nat)
  | txn (c : Nat)
  | engine (m : EngineMove)
  | foreign (a : ForeignAccess)
  deriving DecidableEq, Repr

/-- The state of the stream block and of the agents on it.
`params` is constant (R46; log 1). `draws`, `schedule` and `issuer` are the model's own fields (logs 5, 7, 8). -/
structure State where
  params       : Params
  regs         : Regs
  constructed  : Bool
  engineActive : Bool
  faultLog     : List FaultEntry
  hazardLog    : List HazardEntry
  contexts     : List Context
  draws        : Nat
  schedule     : List Turn
  issuer       : Nat
  deriving DecidableEq, Repr

/-- Why the machine stops. No operation of the block stops it: the block's own faults are results (R231). -/
inductive Fault where
  /-- Raised by `step` when no turn is scheduled and every context has finished (R273). Safe: the run is over. -/
  | endOfRun
  /-- Raised by `step` when the schedule names a context that does not exist. Safe: R72 enables no such step. -/
  | noSuchContext (c : Nat)
  /-- Raised by `step` when the schedule names a context that has finished (R21). Safe: R72 enables no such step. -/
  | contextFinished (c : Nat)
  /-- Raised by `step` when the schedule names an engine move whose condition in R83 to R86 does not hold. Safe: R72
  enables no such step. -/
  | moveNotEnabled (m : EngineMove)
  deriving DecidableEq, Repr

/-- Why an instruction is refused. -/
inductive Refusal where
  /-- Raised by an arm of `exec` for an operation with no meaning yet. Safe. No arm raises it. -/
  | notModelled (mnemonic : String)
  deriving DecidableEq, Repr

/-- The instance of `resetRegs` that R262 gives: the values of STM32H7 silicon (log 3). -/
def Regs.silicon : Regs :=
  { cr := 0#25, ndt := 0#16, par := 0#32, m0ar := 0#32, m1ar := 0#32,
    fcr := { fth := 0b01#2, fcr2 := false, fs := 0b100#3, feie := false },
    lisr := 0#20, hisr := 0#20 }

/-- The start of a run for any parameters, any `resetRegs` and any command sequences (R47, R260, R261). -/
def State.resetWith (params : Params) (resetRegs : Regs) (progs : List (List Command)) : State :=
  { params := params, regs := resetRegs, constructed := false, engineActive := false, faultLog := [],
    hazardLog := [], contexts := progs.map Context.start, draws := 0, schedule := [], issuer := 0 }

/-- A new stream block created over existing registers (R260): its own state starts anew, the registers stay. The
draw counter goes on, so that later draws stay fresh (log 18). -/
def State.recreate (s : State) : State :=
  { State.resetWith s.params s.regs (s.contexts.map Context.prog) with draws := s.draws }

/-- The machine right after reset: the parameters of log 2, the registers of log 3, one context with nothing to do
(log 4). -/
def State.reset : State :=
  State.resetWith Params.default Regs.silicon [[]]

end Sys2Proof.Machine
end

