-- ==== Sys2Proof/Machine/Ops.lean ====
section
/-! DEFINITION. The shared operations: bus words, the read and write rule of every register (10_state.md), the five
primitives of 20_memory.md R66 to R70, running an operation's transactions, completing it, and raising a fault
(60_exceptions.md R231). -/

namespace Sys2Proof.Machine

/-! ### Bus words -/

/-- A word every bit of which is given. -/
def BusWord.ofWord (w : Word) : BusWord := { known := w, openBits := 0#32, draw := 0 }

/-- The 32-bit value on the bus, the draw included. -/
def BusWord.value (b : BusWord) : Word := b.known ||| (Config.freeDraw b.draw &&& b.openBits)

/-- The bits of the value under `mask`: `value &&& mask`. Written so that it asks for the draw only where the mask
meets an undefined bit. -/
def BusWord.bits (b : BusWord) (mask : Word) : Word :=
  (b.known &&& mask) |||
    (if b.openBits &&& mask = 0#32 then 0#32 else Config.freeDraw b.draw &&& (b.openBits &&& mask))

/-- `v | w` on a bus word. -/
def BusWord.or (b : BusWord) (w : Word) : BusWord :=
  { b with known := b.known ||| w, openBits := b.openBits &&& ~~~w }

/-- `v & w` on a bus word. -/
def BusWord.and (b : BusWord) (w : Word) : BusWord :=
  { b with known := b.known &&& w, openBits := b.openBits &&& w }

/-! ### Masks of the bits a register stores -/

/-- Bits 24:0 of `CR` (R24). -/
def crDefined : Word := 0x01FFFFFF#32
/-- Bits 15:0 of `NDTR` (R28). -/
def ndtrDefined : Word := 0x0000FFFF#32
/-- `FTH`, `FCR2`, `FS` and `FEIE` (R32). -/
def fcrDefined : Word := 0x000000BF#32
/-- Bits 19:0 of the status and clear registers (R35, R37). -/
def flagsDefined : Word := 0x000FFFFF#32

/-! ### Read rules -/

/-- The 32-bit view of the stored `FCR` fields, reserved bits 0 (R32). -/
def Fcr.toWord (f : Fcr) : Word :=
  (f.fth.setWidth 32) ||| ((BitVec.ofBool f.fcr2).setWidth 32 <<< 2) ||| (f.fs.setWidth 32 <<< 3) |||
    ((BitVec.ofBool f.feie).setWidth 32 <<< 7)

/-- The bits a read of the register gives, and the bits it draws (R26, R28, R29 to R31, R34 to R37). -/
def readRule (r : Reg) (g : Regs) : Word × Word :=
  match r with
  | .cr => (g.cr.setWidth 32, ~~~crDefined)
  | .ndtr => (g.ndt.setWidth 32, ~~~ndtrDefined)
  | .par => (g.par, 0#32)
  | .m0ar => (g.m0ar, 0#32)
  | .m1ar => (g.m1ar, 0#32)
  | .fcr => (g.fcr.toWord, ~~~fcrDefined)
  | .lisr => (g.lisr.setWidth 32, ~~~flagsDefined)
  | .hisr => (g.hisr.setWidth 32, ~~~flagsDefined)
  | .lifcr => (0#32, ~~~0#32)
  | .hifcr => (0#32, ~~~0#32)

/-- `MemRead(reg, 4)` (R11): the word read. Its undefined bits are draw number `draws`. -/
def memReadWord (r : Reg) (s : State) : BusWord :=
  { known := (readRule r s.regs).1, openBits := (readRule r s.regs).2, draw := s.draws }

/-- What a read changes: nothing of the block (R26, R35, R37); the next read draws afresh (log 5). -/
def afterRead (s : State) : State := { s with draws := s.draws + 1 }

/-! ### Write rules -/

/-- The write rule of `FCR` (R33): `FS` and the reserved bits ignore the write. -/
def Fcr.write (f : Fcr) (b : BusWord) : Fcr :=
  { f with
    fth := (b.bits 0x3#32).setWidth 2
    fcr2 := (b.bits 0x4#32).getLsbD 2
    feie := (b.bits 0x80#32).getLsbD 7 }

/-- The write-1-to-clear rule (R37). -/
def clearFlags (flags : BitVec 20) (b : BusWord) : BitVec 20 :=
  flags &&& ~~~((b.bits flagsDefined).setWidth 20)

/-- The write rule of every register (R25, R28 to R31, R33, R35, R37). -/
def writeRule (r : Reg) (b : BusWord) (g : Regs) : Regs :=
  match r with
  | .cr => { g with cr := (b.bits crDefined).setWidth 25 }
  | .ndtr => { g with ndt := (b.bits ndtrDefined).setWidth 16 }
  | .par => { g with par := b.bits (~~~0#32) }
  | .m0ar => { g with m0ar := b.bits (~~~0#32) }
  | .m1ar => { g with m1ar := b.bits (~~~0#32) }
  | .fcr => { g with fcr := g.fcr.write b }
  | .lisr => g
  | .hisr => g
  | .lifcr => { g with lisr := clearFlags g.lisr b }
  | .hifcr => { g with hisr := clearFlags g.hisr b }

/-- `MemWrite(reg, 4, v)` (R11). -/
def memWrite (r : Reg) (b : BusWord) (s : State) : State := { s with regs := writeRule r b s.regs }

/-! ### The register access primitives -/

/-- What a primitive writes, given the word read just before it (R67 to R70). Masks are in position (D35). -/
inductive Update where
  | put (w : Word)
  | setMask (mask : Word)
  | clearMask (mask : Word)
  | change (mask value : Word) (shift : Nat)
  deriving DecidableEq, Repr

/-- The word a primitive writes (R67 to R70). -/
def Update.apply (u : Update) (v : BusWord) : BusWord :=
  match u with
  | .put w => BusWord.ofWord w
  | .setMask mask => v.or mask
  | .clearMask mask => v.and (~~~mask)
  | .change mask value shift => (v.and (~~~mask)).or ((value <<< shift) &&& mask)

/-- One bus transaction of an operation (R62). -/
inductive Txn where
  | read (r : Reg)
  | write (r : Reg) (u : Update)
  deriving DecidableEq, Repr

/-- R66: one transaction; the field of the word is taken from the local variable. -/
def readReg (r : Reg) : List Txn := [.read r]
/-- R67: one transaction. -/
def writeReg (r : Reg) (w : Word) : List Txn := [.write r (.put w)]
/-- R68: a read, then a write, not atomic as a whole. -/
def setReg (r : Reg) (mask : Word) : List Txn := [.read r, .write r (.setMask mask)]
/-- R69: a read, then a write, not atomic as a whole. -/
def clearReg (r : Reg) (mask : Word) : List Txn := [.read r, .write r (.clearMask mask)]
/-- R70: a read, then a write, not atomic as a whole. -/
def changeReg (r : Reg) (mask value : Word) (shift : Nat) : List Txn :=
  [.read r, .write r (.change mask value shift)]

/-- One transaction: the local variable and the state after it. -/
def doTxn (t : Txn) (v : BusWord) (s : State) : BusWord × State :=
  match t with
  | .read r => (memReadWord r s, afterRead s)
  | .write r u => (v, memWrite r (u.apply v) s)

/-- Transactions one after another with no other agent's step between them. -/
def doTxns : List Txn → BusWord → State → BusWord × State
  | [], v, s => (v, s)
  | t :: ts, v, s => doTxns ts (doTxn t v s).1 (doTxn t v s).2

/-! ### Completing a command -/

/-- The command of the context completes with result `r`: its result is appended, its `pc` advances by one and
nothing of it is in flight (R21, R45). -/
def Context.complete (r : Result) (x : Context) : Context :=
  { x with pc := x.pc + 1, inflight := none, results := x.results ++ [r] }

/-- The issuing context's command completes with result `r` (R21, R45). -/
def complete (r : Result) (s : State) : State :=
  { s with contexts := s.contexts.modify s.issuer (Context.complete r) }

/-- RAISING A FAULT (R231): the entry goes to `faultLog`, the result is `Fault(code)`, the context goes on. No other
state changes; there is no trap entry (R244) and no return from one (R245). -/
def raiseFault (cmd : Command) (code : FaultCode) (s : State) : State :=
  complete (.fault code) { s with faultLog := s.faultLog ++ [{ context := s.issuer, command := cmd, code := code }] }

/-- `hazard(code)` (R11, R44, R239): recorded, and the operation goes on. -/
def recordHazard (cmd : Command) (h : Option HazardCode) (s : State) : State :=
  match h with
  | none => s
  | some code =>
    { s with hazardLog := s.hazardLog ++ [{ context := s.issuer, command := cmd, code := code }] }

/-! ### Operations -/

/-- How an operation ends once its transactions are done. -/
inductive Finish where
  | unit                   -- `result <- Unit`
  | construct              -- `constructed <- true; result <- Unit` (R133)
  | flagBit (n : Nat)      -- `result <- Flag(v[n] == 1)` (R194)
  | fifoStatus             -- `result <- Fifo(decodeFS(v[5:3]))`, or the fault of R212 (R211)
  deriving DecidableEq, Repr

/-- An operation as its pseudocode gives it: the fault its checks raise before the first transaction (R232), the
hazard it records at its start (R239), its transactions in order (R63), and its end. -/
structure Operation where
  fault  : Option FaultCode
  hazard : Option HazardCode := none
  txns   : List Txn
  finish : Finish
  deriving DecidableEq, Repr

/-- The common prologue of every operation but CONSTRUCT (41_stream_control.md), in the order of R238. -/
def prologue (s : State) : Option FaultCode :=
  if s.params.streamIndex ≥ 8 then some (.unmappedStreamIndex s.params.streamIndex)
  else if s.constructed = false then some .notConstructed
  else none

/-- `decodeFS` (R108, R212). -/
def decodeFS (fs : BitVec 3) : Option FifoStatus :=
  match fs.toNat with
  | 0 => some .quarter
  | 1 => some .half
  | 2 => some .threeQuarter
  | 3 => some .almostFull
  | 4 => some .empty
  | 5 => some .full
  | _ => none

/-- `f[5:3]` of a word read from `FCR` (R211). -/
def fsField (v : BusWord) : BitVec 3 := (v.bits 0x38#32).extractLsb' 3 3

/-- `v[n]` of a word read (R194). -/
def bitOf (v : BusWord) (n : Nat) : Bool := (v.bits (1#32 <<< n)).getLsbD n

/-- The end of an operation, in the step of its last transaction (R72). -/
def finishOp (cmd : Command) (f : Finish) (v : BusWord) (s : State) : State :=
  match f with
  | .unit => complete .unit s
  | .construct => complete .unit { s with constructed := true }
  | .flagBit n => complete (.flag (bitOf v n)) s
  | .fifoStatus =>
    match decodeFS (fsField v) with
    | some st => complete (.fifo st) s
    | none => raiseFault cmd (.unmappedFifoStatus (fsField v)) s

/-- The local variable before anything is read. -/
def BusWord.zero : BusWord := BusWord.ofWord 0#32

/-- An operation from its start to its end with no other agent's step inside it (R73; log 8). -/
def runOp (cmd : Command) (op : Operation) (s : State) : State :=
  match op.fault with
  | some code => raiseFault cmd code s
  | none =>
    let after := doTxns op.txns BusWord.zero (recordHazard cmd op.hazard s)
    finishOp cmd op.finish after.1 after.2

end Sys2Proof.Machine
end

