-- ==== Sys2Proof/Machine/Operands.lean ====
section
/-! DEFINITION. CONSTRUCT's operand record: the value codes of 30_encoding.md R100 to R105, the packing of
40_construct.md R131, the checks of R132, and the fields of `CR` (10_state.md R24). -/

namespace Sys2Proof

/-- R100. -/
def Dir.code : Dir → BitVec 2
  | .p2m => 0b00#2
  | .m2p => 0b01#2
  | .m2m => 0b10#2
  | .reserved => 0b11#2

/-- R101. -/
def DataSize.code : DataSize → BitVec 2
  | .byte => 0b00#2
  | .halfword => 0b01#2
  | .word => 0b10#2
  | .reserved => 0b11#2

/-- `bytes(size)` (R101): 1, 2 or 4 (R16). The reserved code has no width of its own in the spec: a free value among the
three, which can only decide which condition of R132 rejects the record first (log 22). -/
def DataSize.bytes : DataSize → Nat
  | .byte => 1
  | .halfword => 2
  | .word => 4
  | .reserved => 2 ^ Config.reservedSizeLog.val

/-- R102. -/
def Priority.code : Priority → BitVec 2
  | .low => 0b00#2
  | .medium => 0b01#2
  | .high => 0b10#2
  | .veryHigh => 0b11#2

/-- R103. -/
def Burst.code : Burst → BitVec 2
  | .single => 0b00#2
  | .incr4 => 0b01#2
  | .incr8 => 0b10#2
  | .incr16 => 0b11#2

/-- R104. -/
def FlowController.code : FlowController → BitVec 1
  | .dma => 0#1
  | .peripheral => 1#1

/-- R104. -/
def IncOffset.code : IncOffset → BitVec 1
  | .psizeLinked => 0#1
  | .fixed4 => 1#1

namespace Machine

/-- A code placed at bit `lo` of a word (R131). -/
def place {n : Nat} (code : BitVec n) (lo : Nat) : Word := code.setWidth 32 <<< lo

/-- `encodeCR(cfg)` (R131). -/
def encodeCR (cfg : Record) : Word :=
  place cfg.pfctrl.code 5 |||
  place cfg.dir.code 6 |||
  place (BitVec.ofBool cfg.circ) 8 |||
  place (BitVec.ofBool cfg.pinc) 9 |||
  place (BitVec.ofBool cfg.minc) 10 |||
  place cfg.psize.code 11 |||
  place cfg.msize.code 13 |||
  place cfg.pincos.code 15 |||
  place cfg.pl.code 16 |||
  place (BitVec.ofBool cfg.dbm) 18 |||
  place (BitVec.ofBool cfg.trbuff) 20 |||
  place cfg.pburst.code 21 |||
  place cfg.mburst.code 23

/-- An address equal to zero or misaligned for the data width (R132). -/
def badAddress (a : Word) (size : DataSize) : Bool :=
  a.toNat == 0 || a.toNat % size.bytes != 0

/-- The first condition of R132 that holds, in the order (a) to (e) (R236); `none` is `valid(cfg)`. -/
def cfgCondition (cfg : Record) : Option CfgCondition :=
  if cfg.count.toNat > 0xFFFF then some .countTooLarge
  else if badAddress cfg.par cfg.psize then some .badPar
  else if badAddress cfg.m0ar cfg.msize then some .badM0ar
  else if cfg.dbm && badAddress cfg.m1ar cfg.msize then some .badM1ar
  else if cfg.wf = false then some .reservedCode
  else none

/-- The word CONSTRUCT writes to `NDTR` (R134). -/
def countWord (cfg : Record) : Word := (cfg.count.extractLsb' 0 16).setWidth 32

/-! ### The fields of `CR` (R24) -/

/-- `EN`, bit 0. -/
def crEn (cr : BitVec 25) : Bool := cr.getLsbD 0
/-- `DMEIE`, bit 1. -/
def crDmeie (cr : BitVec 25) : Bool := cr.getLsbD 1
/-- `TEIE`, bit 2. -/
def crTeie (cr : BitVec 25) : Bool := cr.getLsbD 2
/-- `HTIE`, bit 3. -/
def crHtie (cr : BitVec 25) : Bool := cr.getLsbD 3
/-- `TCIE`, bit 4. -/
def crTcie (cr : BitVec 25) : Bool := cr.getLsbD 4
/-- `PFCTRL`, bit 5. -/
def crPfctrl (cr : BitVec 25) : BitVec 1 := cr.extractLsb' 5 1
/-- `DIR`, bits 7:6. -/
def crDir (cr : BitVec 25) : BitVec 2 := cr.extractLsb' 6 2
/-- `CIRC`, bit 8. -/
def crCirc (cr : BitVec 25) : Bool := cr.getLsbD 8
/-- `PINC`, bit 9. -/
def crPinc (cr : BitVec 25) : Bool := cr.getLsbD 9
/-- `MINC`, bit 10. -/
def crMinc (cr : BitVec 25) : Bool := cr.getLsbD 10
/-- `PSIZE`, bits 12:11. -/
def crPsize (cr : BitVec 25) : BitVec 2 := cr.extractLsb' 11 2
/-- `MSIZE`, bits 14:13. -/
def crMsize (cr : BitVec 25) : BitVec 2 := cr.extractLsb' 13 2
/-- `PINCOS`, bit 15. -/
def crPincos (cr : BitVec 25) : BitVec 1 := cr.extractLsb' 15 1
/-- `PL`, bits 17:16. -/
def crPl (cr : BitVec 25) : BitVec 2 := cr.extractLsb' 16 2
/-- `DBM`, bit 18. -/
def crDbm (cr : BitVec 25) : Bool := cr.getLsbD 18
/-- `CT`, bit 19. -/
def crCt (cr : BitVec 25) : Bool := cr.getLsbD 19
/-- `TRBUFF`, bit 20. -/
def crTrbuff (cr : BitVec 25) : Bool := cr.getLsbD 20
/-- `PBURST`, bits 22:21. -/
def crPburst (cr : BitVec 25) : BitVec 2 := cr.extractLsb' 21 2
/-- `MBURST`, bits 24:23. -/
def crMburst (cr : BitVec 25) : BitVec 2 := cr.extractLsb' 23 2

/-! ### Register addresses (R60) -/

/-- `regAddr(reg)` (R60). -/
def regAddr (p : Params) (r : Reg) : Word :=
  match r with
  | .cr => p.regAddrs.cr
  | .ndtr => p.regAddrs.ndtr
  | .par => p.regAddrs.par
  | .m0ar => p.regAddrs.m0ar
  | .m1ar => p.regAddrs.m1ar
  | .fcr => p.regAddrs.fcr
  | .lisr => p.regAddrs.lisr
  | .hisr => p.regAddrs.hisr
  | .lifcr => p.regAddrs.lifcr
  | .hifcr => p.regAddrs.hifcr

/-- The ten registers in the order of R23. -/
def allRegs : List Reg := [.cr, .ndtr, .par, .m0ar, .m1ar, .fcr, .lisr, .hisr, .lifcr, .hifcr]

/-- The register that stands at an address, if one does (R60). No rule depends on it (log 16). -/
def regAt (p : Params) (a : Word) : Option Reg := allRegs.find? (fun r => regAddr p r == a)

/-- A byte view of a 32-bit value: byte `n` of the four, little-endian (R65). No operation uses one (R64). -/
def byteOf (w : Word) (n : Nat) : BitVec 8 := w.extractLsb' (8 * n) 8

/-- The byte at an address of the register space (R60, R65): the stored bits of the register there, and the bits a
read would draw; `none` where no register stands. -/
def byteAt (p : Params) (g : Regs) (a : Nat) : Option (BitVec 8 × BitVec 8) :=
  if a < 2 ^ 32 then
    (regAt p (BitVec.ofNat 32 (a / 4 * 4))).map fun r =>
      (byteOf (readRule r g).1 (a % 4), byteOf (readRule r g).2 (a % 4))
  else none

end Machine

end Sys2Proof
end

