-- ==== Sys2Proof/Machine/Flags.lean ====
section
/-! DEFINITION. The interrupt flags and the interrupt mask: the indexer of 43_interrupt_flags.md R190 to R192, the
enable bits of 42_interrupt_mask.md R170, the lifecycle state of 10_state.md R41 and the derived `irq` of
60_exceptions.md R242. -/

namespace Sys2Proof.Machine

/-- Which shared register pair (R190). -/
inductive RegSel where
  | low | high
  deriving DecidableEq, Repr

/-- `locate(i)` (R190), defined by the spec for `i < 8`: in every operation larger indexes fault before it is used
(R234); in `flagOf` and `irq`, which fault on nothing, and in the transaction lists that a faulting operation does not
perform, its value there is the model's choice (log 23). -/
def locate (i : Nat) : RegSel × Nat :=
  (if i < 4 then .low else .high, 5 * (i % 4))

/-- `statusReg` (R190). -/
def statusReg : RegSel → Reg
  | .low => .lisr
  | .high => .hisr

/-- `clearReg` of R190, the clear register of the pair. -/
def clearRegOf : RegSel → Reg
  | .low => .lifcr
  | .high => .hifcr

/-- `FLAG_BIT(k)` (R109): 0 for TC by the source, a parameter for the others (D6). -/
def flagBitOf (f : FlagBits) : Kind → Nat
  | .tc => 0
  | .ht => f.ht.val
  | .te => f.te.val
  | .dme => f.dme.val
  | .fe => f.fe.val

/-- `flagBit(i, k)` (R191). -/
def flagBit (f : FlagBits) (i : Nat) (k : Kind) : Nat := (locate i).2 + flagBitOf f k

/-- `flagMask(i, k)` (R191). -/
def flagMask (f : FlagBits) (i : Nat) (k : Kind) : Word := 1#32 <<< flagBit f i k

/-- The flags of the shared status register of stream `i` (R35). -/
def statusFlags (g : Regs) (i : Nat) : BitVec 20 :=
  match (locate i).1 with
  | .low => g.lisr
  | .high => g.hisr

/-- The interrupt flag of stream `i` and kind `k` (R35). For `i ≥ 8` the spec has no flag and leaves `locate` undefined
(R190): the value given here is the model's choice (log 23). -/
def flagOf (p : Params) (g : Regs) (i : Nat) (k : Kind) : Bool :=
  (statusFlags g i).getLsbD (flagBit p.flagBits i k)

/-- `ieBit(k)`, the kind's enable bit in `CR` (R170); `FE` has none. -/
def ieBit : Kind → Word
  | .tc => 0x00000010#32
  | .ht => 0x00000008#32
  | .te => 0x00000004#32
  | .dme => 0x00000002#32
  | .fe => 0x00000000#32

/-- The kind's enable bit if the kind is in the set. -/
def ieBitIf (kset : KindSet) (k : Kind) : Word := if kset.has k then ieBit k else 0#32

/-- `crMask(kset)` (R170). -/
def crMask (kset : KindSet) : Word :=
  ieBitIf kset .tc ||| ieBitIf kset .ht ||| ieBitIf kset .te ||| ieBitIf kset .dme

/-- The mask of `FEIE` in `FCR` (R170). -/
def feieMask : Word := 0x00000080#32

/-- The enable of a kind as the registers hold it, the interrupt mask (R39, R174, R241). -/
def enabledOf (g : Regs) : Kind → Bool
  | .tc => crTcie g.cr
  | .ht => crHtie g.cr
  | .te => crTeie g.cr
  | .dme => crDmeie g.cr
  | .fe => g.fcr.feie

/-- The five kinds (R15). -/
def allKinds : List Kind := [.tc, .ht, .te, .dme, .fe]

/-- `irq` (R242): derived, non-normative; no rule reads it. DESIGN CHOICE (log 23): on an unmapped stream index, where
the spec gives no flags, it reads the bits of `HISR` that `flagOf` gives. -/
def irq (s : State) : Bool :=
  allKinds.any (fun k => flagOf s.params s.regs s.params.streamIndex k && enabledOf s.regs k)

/-- The lifecycle states (R41). -/
inductive Lifecycle where
  | unconstructed | configured | enabled
  deriving DecidableEq, Repr

/-- The lifecycle state, read off `constructed` and `CR.EN` (R41, R153). -/
def lifecycle (s : State) : Lifecycle :=
  if s.constructed = false then .unconstructed
  else if crEn s.regs.cr then .enabled
  else .configured

end Sys2Proof.Machine
end

