-- ==== Sys2Proof/Machine/Agents.lean ====
section
/-! DEFINITION. The agents other than the contexts: the engine's moves (20_memory.md R80 to R87) and foreign accesses
(R74). -/

namespace Sys2Proof.Machine

/-- R81: the flag of stream `i` and kind `k` becomes 1. -/
def assertFlag (i : Nat) (k : Kind) (s : State) : State :=
  let mask := 1#20 <<< flagBit s.params.flagBits i k
  match (locate i).1 with
  | .low => { s with regs := { s.regs with lisr := s.regs.lisr ||| mask } }
  | .high => { s with regs := { s.regs with hisr := s.regs.hisr ||| mask } }

/-- An engine move, or `none` where its condition does not hold (R81 to R86). It changes nothing else (R87). -/
def engineMove (m : EngineMove) (s : State) : Option State :=
  match m with
  | .assertFlag i k => some (assertFlag i.val k s)
  | .setFs fs => some { s with regs := { s.regs with fcr := { s.regs.fcr with fs := fs } } }
  | .setNdt ndt => if s.engineActive then some { s with regs := { s.regs with ndt := ndt } } else none
  | .clearEn =>
    if s.params.hwMayClearEn && crEn s.regs.cr then
      some { s with regs := { s.regs with cr := s.regs.cr &&& ~~~1#25 } }
    else none
  | .switchCt =>
    if crDbm s.regs.cr && s.engineActive then
      some { s with regs := { s.regs with cr := s.regs.cr ^^^ (1#25 <<< 19) } }
    else none
  | .sample =>
    if crEn s.regs.cr && !s.engineActive then some { s with engineActive := true }
    else if !crEn s.regs.cr && s.engineActive then some { s with engineActive := false }
    else none

/-- A foreign access (R74): the register's read or write rule. The word a foreign read returns goes to the foreign
agent and is not kept (log 15). -/
def foreignAccess (a : ForeignAccess) (s : State) : State :=
  match a with
  | .read _ => afterRead s
  | .write r v => memWrite r (BusWord.ofWord v) s

end Sys2Proof.Machine
end

