-- ==== Sys2Proof/Machine/Construct.lean ====
section
/-! DEFINITION. CONSTRUCT, the control-register encoder (40_construct.md R130 to R139). -/

namespace Sys2Proof.Machine

/-- The checks of R133, in the order of R238. CONSTRUCT does not check `constructed`. -/
def constructFault (cfg : Record) (s : State) : Option FaultCode :=
  if s.params.streamIndex ≥ 8 then some (.unmappedStreamIndex s.params.streamIndex)
  else (cfgCondition cfg).map FaultCode.invalidConfiguration

/-- The hazard test of R136: no bus read. -/
def constructHazard (s : State) : Option HazardCode :=
  if crEn s.regs.cr || s.engineActive then some .reconfigureWhileActive else none

/-- The five writes of R133. -/
def constructTxns (cfg : Record) : List Txn :=
  writeReg .cr (encodeCR cfg) ++ writeReg .par cfg.par ++ writeReg .m0ar cfg.m0ar ++ writeReg .m1ar cfg.m1ar ++
    writeReg .ndtr (countWord cfg)

/-- R133. -/
def opConstruct (cfg : Record) (s : State) : Operation :=
  { fault := constructFault cfg s, hazard := constructHazard s, txns := constructTxns cfg, finish := .construct }

/-- CONSTRUCT (R133). -/
def execConstruct (cfg : Record) (s : State) : Host.Outcome State Fault Refusal :=
  .next (runOp (encode (.construct cfg)) (opConstruct cfg s) s)

end Sys2Proof.Machine
end

