-- ==== Sys2Proof/Machine/Fifo.lean ====
section
/-! DEFINITION. SET_FIFO_THRESHOLD and GET_FIFO_STATUS (44_fifo.md R210 to R214). -/

namespace Sys2Proof.Machine

/-- R210: `change(FCR, 0x3, lvl, 0)`. -/
def opSetFifoThreshold (lvl : FifoLevel) (s : State) : Operation :=
  { fault := prologue s, txns := changeReg .fcr 0x00000003#32 (lvl.code.setWidth 32) 0, finish := .unit }

/-- SET_FIFO_THRESHOLD (R210). -/
def execSetFifoThreshold (lvl : FifoLevel) (s : State) : Host.Outcome State Fault Refusal :=
  .next (runOp (encode (.setFifoThreshold lvl)) (opSetFifoThreshold lvl s) s)

/-- R211: `read(FCR, 0x38, 3)`. -/
def opGetFifoStatus (s : State) : Operation :=
  { fault := prologue s, txns := readReg .fcr, finish := .fifoStatus }

/-- GET_FIFO_STATUS (R211). -/
def execGetFifoStatus (s : State) : Host.Outcome State Fault Refusal :=
  .next (runOp (encode .getFifoStatus) (opGetFifoStatus s) s)

end Sys2Proof.Machine
end

