-- ==== Sys2Proof/Machine/InterruptFlags.lean ====
section
/-! DEFINITION. CLEAR_INTERRUPT_FLAG and GET_INTERRUPT_FLAG (43_interrupt_flags.md R193 to R196). -/

namespace Sys2Proof.Machine

/-- R193: one plain write of the stream's clear register, with one bit set. -/
def opClearInterruptFlag (k : Kind) (s : State) : Operation :=
  { fault := prologue s
    txns := writeReg (clearRegOf (locate s.params.streamIndex).1)
      (flagMask s.params.flagBits s.params.streamIndex k)
    finish := .unit }

/-- CLEAR_INTERRUPT_FLAG (R193). -/
def execClearInterruptFlag (k : Kind) (s : State) : Host.Outcome State Fault Refusal :=
  .next (runOp (encode (.clearInterruptFlag k)) (opClearInterruptFlag k s) s)

/-- R194: one read of the stream's status register. -/
def opGetInterruptFlag (k : Kind) (s : State) : Operation :=
  { fault := prologue s
    txns := readReg (statusReg (locate s.params.streamIndex).1)
    finish := .flagBit (flagBit s.params.flagBits s.params.streamIndex k) }

/-- GET_INTERRUPT_FLAG (R194). -/
def execGetInterruptFlag (k : Kind) (s : State) : Host.Outcome State Fault Refusal :=
  .next (runOp (encode (.getInterruptFlag k)) (opGetInterruptFlag k s) s)

end Sys2Proof.Machine
end

