-- ==== Sys2Proof/Machine/InterruptMask.lean ====
section
/-! DEFINITION. ENABLE_INTERRUPT and DISABLE_INTERRUPT (42_interrupt_mask.md R170 to R174). -/

namespace Sys2Proof.Machine

/-- R171: the `FCR` access when FE is in the set, then the `CR` access, which is made even when the mask is empty. -/
def opEnableInterrupt (kset : KindSet) (s : State) : Operation :=
  { fault := prologue s
    txns := (if kset.has .fe then setReg .fcr feieMask else []) ++ setReg .cr (crMask kset)
    finish := .unit }

/-- ENABLE_INTERRUPT (R171). -/
def execEnableInterrupt (kset : KindSet) (s : State) : Host.Outcome State Fault Refusal :=
  .next (runOp (encode (.enableInterrupt kset)) (opEnableInterrupt kset s) s)

/-- R172. -/
def opDisableInterrupt (kset : KindSet) (s : State) : Operation :=
  { fault := prologue s
    txns := (if kset.has .fe then clearReg .fcr feieMask else []) ++ clearReg .cr (crMask kset)
    finish := .unit }

/-- DISABLE_INTERRUPT (R172). -/
def execDisableInterrupt (kset : KindSet) (s : State) : Host.Outcome State Fault Refusal :=
  .next (runOp (encode (.disableInterrupt kset)) (opDisableInterrupt kset s) s)

end Sys2Proof.Machine
end

