-- ==== Sys2Proof/Machine/StreamControl.lean ====
section
/-! DEFINITION. ENABLE, DISABLE and SET_TARGET_MEMORY (41_stream_control.md R150 to R156). -/

namespace Sys2Proof.Machine

/-- R150: `set(CR, bit(0))`. -/
def opEnable (s : State) : Operation :=
  { fault := prologue s, txns := setReg .cr 0x00000001#32, finish := .unit }

/-- ENABLE (R150). -/
def execEnable (s : State) : Host.Outcome State Fault Refusal :=
  .next (runOp (encode .enable) (opEnable s) s)

/-- R151: `clear(CR, bit(0))`. -/
def opDisable (s : State) : Operation :=
  { fault := prologue s, txns := clearReg .cr 0x00000001#32, finish := .unit }

/-- DISABLE (R151). -/
def execDisable (s : State) : Host.Outcome State Fault Refusal :=
  .next (runOp (encode .disable) (opDisable s) s)

/-- R152: `change(CR, bit(19), b, 19)`. -/
def opSetTargetMemory (b : Buffer) (s : State) : Operation :=
  { fault := prologue s, txns := changeReg .cr 0x00080000#32 (b.code.setWidth 32) 19, finish := .unit }

/-- SET_TARGET_MEMORY (R152). -/
def execSetTargetMemory (b : Buffer) (s : State) : Host.Outcome State Fault Refusal :=
  .next (runOp (encode (.setTargetMemory b)) (opSetTargetMemory b s) s)

end Sys2Proof.Machine
end

