-- ==== Sys2Proof/Machine/Dispatch.lean ====
section
/-! DEFINITION. One arm per operation (30_encoding.md R95): the operation run whole by the context `issuer`. -/

namespace Sys2Proof.Machine

def exec (i : Instr) (s : State) : Host.Outcome State Fault Refusal :=
  match i with
  | .construct cfg => Sys2Proof.Machine.execConstruct cfg s
  | .enable => Sys2Proof.Machine.execEnable s
  | .disable => Sys2Proof.Machine.execDisable s
  | .setTargetMemory b => Sys2Proof.Machine.execSetTargetMemory b s
  | .enableInterrupt kset => Sys2Proof.Machine.execEnableInterrupt kset s
  | .disableInterrupt kset => Sys2Proof.Machine.execDisableInterrupt kset s
  | .clearInterruptFlag k => Sys2Proof.Machine.execClearInterruptFlag k s
  | .getInterruptFlag k => Sys2Proof.Machine.execGetInterruptFlag k s
  | .setFifoThreshold lvl => Sys2Proof.Machine.execSetFifoThreshold lvl s
  | .getFifoStatus => Sys2Proof.Machine.execGetFifoStatus s

end Sys2Proof.Machine
end

