-- ==== Sys2Proof/Machine/Turns.lean ====
section
/-! DEFINITION. What a turn of the schedule does (20_memory.md R72): a context's next command, whole or one
transaction at a time, an engine move, or a foreign access. -/

namespace Sys2Proof.Machine

/-- The operation a command stands for, as the state finds it. -/
def operationOf (i : Instr) (s : State) : Operation :=
  match i with
  | .construct cfg => opConstruct cfg s
  | .enable => opEnable s
  | .disable => opDisable s
  | .setTargetMemory b => opSetTargetMemory b s
  | .enableInterrupt kset => opEnableInterrupt kset s
  | .disableInterrupt kset => opDisableInterrupt kset s
  | .clearInterruptFlag k => opClearInterruptFlag k s
  | .getInterruptFlag k => opGetInterruptFlag k s
  | .setFifoThreshold lvl => opSetFifoThreshold lvl s
  | .getFifoStatus => opGetFifoStatus s

/-- The next command of a context, none when it has finished (R21). -/
def Context.next (x : Context) : Option Command := x.prog[x.pc]?

/-- A context has work left: an operation in flight, or a command to take (R21, R273). -/
def Context.busy (x : Context) : Bool := x.inflight.isSome || decide (x.pc < x.prog.length)

/-- The issuing context's operation is in flight. -/
def Context.setInflight (f : InFlight) (x : Context) : Context := { x with inflight := some f }

/-- One transaction of an operation in flight, with the local computation that follows it (R72). -/
def advance (f : InFlight) (s : State) : State :=
  let op := operationOf f.instr s
  match op.txns.drop f.index with
  | [] => finishOp (encode f.instr) op.finish f.v s
  | t :: rest =>
    let after := doTxn t f.v s
    match rest with
    | [] => finishOp (encode f.instr) op.finish after.1 after.2
    | _ :: _ =>
      { after.2 with
        contexts := after.2.contexts.modify after.2.issuer
          (Context.setInflight { instr := f.instr, index := f.index + 1, v := after.1 }) }

/-- The rest of an operation in flight, with no other agent's step inside it. -/
def finishInflight (f : InFlight) (s : State) : State :=
  let op := operationOf f.instr s
  let after := doTxns (op.txns.drop f.index) f.v s
  finishOp (encode f.instr) op.finish after.1 after.2

/-- The first step of an operation: its checks, its hazard, its first transaction (R72, R133, R232). -/
def startOp (i : Instr) (s : State) : State :=
  let op := operationOf i s
  match op.fault with
  | some code => raiseFault (encode i) code s
  | none => advance { instr := i, index := 0, v := BusWord.zero } (recordHazard (encode i) op.hazard s)

/-- A command that decodes to no operation (R233). -/
def illegalCommand (cmd : Command) (e : DecodeError) (s : State) : State :=
  match e with
  | .illegalCommand w => raiseFault cmd (.illegalCommand w) s

/-- A turn of context `c` up to the end of its operation: the one in flight, or the next command's, which `exec`
runs (log 8). -/
def wholeTurn (c : Nat) (s : State) : Host.Outcome State Fault Refusal :=
  match s.contexts[c]? with
  | none => .fault (.noSuchContext c)
  | some x =>
    match x.inflight with
    | some f => .next (finishInflight f { s with issuer := c })
    | none =>
      match x.next with
      | none => .fault (.contextFinished c)
      | some cmd =>
        match decode cmd with
        | .ok i => exec i { s with issuer := c }
        | .error e => .next (illegalCommand cmd e { s with issuer := c })

/-- A turn of context `c` of one bus transaction (R72). -/
def txnTurn (c : Nat) (s : State) : Host.Outcome State Fault Refusal :=
  match s.contexts[c]? with
  | none => .fault (.noSuchContext c)
  | some x =>
    match x.inflight with
    | some f => .next (advance f { s with issuer := c })
    | none =>
      match x.next with
      | none => .fault (.contextFinished c)
      | some cmd =>
        match decode cmd with
        | .ok i => .next (startOp i { s with issuer := c })
        | .error e => .next (illegalCommand cmd e { s with issuer := c })

/-- An engine move, if its condition holds (R80). -/
def engineTurn (m : EngineMove) (s : State) : Host.Outcome State Fault Refusal :=
  match engineMove m s with
  | some t => .next t
  | none => .fault (.moveNotEnabled m)

/-- One step of one agent (R72). -/
def takeTurn (t : Turn) (s : State) : Host.Outcome State Fault Refusal :=
  match t with
  | .whole c => wholeTurn c s
  | .txn c => txnTurn c s
  | .engine m => engineTurn m s
  | .foreign a => .next (foreignAccess a s)

/-- The turn taken when none is scheduled: the first context that has work left runs its next operation (log 7);
none when every context has finished (R273). -/
def defaultTurn (s : State) : Option Turn :=
  (s.contexts.findIdx? Context.busy).map Turn.whole

/-- The step of the machine: the scheduled turn, else the default one. -/
def nextTurn (s : State) : Host.Outcome State Fault Refusal :=
  match s.schedule with
  | t :: rest => takeTurn t { s with schedule := rest }
  | [] =>
    match defaultTurn s with
    | some t => takeTurn t s
    | none => .fault .endOfRun

/-- `cmd` as the next command of a context, nothing of it in flight. -/
def Context.withNext (cmd : Command) (x : Context) : Context :=
  { x with
    prog := x.prog.take x.pc ++ List.replicate (x.pc - x.prog.length) cmd ++ cmd :: x.prog.drop (x.pc + 1)
    inflight := none }

/-- `cmd` as the next command of the first context (log 4). -/
def placeCommand (cmd : Command) : List Context → List Context
  | [] => [Context.start [cmd]]
  | x :: xs => x.withNext cmd :: xs

end Sys2Proof.Machine
end

