-- ==== Sys2Proof/Machine/Step.lean ====
section
/-! DEFINITION. The step of the machine (20_memory.md R72), and the placing of a command word where the next step
takes its command from. -/

namespace Sys2Proof.Machine

/-- One step: the scheduled agent's (R72). -/
def step (s : State) : Host.Outcome State Fault Refusal := nextTurn s

/-- `s` with the command of a table word as the first context's next command, and that context's turn next (log 4). -/
def State.withFetchWord (s : State) (nbits w : Nat) : State :=
  { s with contexts := placeCommand (tableCommand nbits w) s.contexts, schedule := .whole 0 :: s.schedule }

end Sys2Proof.Machine
end

