-- ==== Sys2Proof/Machine/Assembler.lean ====
section
/-! DEFINITION. The text of assembler lines (30_encoding.md R112, R113): characters to tokens, tokens to an abstract
line, a line to its operation and its command. Text is a list of characters. No step of the machine reads it. -/

namespace Sys2Proof.Machine

/-- The tokens of a line. -/
inductive Token where
  | word (cs : List Char)
  | equals
  | comma
  | openBrace
  | closeBrace
  deriving DecidableEq, Repr

/-- The character that opens a kind set. -/
def openBraceChar : Char := Char.ofNat 0x7B
/-- The character that closes a kind set. -/
def closeBraceChar : Char := Char.ofNat 0x7D

/-- The characters of mnemonics, names and numbers. -/
def isWordChar (c : Char) : Bool := c.isAlphanum || c == '_'

/-- The word read so far, if there is one, before the tokens that follow it. -/
def closeWord (acc : List Char) (ts : List Token) : List Token :=
  if acc.isEmpty then ts else .word acc :: ts

/-- The tokens of a line; `acc` is the word being read. Blanks separate words; any other character is no line. -/
def lex (acc : List Char) : List Char → Option (List Token)
  | [] => some (closeWord acc [])
  | c :: cs =>
    if isWordChar c then lex (acc ++ [c]) cs
    else if c == ' ' || c == '\t' then (lex [] cs).map (closeWord acc)
    else if c == '=' then (lex [] cs).map fun ts => closeWord acc (.equals :: ts)
    else if c == ',' then (lex [] cs).map fun ts => closeWord acc (.comma :: ts)
    else if c == openBraceChar then (lex [] cs).map fun ts => closeWord acc (.openBrace :: ts)
    else if c == closeBraceChar then (lex [] cs).map fun ts => closeWord acc (.closeBrace :: ts)
    else none

/-! ### Numbers and names -/

/-- The value of a digit, hexadecimal ones among them. -/
def digitValue (c : Char) : Option Nat :=
  if '0' ≤ c ∧ c ≤ '9' then some (c.toNat - '0'.toNat)
  else if 'a' ≤ c ∧ c ≤ 'f' then some (c.toNat - 'a'.toNat + 10)
  else if 'A' ≤ c ∧ c ≤ 'F' then some (c.toNat - 'A'.toNat + 10)
  else none

/-- The number that digits of a base write, after `n`. -/
def digits (base n : Nat) : List Char → Option Nat
  | [] => some n
  | c :: cs =>
    match digitValue c with
    | some d => if d < base then digits base (base * n + d) cs else none
    | none => none

/-- A decimal or `0x` hexadecimal number (R112). -/
def parseNat : List Char → Option Nat
  | [] => none
  | ['0', 'x'] => none
  | '0' :: 'x' :: cs => digits 16 0 cs
  | c :: cs => digits 10 0 (c :: cs)

/-- A `u32` operand. -/
def parseWord (cs : List Char) : Option Word :=
  match parseNat cs with
  | some n => if n < 2 ^ 32 then some (BitVec.ofNat 32 n) else none
  | none => none

/-- A value by its name in a list of names. -/
def byName {α : Type} (names : List (String × α)) (cs : List Char) : Option α :=
  (names.find? fun p => p.1.toList == cs).map Prod.snd

/-- A `0` or `1` operand. -/
def parseBool : List Char → Option Bool := byName [("0", false), ("1", true)]
/-- The buffers of `set_target_memory`. -/
def parseBuffer : List Char → Option Buffer := byName [("0", .buffer0), ("1", .buffer1)]
/-- R100. -/
def parseDir : List Char → Option Dir := byName [("P2M", .p2m), ("M2P", .m2p), ("M2M", .m2m)]
/-- R101. -/
def parseSize : List Char → Option DataSize := byName [("BYTE", .byte), ("HALFWORD", .halfword), ("WORD", .word)]
/-- R102. -/
def parsePriority : List Char → Option Priority :=
  byName [("LOW", .low), ("MEDIUM", .medium), ("HIGH", .high), ("VERY_HIGH", .veryHigh)]
/-- R103. -/
def parseBurst : List Char → Option Burst :=
  byName [("SINGLE", .single), ("INCR4", .incr4), ("INCR8", .incr8), ("INCR16", .incr16)]
/-- R104. -/
def parseFlowController : List Char → Option FlowController := byName [("DMA", .dma), ("PERIPHERAL", .peripheral)]
/-- R104. -/
def parseIncOffset : List Char → Option IncOffset := byName [("PSIZE_LINKED", .psizeLinked), ("FIXED_4", .fixed4)]
/-- R107. -/
def parseLevel : List Char → Option FifoLevel :=
  byName [("QUARTER", .quarter), ("HALF", .half), ("THREE_QUARTERS", .threeQuarters), ("FULL", .full)]
/-- R109. -/
def parseKind : List Char → Option Kind := byName [("TC", .tc), ("HT", .ht), ("TE", .te), ("DME", .dme), ("FE", .fe)]

/-! ### Operands -/

/-- The `key=value` operands of `construct`, separated by commas. -/
def parseFields : List Token → Option (List (List Char × List Char))
  | [.word k, .equals, .word v] => some [(k, v)]
  | .word k :: .equals :: .word v :: .comma :: rest => (parseFields rest).map fun fs => (k, v) :: fs
  | _ => none

/-- The kinds of a set after its opening brace, at least one. -/
def parseKinds : List Token → Option (List Kind)
  | [.word k, .closeBrace] => (parseKind k).map fun kind => [kind]
  | .word k :: .comma :: rest =>
    match parseKind k, parseKinds rest with
    | some kind, some kinds => some (kind :: kinds)
    | _, _ => none
  | _ => none

/-- A kind set in braces; it may be empty. -/
def parseKindSet : List Token → Option (List Kind)
  | [.openBrace, .closeBrace] => some []
  | .openBrace :: rest => parseKinds rest
  | _ => none

/-- The operand names of `construct` (R112). -/
def constructKeys : List (List Char) :=
  ["dir", "psize", "msize", "pinc", "minc", "par", "m0ar", "count", "m1ar", "pl", "circ", "pincos", "dbm", "trbuff",
    "pfctrl", "pburst", "mburst"].map String.toList

/-- The value written for a key. -/
def fieldText (key : String) (fields : List (List Char × List Char)) : Option (List Char) :=
  (fields.find? fun p => p.1 == key.toList).map Prod.snd

/-- A required operand. -/
def required {α : Type} (parse : List Char → Option α) (key : String) (fields : List (List Char × List Char)) :
    Option α :=
  (fieldText key fields).bind parse

/-- An optional operand: it may be absent, and where it stands its value must be one. -/
def optional {α : Type} (parse : List Char → Option α) (key : String) (fields : List (List Char × List Char)) :
    Option (Option α) :=
  match fieldText key fields with
  | none => some none
  | some v => (parse v).map some

/-- The operands of `construct`: every key known and written once, in any order (log 19), the required ones there. -/
def parseConstruct (fields : List (List Char × List Char)) : Option AsmConstruct :=
  let keys := fields.map Prod.fst
  if keys.all (fun k => constructKeys.contains k) = false ∨ ¬ keys.Nodup then none
  else do
    let dir ← required parseDir "dir" fields
    let psize ← required parseSize "psize" fields
    let msize ← required parseSize "msize" fields
    let pinc ← required parseBool "pinc" fields
    let minc ← required parseBool "minc" fields
    let par ← required parseWord "par" fields
    let m0ar ← required parseWord "m0ar" fields
    let count ← required parseWord "count" fields
    let m1ar ← optional parseWord "m1ar" fields
    let pl ← optional parsePriority "pl" fields
    let circ ← optional parseBool "circ" fields
    let pincos ← optional parseIncOffset "pincos" fields
    let dbm ← optional parseBool "dbm" fields
    let trbuff ← optional parseBool "trbuff" fields
    let pfctrl ← optional parseFlowController "pfctrl" fields
    let pburst ← optional parseBurst "pburst" fields
    let mburst ← optional parseBurst "mburst" fields
    some { dir, psize, msize, pinc, minc, par, m0ar, count, m1ar, pl, circ, pincos, dbm, trbuff, pfctrl, pburst,
           mburst }

/-! ### Lines -/

/-- The one operand of a line that takes one word. -/
def oneWord {α : Type} (parse : List Char → Option α) : List Token → Option α
  | [.word w] => parse w
  | _ => none

/-- A line without operands. -/
def noOperand (line : AsmLine) : List Token → Option AsmLine
  | [] => some line
  | _ :: _ => none

/-- The line of a mnemonic in small letters and the tokens after it (R112, R113). -/
def parseOperands (mnemonic : List Char) (ts : List Token) : Option AsmLine :=
  if mnemonic = "construct".toList then ((parseFields ts).bind parseConstruct).map AsmLine.construct
  else if mnemonic = "enable".toList then noOperand .enable ts
  else if mnemonic = "disable".toList then noOperand .disable ts
  else if mnemonic = "set_target_memory".toList then (oneWord parseBuffer ts).map AsmLine.setTargetMemory
  else if mnemonic = "enable_interrupt".toList then
    match oneWord parseKind ts with
    | some k => some (.enableInterruptKind k)
    | none => (parseKindSet ts).map AsmLine.enableInterrupt
  else if mnemonic = "disable_interrupt".toList then
    match oneWord parseKind ts with
    | some k => some (.disableInterruptKind k)
    | none => (parseKindSet ts).map AsmLine.disableInterrupt
  else if mnemonic = "clear_interrupt_flag".toList then (oneWord parseKind ts).map AsmLine.clearInterruptFlag
  else if mnemonic = "get_interrupt_flag".toList then (oneWord parseKind ts).map AsmLine.getInterruptFlag
  else if mnemonic = "set_fifo_threshold".toList then (oneWord parseLevel ts).map AsmLine.setFifoThreshold
  else if mnemonic = "get_fifo_status".toList then noOperand .getFifoStatus ts
  else none

/-- A line of text; mnemonics are case-insensitive (R112). -/
def parseLine (text : List Char) : Option AsmLine :=
  match lex [] text with
  | some (.word m :: ts) => parseOperands (m.map Char.toLower) ts
  | some (.equals :: _) => none
  | some (.comma :: _) => none
  | some (.openBrace :: _) => none
  | some (.closeBrace :: _) => none
  | some [] => none
  | none => none

/-- The command of a line of text. -/
def assembleText (text : List Char) : Option Command := (parseLine text).map fun line => encode (assemble line)

end Sys2Proof.Machine
end

