-- ==== Sys2Proof/Safety.lean ====
section
/-! DEFINITION. The terms claims use: when an operation completes normally, what a command's completion changes, the
premises `exclusive` and `quiet` of 20_memory.md R73, runs without faults or hazards (60_exceptions.md R231, R239),
and the invariants of the machine. -/

namespace Sys2Proof.Machine

/-! ### Completing a command -/

/-- The premise of every operation but CONSTRUCT: the stream index is mapped (R234) and the stream has been
constructed (R235). -/
abbrev Ready (s : State) : Prop := s.params.streamIndex < 8 ∧ s.constructed = true

/-- The issuing context's command completed with result `r`: its `pc` advanced by one (R21), nothing of it is in
flight, `r` was appended to its results (R45), and no other context changed. -/
def CompletesWith (r : Result) (s t : State) : Prop :=
  ∀ c, t.contexts[c]? =
    if c = s.issuer then
      (s.contexts[c]?).map fun x => { x with pc := x.pc + 1, inflight := none, results := x.results ++ [r] }
    else s.contexts[c]?

/-- What no operation changes: the parameters (R46), the engine's hidden state (R42), and the model's own `schedule`
and `issuer`. -/
def KeepsOutside (s t : State) : Prop :=
  t.params = s.params ∧ t.engineActive = s.engineActive ∧ t.schedule = s.schedule ∧ t.issuer = s.issuer

/-- A normal completion that leaves the latch and both logs as they were. -/
def CompletesQuietly (r : Result) (s t : State) : Prop :=
  CompletesWith r s t ∧ KeepsOutside s t ∧ t.constructed = s.constructed ∧ t.faultLog = s.faultLog ∧
    t.hazardLog = s.hazardLog

/-- A fault as R231 describes it: the result, one entry of `faultLog`, and nothing else: no register (R232), no latch,
no hazard. -/
def Faults (cmd : Command) (code : FaultCode) (s t : State) : Prop :=
  CompletesWith (.fault code) s t ∧ KeepsOutside s t ∧ t.regs = s.regs ∧ t.constructed = s.constructed ∧
    t.faultLog = s.faultLog ++ [{ context := s.issuer, command := cmd, code := code }] ∧ t.hazardLog = s.hazardLog

/-- Context `c` has nothing in flight and `cmd` is its next command. -/
def TakesNext (c : Nat) (cmd : Command) (s : State) : Prop :=
  ∃ x, s.contexts[c]? = some x ∧ x.inflight = none ∧ x.prog[x.pc]? = some cmd

/-- The illegal and reserved command words, as R111 lists them, with the must-be-zero bits of R92 to R97. -/
def IllegalWord (w : Word) : Prop :=
  let op := (w.extractLsb' 0 4).toNat
  w.extractLsb' 12 20 ≠ 0#20 ∨ op ≥ 0xA ∨
  ((op = 0 ∨ op = 1 ∨ op = 2 ∨ op = 9) ∧ w.extractLsb' 4 8 ≠ 0#8) ∨
  (op = 3 ∧ w.extractLsb' 5 7 ≠ 0#7) ∨
  ((op = 4 ∨ op = 5) ∧ w.extractLsb' 9 3 ≠ 0#3) ∨
  ((op = 6 ∨ op = 7) ∧ (w.extractLsb' 7 5 ≠ 0#5 ∨ (w.extractLsb' 4 3).toNat ≥ 5)) ∨
  (op = 8 ∧ w.extractLsb' 6 6 ≠ 0#6)

/-! ### The configuration checks in the words of R132 -/

/-- An address equal to zero or misaligned for the data width (R132 (b) to (d)). -/
def ZeroOrMisaligned (a : Word) (size : DataSize) : Prop := a = 0#32 ∨ a.toNat % size.bytes ≠ 0

/-- Condition (a) to (e) of R132 holds of a record. -/
def CfgFails (cfg : Record) : CfgCondition → Prop
  | .countTooLarge => cfg.count.toNat > 0xFFFF
  | .badPar => ZeroOrMisaligned cfg.par cfg.psize
  | .badM0ar => ZeroOrMisaligned cfg.m0ar cfg.msize
  | .badM1ar => cfg.dbm = true ∧ ZeroOrMisaligned cfg.m1ar cfg.msize
  | .reservedCode => cfg.dir = .reserved ∨ cfg.psize = .reserved ∨ cfg.msize = .reserved

/-- `valid(cfg)` of R133: no condition of R132 holds. -/
def ValidConfig (cfg : Record) : Prop := ∀ cond, ¬ CfgFails cfg cond

/-- The order of the conditions (R236). -/
def CfgCondition.order : CfgCondition → Nat
  | .countTooLarge => 0
  | .badPar => 1
  | .badM0ar => 2
  | .badM1ar => 3
  | .reservedCode => 4

/-! ### Runs -/

/-- The turn a step takes: the scheduled one, else the default one. -/
def turnOf (s : State) : Option Turn :=
  match s.schedule with
  | t :: _ => some t
  | [] => defaultTurn s

/-- The context whose turn it is. -/
def contextOf : Turn → Option Nat
  | .whole c => some c
  | .txn c => some c
  | .engine _ => none
  | .foreign _ => none

/-- The operation context `c` is executing or about to execute: the one in flight, else its next command's. -/
def currentInstr (c : Nat) (s : State) : Option Instr :=
  match s.contexts[c]? with
  | none => none
  | some x =>
    match x.inflight with
    | some f => some f.instr
    | none =>
      match x.next with
      | none => none
      | some cmd =>
        match decode cmd with
        | .ok i => some i
        | .error _ => none

/-- The operation whose transaction a step of `s` performs, if the step is a context's. -/
def steppingInstr (s : State) : Option Instr :=
  ((turnOf s).bind contextOf).bind fun c => currentInstr c s

/-- Turns of the engine and of foreign software only. -/
def noContextTurn (ts : List Turn) : Bool := ts.all fun t => (contextOf t).isNone

/-- No turn of context `c` is among the turns: those of the engine, of foreign software and of the other contexts. -/
def noTurnOf (c : Nat) (ts : List Turn) : Bool := ts.all fun t => contextOf t != some c

/-- The next transaction of context `c` is number `k` of the operation `i`: the operation is in flight there, or it is
the context's next command's and `k` is 0. -/
def AtTransaction (c : Nat) (i : Instr) (k : Nat) (s : State) : Prop :=
  (k = 0 ∧ ∃ cmd, TakesNext c cmd s ∧ decode cmd = .ok i) ∨
  ∃ x v, s.contexts[c]? = some x ∧ x.inflight = some { instr := i, index := k, v := v }

/-- The turns of a list, one after another, up to the first stop. -/
def takeTurns : List Turn → State → Host.Outcome State Fault Refusal
  | [], s => .next s
  | t :: ts, s =>
    match takeTurn t s with
    | .next s' => takeTurns ts s'
    | .fault r => .fault r
    | .refused r => .refused r

/-- Operations run whole, one after another, by the issuing context. -/
def execAll : List Instr → State → Host.Outcome State Fault Refusal
  | [], s => .next s
  | i :: is, s =>
    match exec i s with
    | .next s' => execAll is s'
    | .fault r => .fault r
    | .refused r => .refused r

/-- `quiet` (R73): no engine move occurs. -/
def quiet (ts : List Turn) : Bool :=
  ts.all fun t => match t with
    | .engine _ => false
    | .whole _ => true
    | .txn _ => true
    | .foreign _ => true

/-- The registers a foreign access must leave alone under `exclusive` (R73). -/
def ownedByStream : Reg → Bool
  | .cr => true
  | .ndtr => true
  | .par => true
  | .m0ar => true
  | .m1ar => true
  | .fcr => true
  | .lisr => false
  | .hisr => false
  | .lifcr => false
  | .hifcr => false

/-- No context other than `c` has an operation in flight. -/
def onlyInflight (c : Nat) (s : State) : Bool :=
  (List.range s.contexts.length).all fun d =>
    d == c || match s.contexts[d]? with
      | some x => x.inflight.isNone
      | none => true

/-- A turn of context `c` performs a bus transaction: it has an operation in flight, or its next command decodes to
an operation whose checks pass. A turn that only raises a fault of the checks performs none (R232). -/
def performsTransaction (c : Nat) (s : State) : Bool :=
  match s.contexts[c]? with
  | none => false
  | some x =>
    match x.inflight with
    | some _ => true
    | none =>
      match x.next with
      | none => false
      | some cmd =>
        match decode cmd with
        | .ok i => (operationOf i s).fault.isNone
        | .error _ => false

/-- A turn that `exclusive` admits in a state (R73): a transaction of a context only while no other context is between
the first and the last transaction of an operation, and no foreign access to the stream's own registers. -/
def exclusiveTurn (t : Turn) (s : State) : Bool :=
  match t with
  | .whole c => !performsTransaction c s || onlyInflight c s
  | .txn c => !performsTransaction c s || onlyInflight c s
  | .engine _ => true
  | .foreign (.read r) => !ownedByStream r
  | .foreign (.write r _) => !ownedByStream r

/-- `exclusive` (R73) of the run that takes the turns of a list. -/
def exclusive : List Turn → State → Bool
  | [], _ => true
  | t :: ts, s =>
    exclusiveTurn t s && match takeTurn t s with
      | .next s' => exclusive ts s'
      | .fault _ => true
      | .refused _ => true

/-- A run went right: no fault (R231) and no hazard (R239) was recorded. -/
def ranRight (s : State) : Bool := s.faultLog.isEmpty && s.hazardLog.isEmpty

/-! ### Invariants -/

/-- CONSTRUCT, the operation that may run before construction (R235). -/
def isConstruct : Instr → Bool
  | .construct _ => true
  | .enable => false
  | .disable => false
  | .setTargetMemory _ => false
  | .enableInterrupt _ => false
  | .disableInterrupt _ => false
  | .clearInterruptFlag _ => false
  | .getInterruptFlag _ => false
  | .setFifoThreshold _ => false
  | .getFifoStatus => false

/-- The fault a result carries. -/
def faultOf : Result → Option FaultCode
  | .unit => none
  | .flag _ => none
  | .fifo _ => none
  | .fault code => some code

/-- An operation in flight is the one the context's next command stands for, between its first and its last
transaction (R45), and passed its checks (R234, R235). -/
def inflightWf (s : State) (x : Context) (f : InFlight) : Bool :=
  (match x.next with
    | some cmd =>
      match decode cmd with
      | .ok i => decide (i = f.instr)
      | .error _ => false
    | none => false) &&
  decide (0 < f.index) && decide (f.index < (operationOf f.instr s).txns.length) &&
  decide (s.params.streamIndex < 8) && (s.constructed || isConstruct f.instr)

/-- A context has one result per completed command (R21, R45), has not run past its sequence, and its operation in
flight is in order. -/
def contextWf (s : State) (x : Context) : Bool :=
  decide (x.results.length = x.pc) && decide (x.pc ≤ x.prog.length) &&
  match x.inflight with
  | none => true
  | some f => inflightWf s x f

/-- The machine's invariant: well-formed parameters, at least one context (R71), every context in order, and no log
entry of a context that does not exist. -/
def State.wf (s : State) : Bool :=
  s.params.wf && !s.contexts.isEmpty && s.contexts.all (contextWf s) &&
  s.faultLog.all (fun e => decide (e.context < s.contexts.length)) &&
  s.hazardLog.all (fun e => decide (e.context < s.contexts.length))

/-- A change of `CR` between transaction `k` of the operation `i`, a read of `CR`, and the write after it is lost, whoever
made it: the write leaves in `CR` what `f` makes of the value that was read, and no other register is touched (R269). -/
def LosesCrChange (i : Instr) (k : Nat) (f : BitVec 25 → BitVec 25) : Prop :=
  ∀ (s : State) (c : Nat) (ts : List Turn) (u : State), Ready s → AtTransaction c i k s → noTurnOf c ts = true →
    takeTurns (.txn c :: ts) s = .next u →
    ∃ t, takeTurn (.txn c) u = .next t ∧ t.regs = { u.regs with cr := f s.regs.cr }

/-- The same for `FCR`, whose `FS` no write changes (R33). -/
def LosesFcrChange (i : Instr) (k : Nat) (f : Fcr → Fcr) : Prop :=
  ∀ (s : State) (c : Nat) (ts : List Turn) (u : State), Ready s → AtTransaction c i k s → noTurnOf c ts = true →
    takeTurns (.txn c :: ts) s = .next u →
    ∃ t, takeTurn (.txn c) u = .next t ∧
      t.regs = { u.regs with fcr := { f s.regs.fcr with fs := u.regs.fcr.fs } }

/-- R231: the fault results of each context are its entries of `faultLog`, in order. -/
def FaultLogMatchesResults (s : State) : Prop :=
  ∀ c x, s.contexts[c]? = some x →
    (s.faultLog.filter (fun e => e.context == c)).map FaultEntry.code = x.results.filterMap faultOf

/-- R266: until a CONSTRUCT has completed, every result is a fault and only a CONSTRUCT is in flight. -/
def OnlyFaultsBeforeConstruct (s : State) : Prop :=
  s.constructed = false → ∀ x ∈ s.contexts,
    (∀ r ∈ x.results, (faultOf r).isSome = true) ∧
    (∀ f, x.inflight = some f → isConstruct f.instr = true)

end Sys2Proof.Machine
end

