-- ==== Sys2Proof/Certificates/Slice0/Obligations.lean ====
section
/-! DEFINITION. The statements for the provers, from the numbered rules of spec/. Each docstring names the rule.
The vocabulary is in Sys2Proof/Safety.lean. -/

open Sys2Proof Sys2Proof.Machine

/-! ## Encoding (30_encoding.md) -/

/-- R90 to R99: decoding what the encoder gives for an operation gives the operation back, every operand included. -/
def Obligations.DecodeOfEncode : Prop :=
  ∀ i : Instr, decode (encode i) = .ok i

/-- R91 to R99: an operation decoded from a command encodes to that command's word, and CONSTRUCT's operand is the
command's record: decoding drops no bit. -/
def Obligations.EncodeOfDecode : Prop :=
  ∀ (cmd : Command) (i : Instr), decode cmd = .ok i →
    (encode i).word = cmd.word ∧ ∀ cfg, i = .construct cfg → cfg = cmd.record

/-- R95, R98, R111 against spec/opcode_table.json: a command decodes exactly when its word matches a row (and, in the
two single-kind rows, has a kind code up to 4), and then to the operation of a matching row. -/
def Obligations.DecodeFollowsOpcodeTable : Prop :=
  ∀ cmd : Command,
    ((∃ i, decode cmd = .ok i) ↔
      ∃ r ∈ opcodeTable, r.matches cmd.word = true ∧
        ((r.mnemonic = "CLEAR_INTERRUPT_FLAG" ∨ r.mnemonic = "GET_INTERRUPT_FLAG") →
          (cmd.word.extractLsb' 4 3).toNat ≤ 4)) ∧
    ∀ i, decode cmd = .ok i → ∃ r ∈ opcodeTable, r.matches cmd.word = true ∧ r.mnemonic = i.mnemonic

/-- R95: no word matches two rows of the opcode table. -/
def Obligations.OpcodeRowsDisjoint : Prop :=
  opcodeTable.Pairwise fun r r' => ∀ w : Word, ¬ (r.matches w = true ∧ r'.matches w = true)

/-- 95_test_vectors.md V9 and V21: words written out from the formats R92 to R97 decode to their operations. -/
def Obligations.WrittenOutWordsDecode : Prop :=
  (∀ cfg, decode { word := 0b00000000000000000000000000000000#32, record := cfg } = .ok (.construct cfg)) ∧
  decode { word := 0b00000000000000000000000000000001#32 } = .ok .enable ∧
  decode { word := 0b00000000000000000000000000000010#32 } = .ok .disable ∧
  decode { word := 0b00000000000000000000000000010011#32 } = .ok (.setTargetMemory .buffer1) ∧
  decode { word := 0b00000000000000000000000101010100#32 } =
    .ok (.enableInterrupt { tc := true, te := true, fe := true }) ∧
  decode { word := 0b00000000000000000000000101000101#32 } = .ok (.disableInterrupt { te := true, fe := true }) ∧
  decode { word := 0b00000000000000000000000001000110#32 } = .ok (.clearInterruptFlag .fe) ∧
  decode { word := 0b00000000000000000000000000110111#32 } = .ok (.getInterruptFlag .dme) ∧
  decode { word := 0b00000000000000000000000000101000#32 } = .ok (.setFifoThreshold .threeQuarters) ∧
  decode { word := 0b00000000000000000000000000001001#32 } = .ok .getFifoStatus

/-- R113: a single-kind line has the command word of its singleton set. -/
def Obligations.SingleKindFormIsSingletonSet : Prop :=
  ∀ k : Kind,
    encode (assemble (.enableInterruptKind k)) = encode (assemble (.enableInterrupt [k])) ∧
    encode (assemble (.disableInterruptKind k)) = encode (assemble (.disableInterrupt [k]))

/-- R112, R99, 95_test_vectors.md P1: the assembler lines of the program P1 give its command words, and its `construct`
line the record with the defaults of the operands it leaves out. The order of the lines' operands is free (log 19). -/
def Obligations.AssemblerLinesOfP1 : Prop :=
  let wordOf := fun (text : List Char) => (assembleText text).map Command.word
  assembleText ("construct dir=M2P, psize=BYTE, msize=BYTE, pinc=0, minc=1, par=0x40004004, m0ar=0x20000000, " ++
    "count=128").toList =
    some {
      word := 0x00000000#32
      record := {
        dir := .m2p, psize := .byte, msize := .byte, pinc := false, minc := true, par := 0x40004004#32,
        m0ar := 0x20000000#32, m1ar := 0#32, count := 128#32, pl := .low, circ := false, pincos := .psizeLinked,
        dbm := false, trbuff := false, pfctrl := .dma, pburst := .single, mburst := .single } } ∧
  wordOf "set_fifo_threshold FULL".toList = some 0x00000038#32 ∧
  wordOf ("enable_interrupt ".toList ++ openBraceChar :: "TC, TE, FE".toList ++ [closeBraceChar]) =
    some 0x00000154#32 ∧
  wordOf "clear_interrupt_flag TC".toList = some 0x00000006#32 ∧
  wordOf "enable".toList = some 0x00000001#32 ∧
  wordOf "get_interrupt_flag TC".toList = some 0x00000007#32 ∧
  wordOf "get_fifo_status".toList = some 0x00000009#32 ∧
  wordOf "disable".toList = some 0x00000002#32

/-- R111, R233: every illegal or reserved word, taken as a context's next command by a turn of either grain, raises
`IllegalCommand` with the word recorded, before any other fault (nothing is assumed of the stream index or of
`constructed`). -/
def Obligations.IllegalWordRaisesIllegalCommand : Prop :=
  ∀ (s : State) (c : Nat) (cmd : Command) (turn : Turn) (rest : List Turn),
    (turn = .whole c ∨ turn = .txn c) → s.schedule = turn :: rest → TakesNext c cmd s → IllegalWord cmd.word →
    ∃ t, step s = .next t ∧
      Faults cmd (.illegalCommand cmd.word) { s with schedule := rest, issuer := c } t

/-! ## Running operations (20_memory.md R71 to R73, 10_state.md R21, R45) -/

/-- A STEP RUNS THE DECODED OPERATION: when context `c` has a whole turn, has nothing in flight and its next command
decodes to `i`, the step is `exec i` by that context; `exec` itself advances its `pc`. That one step runs a whole
operation is the model's whole turn (log 8, on the schedule of log 7): it stands for the consecutive transactions of R73,
where R72 makes each transaction a step (WholeOperationIsItsTransactions). -/
def Obligations.StepRunsDecodedCommand : Prop :=
  ∀ (s : State) (c : Nat) (cmd : Command) (i : Instr) (rest : List Turn),
    s.schedule = .whole c :: rest → TakesNext c cmd s → decode cmd = .ok i →
    step s = exec i { s with schedule := rest, issuer := c }

/-- R274, R244: no operation stops, suspends or waits: each answers a next state from every state. -/
def Obligations.EveryOperationCompletes : Prop :=
  ∀ (i : Instr) (s : State), ∃ t, exec i s = .next t

/-- R72, R73: an operation run whole, which is the model's grain of `exec` (log 8), is its bus transactions one step at
a time with no other agent's step inside it: from a context with nothing in flight, as many transaction turns as the
operation has transactions (one, if its checks raise a fault) end in exactly the state of `exec`. -/
def Obligations.WholeOperationIsItsTransactions : Prop :=
  ∀ (s : State) (c : Nat) (cmd : Command) (i : Instr),
    TakesNext c cmd s → decode cmd = .ok i →
    takeTurns
      (List.replicate
        (if (operationOf i { s with issuer := c }).fault.isSome then 1
         else (operationOf i { s with issuer := c }).txns.length)
        (.txn c)) s = exec i { s with issuer := c }

/-- R72, R73, R274: a whole turn of a context (the model's grain, log 8), whatever it has in flight, is one to five of
its transaction turns. -/
def Obligations.WholeTurnIsTransactionTurns : Prop :=
  ∀ (s : State) (c : Nat), ∃ n, 1 ≤ n ∧ n ≤ 5 ∧ takeTurns (List.replicate n (.txn c)) s = wholeTurn c s

/-- R63, R133, R150 to R152, R171, R172, R190, R193, R194, R210, R211: the bus transactions of each operation, in their
order, with the register and the word of each: CONSTRUCT's five writes, the read-modify-writes, the `FCR` access of the
mask operations before their `CR` access, the one write and the one read of the flag operations, the one read of the FIFO
status; so five for CONSTRUCT, four or two for the mask operations, two for a read-modify-write, else one (R274). The last
clause says what a read-modify-write writes, given the word read (R67 to R70). An operation whose checks raise a fault
performs none of its list (R232, FaultingOperationWritesNothing). So on a stream index of 8 or more, where R190 leaves
`locate` undefined and no operation performs a transaction (R234), the register and the bit in the two flag clauses are
the model's choice (log 23, DESIGN CHOICE), and no step uses them. -/
def Obligations.TransactionCounts : Prop :=
  (∀ s : State,
    (∀ cfg, (operationOf (.construct cfg) s).txns =
      [.write .cr (.put (encodeCR cfg)), .write .par (.put cfg.par), .write .m0ar (.put cfg.m0ar),
        .write .m1ar (.put cfg.m1ar), .write .ndtr (.put ((cfg.count.extractLsb' 0 16).setWidth 32))]) ∧
    (operationOf .enable s).txns = [.read .cr, .write .cr (.setMask 0x1#32)] ∧
    (operationOf .disable s).txns = [.read .cr, .write .cr (.clearMask 0x1#32)] ∧
    (∀ b, (operationOf (.setTargetMemory b) s).txns =
      [.read .cr, .write .cr (.change 0x80000#32 (if b = .buffer1 then 1#32 else 0#32) 19)]) ∧
    (∀ ks, (operationOf (.enableInterrupt ks) s).txns =
      if ks.fe then
        [.read .fcr, .write .fcr (.setMask 0x80#32), .read .cr, .write .cr (.setMask (crMask ks))]
      else [.read .cr, .write .cr (.setMask (crMask ks))]) ∧
    (∀ ks, (operationOf (.disableInterrupt ks) s).txns =
      if ks.fe then
        [.read .fcr, .write .fcr (.clearMask 0x80#32), .read .cr, .write .cr (.clearMask (crMask ks))]
      else [.read .cr, .write .cr (.clearMask (crMask ks))]) ∧
    (∀ k, (operationOf (.clearInterruptFlag k) s).txns =
      [.write (if s.params.streamIndex < 4 then .lifcr else .hifcr)
        (.put (1#32 <<< (5 * (s.params.streamIndex % 4) + flagBitOf s.params.flagBits k)))]) ∧
    (∀ k, (operationOf (.getInterruptFlag k) s).txns =
      [.read (if s.params.streamIndex < 4 then .lisr else .hisr)]) ∧
    (∀ lvl, (operationOf (.setFifoThreshold lvl) s).txns =
      [.read .fcr, .write .fcr (.change 0x3#32 (lvl.code.setWidth 32) 0)]) ∧
    (operationOf .getFifoStatus s).txns = [.read .fcr]) ∧
  (∀ (v : BusWord) (w mask value : Word) (shift : Nat),
    ((Update.put w).apply v).value = w ∧
    ((Update.setMask mask).apply v).value = v.value ||| mask ∧
    ((Update.clearMask mask).apply v).value = v.value &&& ~~~mask ∧
    ((Update.change mask value shift).apply v).value = (v.value &&& ~~~mask) ||| ((value <<< shift) &&& mask))

/-- R273: the machine stops as a finished run exactly when no turn is scheduled, nothing is in flight and every
context has run through its sequence. That an empty schedule lets the first unfinished context go on is the model's
choice (log 7). -/
def Obligations.RunEndsWhenAllContextsFinished : Prop :=
  ∀ s : State, step s = .fault .endOfRun ↔
    s.schedule = [] ∧ ∀ x ∈ s.contexts, x.inflight = none ∧ x.prog.length ≤ x.pc

/-! ## CONSTRUCT (40_construct.md) -/

/-- R131, R133 to R136: a CONSTRUCT on a mapped stream index with a valid record completes with `Unit`, whatever
`constructed` was. `CR` holds the record's codes at the positions of R24 with `EN`, `CT` and the four interrupt
enables 0; `PAR`, `M0AR`, `M1AR` and `NDT` hold the record's values; `FCR` and every flag are unchanged; the stream is
`Configured`; the hazard is recorded exactly when the stream was enabled or the engine active; no register was read. -/
def Obligations.ConstructCommitsTheRecord : Prop :=
  ∀ (cfg : Record) (s : State), s.params.streamIndex < 8 → ValidConfig cfg →
    ∃ t, exec (.construct cfg) s = .next t ∧
      CompletesWith .unit s t ∧ KeepsOutside s t ∧ t.draws = s.draws ∧
      t.constructed = true ∧ lifecycle t = .configured ∧ t.faultLog = s.faultLog ∧
      t.hazardLog = (if crEn s.regs.cr = true ∨ s.engineActive = true then
        s.hazardLog ++ [{ context := s.issuer, command := encode (.construct cfg), code := .reconfigureWhileActive }]
        else s.hazardLog) ∧
      t.regs = { s.regs with cr := t.regs.cr, ndt := t.regs.ndt, par := cfg.par, m0ar := cfg.m0ar, m1ar := cfg.m1ar } ∧
      t.regs.ndt.toNat = cfg.count.toNat ∧
      crEn t.regs.cr = false ∧ crCt t.regs.cr = false ∧
      crDmeie t.regs.cr = false ∧ crTeie t.regs.cr = false ∧ crHtie t.regs.cr = false ∧ crTcie t.regs.cr = false ∧
      crPfctrl t.regs.cr = cfg.pfctrl.code ∧ crDir t.regs.cr = cfg.dir.code ∧ crCirc t.regs.cr = cfg.circ ∧
      crPinc t.regs.cr = cfg.pinc ∧ crMinc t.regs.cr = cfg.minc ∧ crPsize t.regs.cr = cfg.psize.code ∧
      crMsize t.regs.cr = cfg.msize.code ∧ crPincos t.regs.cr = cfg.pincos.code ∧ crPl t.regs.cr = cfg.pl.code ∧
      crDbm t.regs.cr = cfg.dbm ∧ crTrbuff t.regs.cr = cfg.trbuff ∧ crPburst t.regs.cr = cfg.pburst.code ∧
      crMburst t.regs.cr = cfg.mburst.code

/-- R132, R236: on a mapped stream index CONSTRUCT raises `InvalidConfiguration` when a condition (a) to (e) of R132
holds, recording the first that holds in that order. For a reserved size code the spec defines no `bytes`: there a free
value of the model decides whether (b), (c) or (d) comes before (e) (log 22, DESIGN CHOICE). -/
def Obligations.InvalidConfigurationNamesFirstCondition : Prop :=
  ∀ (cfg : Record) (s : State) (cond : CfgCondition), s.params.streamIndex < 8 →
    CfgFails cfg cond → (∀ cond', cond'.order < cond.order → ¬ CfgFails cfg cond') →
    ∃ t, exec (.construct cfg) s = .next t ∧ Faults (encode (.construct cfg)) (.invalidConfiguration cond) s t

/-- R139: `encodeCR` never sets bit 0, bits 4:1, bit 19 or bits 31:25, and is injective on the fields it packs. -/
def Obligations.EncodeCrInjective : Prop :=
  (∀ cfg : Record, encodeCR cfg &&& 0xFE08001F#32 = 0#32) ∧
  ∀ cfg cfg' : Record, encodeCR cfg = encodeCR cfg' →
    cfg.pfctrl = cfg'.pfctrl ∧ cfg.dir = cfg'.dir ∧ cfg.circ = cfg'.circ ∧ cfg.pinc = cfg'.pinc ∧
    cfg.minc = cfg'.minc ∧ cfg.psize = cfg'.psize ∧ cfg.msize = cfg'.msize ∧ cfg.pincos = cfg'.pincos ∧
    cfg.pl = cfg'.pl ∧ cfg.dbm = cfg'.dbm ∧ cfg.trbuff = cfg'.trbuff ∧ cfg.pburst = cfg'.pburst ∧
    cfg.mburst = cfg'.mburst

/-! ## Stream control (41_stream_control.md) -/

/-- R150: ENABLE sets `EN`, returns `Unit` and changes nothing else. -/
def Obligations.EnableSetsEnOnly : Prop :=
  ∀ s : State, Ready s → ∃ t, exec .enable s = .next t ∧
    CompletesQuietly .unit s t ∧ lifecycle t = .enabled ∧
    t.regs = { s.regs with cr := t.regs.cr } ∧ crEn t.regs.cr = true ∧
    ∀ j, j ≠ 0 → t.regs.cr.getLsbD j = s.regs.cr.getLsbD j

/-- R151: DISABLE clears `EN`, returns `Unit` and changes nothing else; the engine's activity is untouched (R154). -/
def Obligations.DisableClearsEnOnly : Prop :=
  ∀ s : State, Ready s → ∃ t, exec .disable s = .next t ∧
    CompletesQuietly .unit s t ∧ lifecycle t = .configured ∧
    t.regs = { s.regs with cr := t.regs.cr } ∧ crEn t.regs.cr = false ∧
    ∀ j, j ≠ 0 → t.regs.cr.getLsbD j = s.regs.cr.getLsbD j

/-- R152, R156, R240: SET_TARGET_MEMORY writes `CT` as its operand says, whatever `DBM` is (the spec's decision D33), with
no fault and no hazard, and changes nothing else. -/
def Obligations.SetTargetMemoryWritesCtOnly : Prop :=
  ∀ (b : Buffer) (s : State), Ready s → ∃ t, exec (.setTargetMemory b) s = .next t ∧
    CompletesQuietly .unit s t ∧ lifecycle t = lifecycle s ∧
    t.regs = { s.regs with cr := t.regs.cr } ∧ crCt t.regs.cr = decide (b = .buffer1) ∧
    ∀ j, j ≠ 19 → t.regs.cr.getLsbD j = s.regs.cr.getLsbD j

/-- R155: CONSTRUCT, ENABLE, DISABLE run whole leave the defined fields of `CR` equal to those of `encodeCR`. -/
def Obligations.EnableThenDisableRestoresCr : Prop :=
  ∀ (cfg : Record) (s : State), s.params.streamIndex < 8 → ValidConfig cfg →
    ∃ t, execAll [.construct cfg, .enable, .disable] s = .next t ∧ t.regs.cr = (encodeCR cfg).setWidth 25

/-- R269, V17: a change of `CR` by the engine, by foreign software or by another context that falls between ENABLE's read
and its write is overwritten with the value read, bit by bit. -/
def Obligations.EnableLosesConcurrentCrChange : Prop :=
  ∀ (s : State) (c : Nat) (cmd : Command) (ts : List Turn) (u : State), Ready s →
    TakesNext c cmd s → decode cmd = .ok .enable → noTurnOf c ts = true →
    takeTurns (.txn c :: ts) s = .next u →
    ∃ t, takeTurn (.txn c) u = .next t ∧ t.regs = { u.regs with cr := t.regs.cr } ∧ crEn t.regs.cr = true ∧
      ∀ j, j ≠ 0 → t.regs.cr.getLsbD j = s.regs.cr.getLsbD j

/-! ## Interrupt mask (42_interrupt_mask.md) -/

/-- R171: ENABLE_INTERRUPT enables exactly the kinds of its set and changes no flag, no other field of `CR` and no
other field of `FCR`. -/
def Obligations.EnableInterruptSetsExactlyItsKinds : Prop :=
  ∀ (ks : KindSet) (s : State), Ready s → ∃ t, exec (.enableInterrupt ks) s = .next t ∧
    CompletesQuietly .unit s t ∧
    t.regs = { s.regs with cr := t.regs.cr, fcr := { s.regs.fcr with feie := t.regs.fcr.feie } } ∧
    (∀ k, enabledOf t.regs k = (enabledOf s.regs k || ks.has k)) ∧
    ∀ j, (j = 0 ∨ 4 < j) → t.regs.cr.getLsbD j = s.regs.cr.getLsbD j

/-- R172: DISABLE_INTERRUPT disables exactly the kinds of its set and changes no flag, no other field of `CR` and no
other field of `FCR`. -/
def Obligations.DisableInterruptClearsExactlyItsKinds : Prop :=
  ∀ (ks : KindSet) (s : State), Ready s → ∃ t, exec (.disableInterrupt ks) s = .next t ∧
    CompletesQuietly .unit s t ∧
    t.regs = { s.regs with cr := t.regs.cr, fcr := { s.regs.fcr with feie := t.regs.fcr.feie } } ∧
    (∀ k, enabledOf t.regs k = (enabledOf s.regs k && !ks.has k)) ∧
    ∀ j, (j = 0 ∨ 4 < j) → t.regs.cr.getLsbD j = s.regs.cr.getLsbD j

/-- R173: enabling a set leaves the registers as enabling its members one by one does, in any order and with any
repetition; likewise disabling. -/
def Obligations.SetFormEqualsMemberForms : Prop :=
  ∀ (ks : KindSet) (members : List Kind) (s : State), Ready s → (∀ k, k ∈ members ↔ ks.has k = true) →
    (∃ t u, exec (.enableInterrupt ks) s = .next t ∧
      execAll (members.map fun k => .enableInterrupt (KindSet.single k)) s = .next u ∧ t.regs = u.regs) ∧
    (∃ t u, exec (.disableInterrupt ks) s = .next t ∧
      execAll (members.map fun k => .disableInterrupt (KindSet.single k)) s = .next u ∧ t.regs = u.regs)

/-- R269, 95_test_vectors.md P3: context `a` enabling a set of kinds against context `b` disabling one, neither with FE,
in all six orders of their four transactions: an order that interleaves the two loses the update of the context that
writes first. -/
def Obligations.InterleavedMaskUpdatesLoseOne : Prop :=
  ∀ (s : State) (a b : Nat) (ca cb : Command) (ka kb : KindSet), Ready s → a ≠ b →
    TakesNext a ca s → TakesNext b cb s →
    decode ca = .ok (.enableInterrupt ka) → decode cb = .ok (.disableInterrupt kb) → ka.fe = false → kb.fe = false →
    let ends := fun (order : List Nat) (cr : BitVec 25) =>
      ∃ t, takeTurns (order.map Turn.txn) s = .next t ∧ t.regs = { s.regs with cr := cr }
    let ma := (crMask ka).setWidth 25
    let mb := (crMask kb).setWidth 25
    ends [a, a, b, b] ((s.regs.cr ||| ma) &&& ~~~mb) ∧
    ends [b, b, a, a] ((s.regs.cr &&& ~~~mb) ||| ma) ∧
    ends [a, b, b, a] (s.regs.cr ||| ma) ∧
    ends [b, a, b, a] (s.regs.cr ||| ma) ∧
    ends [b, a, a, b] (s.regs.cr &&& ~~~mb) ∧
    ends [a, b, a, b] (s.regs.cr &&& ~~~mb)

/-- R73, P3: of those six orders `exclusive` admits the two that run one operation after the other, and they lose no
update. -/
def Obligations.ExclusiveMaskUpdatesLoseNone : Prop :=
  ∀ (s : State) (a b : Nat) (ca cb : Command) (ka kb : KindSet) (order : List Nat), Ready s → a ≠ b →
    TakesNext a ca s → TakesNext b cb s →
    decode ca = .ok (.enableInterrupt ka) → decode cb = .ok (.disableInterrupt kb) → ka.fe = false → kb.fe = false →
    order ∈ [[a, a, b, b], [b, b, a, a], [a, b, b, a], [b, a, b, a], [b, a, a, b], [a, b, a, b]] →
    exclusive (order.map Turn.txn) s = true →
    ∃ t, takeTurns (order.map Turn.txn) s = .next t ∧
      t.regs = { s.regs with cr := t.regs.cr } ∧
      (order = [a, a, b, b] ∧ t.regs.cr = (s.regs.cr ||| (crMask ka).setWidth 25) &&& ~~~(crMask kb).setWidth 25 ∨
        order = [b, b, a, a] ∧ t.regs.cr = (s.regs.cr &&& ~~~(crMask kb).setWidth 25) ||| (crMask ka).setWidth 25) ∧
      ∀ k, (ka.has k = true → kb.has k = false → enabledOf t.regs k = true) ∧
        (kb.has k = true → ka.has k = false → enabledOf t.regs k = false) ∧
        (ka.has k = false → kb.has k = false → enabledOf t.regs k = enabledOf s.regs k)

/-- R241, R242: on a mapped stream `irq` (the spec's non-normative observation, log 20) is true exactly when some kind is
both pending and enabled; so disabling all five kinds makes it false, whatever is pending, and leaves every flag as it
is. -/
def Obligations.DisablingAllKindsSilencesIrq : Prop :=
  (∀ s : State, s.params.streamIndex < 8 →
    (irq s = true ↔ ∃ k,
      (if s.params.streamIndex < 4 then s.regs.lisr else s.regs.hisr).getLsbD
        (5 * (s.params.streamIndex % 4) + flagBitOf s.params.flagBits k) = true ∧ enabledOf s.regs k = true)) ∧
  ∀ s : State, Ready s → ∃ t,
    exec (.disableInterrupt { tc := true, ht := true, te := true, dme := true, fe := true }) s = .next t ∧
    irq t = false ∧ t.regs.lisr = s.regs.lisr ∧ t.regs.hisr = s.regs.hisr

/-! ## Interrupt flags (43_interrupt_flags.md) -/

/-- R190: the table of `locate`. -/
def Obligations.LocateTable : Prop :=
  [0, 1, 2, 3, 4, 5, 6, 7].map locate =
    [(.low, 0), (.low, 5), (.low, 10), (.low, 15), (.high, 0), (.high, 5), (.high, 10), (.high, 15)] ∧
  statusReg .low = .lisr ∧ statusReg .high = .hisr ∧ clearRegOf .low = .lifcr ∧ clearRegOf .high = .hifcr

/-- R192: for every injective `FLAG_BIT`, (stream, kind) pairs and (register, bit) pairs with bits 0..19 correspond
one to one, and the stream of a bit is `4 * [sel = HIGH] + (j div 5)`, its kind the one whose `FLAG_BIT` is `j mod 5`. -/
def Obligations.IndexerIsBijection : Prop :=
  ∀ f : FlagBits, f.wf = true →
    (∀ i k, i < 8 → flagBit f i k < 20) ∧
    (∀ i i' k k', i < 8 → i' < 8 → (locate i).1 = (locate i').1 → flagBit f i k = flagBit f i' k' →
      i = i' ∧ k = k') ∧
    (∀ (sel : RegSel) (j : Nat), j < 20 →
      ∃ i k, i = (if sel = .high then 4 else 0) + j / 5 ∧ i < 8 ∧ (locate i).1 = sel ∧ flagBit f i k = j ∧
        flagBitOf f k = j % 5)

/-- R193, R75: CLEAR_INTERRUPT_FLAG clears the one flag of this stream and kind and leaves every other flag bit of
both shared registers and everything else as it was. -/
def Obligations.ClearFlagClearsOneFlag : Prop :=
  ∀ (k : Kind) (s : State), Ready s → ∃ t, exec (.clearInterruptFlag k) s = .next t ∧
    CompletesQuietly .unit s t ∧
    t.regs = { s.regs with lisr := t.regs.lisr, hisr := t.regs.hisr } ∧
    (∀ j, t.regs.lisr.getLsbD j =
      (s.regs.lisr.getLsbD j &&
        !(decide (s.params.streamIndex < 4) && decide (j = flagBit s.params.flagBits s.params.streamIndex k)))) ∧
    (∀ j, t.regs.hisr.getLsbD j =
      (s.regs.hisr.getLsbD j &&
        !(decide (4 ≤ s.params.streamIndex) && decide (j = flagBit s.params.flagBits s.params.streamIndex k)))) ∧
    (s.params.flagBits.wf = true → ∀ i k', i < 8 →
      flagOf s.params t.regs i k' =
        (flagOf s.params s.regs i k' && !(decide (i = s.params.streamIndex) && decide (k' = k))))

/-- R194: GET_INTERRUPT_FLAG returns the flag of this stream and kind, enabled or not, and changes no register. -/
def Obligations.GetFlagReturnsTheFlag : Prop :=
  ∀ (k : Kind) (s : State), Ready s → ∃ t, exec (.getInterruptFlag k) s = .next t ∧
    CompletesQuietly (.flag (flagOf s.params s.regs s.params.streamIndex k)) s t ∧ t.regs = s.regs

/-- R195: after CLEAR_INTERRUPT_FLAG(k), if no engine move asserts this stream's flag `k`, GET_INTERRUPT_FLAG(k)
returns `Flag(false)`, whatever any agent does in between. -/
def Obligations.ClearThenGetReadsFalse : Prop :=
  ∀ (k : Kind) (s t u : State) (ts : List Turn), Ready s → s.params.flagBits.wf = true →
    exec (.clearInterruptFlag k) s = .next t →
    (∀ i : Fin 8, i.val = s.params.streamIndex → Turn.engine (.assertFlag i k) ∉ ts) →
    takeTurns ts t = .next u →
    ∃ v, exec (.getInterruptFlag k) u = .next v ∧ CompletesWith (.flag false) u v

/-! ## FIFO (44_fifo.md) -/

/-- R210: SET_FIFO_THRESHOLD writes `FTH` and changes nothing else. -/
def Obligations.SetFifoThresholdWritesFthOnly : Prop :=
  ∀ (lvl : FifoLevel) (s : State), Ready s → ∃ t, exec (.setFifoThreshold lvl) s = .next t ∧
    CompletesQuietly .unit s t ∧ t.regs = { s.regs with fcr := { s.regs.fcr with fth := lvl.code } }

/-- R214: in an exclusive run, after SET_FIFO_THRESHOLD(t), run whole or as its two transactions with other agents' steps
between them, and after any engine moves and foreign accesses that follow, `FTH` and bits 1:0 of a read of `FCR` are the
code of t. -/
def Obligations.ThresholdReadsBack : Prop :=
  ∀ (lvl : FifoLevel) (s : State) (after : List Turn) (u : State), Ready s → noContextTurn after = true →
    (∃ t, exec (.setFifoThreshold lvl) s = .next t ∧ exclusive after t = true ∧ takeTurns after t = .next u) ∨
    (∃ c cmd between, TakesNext c cmd s ∧ decode cmd = .ok (.setFifoThreshold lvl) ∧ noTurnOf c between = true ∧
      exclusive (.txn c :: between ++ .txn c :: after) s = true ∧
      takeTurns (.txn c :: between ++ .txn c :: after) s = .next u) →
    u.regs.fcr.fth = lvl.code ∧ (memReadWord .fcr u).value.extractLsb' 0 2 = lvl.code

/-- R108, R211, R212: GET_FIFO_STATUS returns the document's status for each of the six codes and changes no
register. -/
def Obligations.GetFifoStatusDecodesSixCodes : Prop :=
  ∀ (s : State) (fs : BitVec 3) (st : FifoStatus), Ready s →
    (fs, st) ∈ [(0b000#3, FifoStatus.quarter), (0b001#3, .half), (0b010#3, .threeQuarter), (0b011#3, .almostFull),
      (0b100#3, .empty), (0b101#3, .full)] →
    s.regs.fcr.fs = fs →
    ∃ t, exec .getFifoStatus s = .next t ∧ CompletesQuietly (.fifo st) s t ∧ t.regs = s.regs

/-- R212, R237: on the codes 0b110 and 0b111 GET_FIFO_STATUS raises `UnmappedFifoStatus` with the code recorded. -/
def Obligations.UndocumentedFifoCodeFaults : Prop :=
  ∀ s : State, Ready s → (s.regs.fcr.fs = 0b110#3 ∨ s.regs.fcr.fs = 0b111#3) →
    ∃ t, exec .getFifoStatus s = .next t ∧
      Faults (encode .getFifoStatus) (.unmappedFifoStatus s.regs.fcr.fs) s t

/-! ## Faults (60_exceptions.md) -/

/-- R234: every operation raises `UnmappedStreamIndex` when the stream index is 8 or more, recording the index. -/
def Obligations.UnmappedStreamIndexFaultsEveryOperation : Prop :=
  ∀ (i : Instr) (s : State), 8 ≤ s.params.streamIndex →
    ∃ t, exec i s = .next t ∧ Faults (encode i) (.unmappedStreamIndex s.params.streamIndex) s t

/-- R235: before construction every operation but CONSTRUCT raises `NotConstructed` on a mapped stream index (on an
unmapped one R238 puts `UnmappedStreamIndex` first). -/
def Obligations.NotConstructedFaultsOtherOperations : Prop :=
  ∀ (i : Instr) (s : State), isConstruct i = false → s.constructed = false →
    ∃ t, exec i s = .next t ∧
      Faults (encode i)
        (if s.params.streamIndex < 8 then .notConstructed else .unmappedStreamIndex s.params.streamIndex) s t

/-- R232: an operation whose result is a fault has written no register and is one single step (`startOp` is the state
after its first transaction turn). Unless the fault is `UnmappedFifoStatus` it has performed no transaction, so that not
even a draw was taken; that fault comes after GET_FIFO_STATUS's one read. A command that decodes to no operation
likewise writes and reads nothing. -/
def Obligations.FaultingOperationWritesNothing : Prop :=
  (∀ (i : Instr) (s t : State) (code : FaultCode), s.issuer < s.contexts.length →
    exec i s = .next t → CompletesWith (.fault code) s t →
    t.regs = s.regs ∧ startOp i s = t ∧
    ((∀ fs, code ≠ .unmappedFifoStatus fs) → t.draws = s.draws) ∧
    ((∃ fs, code = .unmappedFifoStatus fs) → i = .getFifoStatus ∧ t.draws = s.draws + 1)) ∧
  ∀ (s t : State) (c : Nat) (cmd : Command) (e : DecodeError) (turn : Turn), (turn = .whole c ∨ turn = .txn c) →
    TakesNext c cmd s → decode cmd = .error e → takeTurn turn s = .next t →
    t.regs = s.regs ∧ t.draws = s.draws

/-- R231: the fault results of each context are its entries of `faultLog`, in order: every step keeps this. -/
def Obligations.StepKeepsFaultLogMatchingResults : Prop :=
  ∀ s t : State, FaultLogMatchesResults s → step s = .next t → FaultLogMatchesResults t

/-- R43, R44: no step removes an entry of `faultLog` or `hazardLog`; so a run that went right (R231, R239) went
right at every step. -/
def Obligations.LogsAreAppendOnly : Prop :=
  ∀ s t : State, step s = .next t →
    s.faultLog <+: t.faultLog ∧ s.hazardLog <+: t.hazardLog ∧ (ranRight t = true → ranRight s = true)

/-! ## The engine, foreign accesses and the registers (10_state.md, 20_memory.md) -/

/-- R81 to R86: the effect and the condition of every engine move; where the condition fails there is no such step
(log 9). -/
def Obligations.EngineMoveEffects : Prop :=
  ∀ s : State,
    (∀ (i : Fin 8) (k : Kind), ∃ t, takeTurn (.engine (.assertFlag i k)) s = .next t ∧
      t = { s with regs := { s.regs with lisr := t.regs.lisr, hisr := t.regs.hisr } } ∧
      (∀ j, j < 20 → t.regs.lisr.getLsbD j =
        (s.regs.lisr.getLsbD j || (decide (i.val < 4) && decide (j = flagBit s.params.flagBits i.val k)))) ∧
      (∀ j, j < 20 → t.regs.hisr.getLsbD j =
        (s.regs.hisr.getLsbD j || (decide (4 ≤ i.val) && decide (j = flagBit s.params.flagBits i.val k))))) ∧
    (∀ fs, takeTurn (.engine (.setFs fs)) s =
      .next { s with regs := { s.regs with fcr := { s.regs.fcr with fs := fs } } }) ∧
    (∀ n, takeTurn (.engine (.setNdt n)) s =
      if s.engineActive = true then .next { s with regs := { s.regs with ndt := n } }
      else .fault (.moveNotEnabled (.setNdt n))) ∧
    (if s.params.hwMayClearEn = true ∧ crEn s.regs.cr = true then
      ∃ t, takeTurn (.engine .clearEn) s = .next t ∧ t = { s with regs := { s.regs with cr := t.regs.cr } } ∧
        crEn t.regs.cr = false ∧ ∀ j, j ≠ 0 → t.regs.cr.getLsbD j = s.regs.cr.getLsbD j
      else takeTurn (.engine .clearEn) s = .fault (.moveNotEnabled .clearEn)) ∧
    (if crDbm s.regs.cr = true ∧ s.engineActive = true then
      ∃ t, takeTurn (.engine .switchCt) s = .next t ∧ t = { s with regs := { s.regs with cr := t.regs.cr } } ∧
        crCt t.regs.cr = !crCt s.regs.cr ∧ ∀ j, j ≠ 19 → t.regs.cr.getLsbD j = s.regs.cr.getLsbD j
      else takeTurn (.engine .switchCt) s = .fault (.moveNotEnabled .switchCt)) ∧
    takeTurn (.engine .sample) s =
      if crEn s.regs.cr = s.engineActive then .fault (.moveNotEnabled .sample)
      else .next { s with engineActive := crEn s.regs.cr }

/-- R87, R27: no engine move changes `PAR`, `M0AR`, `M1AR`, `FTH`, `FCR2`, `FEIE`, a `CR` bit other than `EN` and `CT`,
clears a flag, or touches the encoder's latches, logs and contexts. -/
def Obligations.EngineChangesNothingElse : Prop :=
  ∀ (m : EngineMove) (s t : State), takeTurn (.engine m) s = .next t →
    t.regs.par = s.regs.par ∧ t.regs.m0ar = s.regs.m0ar ∧ t.regs.m1ar = s.regs.m1ar ∧
    t.regs.fcr = { s.regs.fcr with fs := t.regs.fcr.fs } ∧
    (∀ j, j ≠ 0 → j ≠ 19 → t.regs.cr.getLsbD j = s.regs.cr.getLsbD j) ∧
    (crEn t.regs.cr = true → crEn s.regs.cr = true) ∧
    (∀ j, s.regs.lisr.getLsbD j = true → t.regs.lisr.getLsbD j = true) ∧
    (∀ j, s.regs.hisr.getLsbD j = true → t.regs.hisr.getLsbD j = true) ∧
    t = { s with regs := t.regs, engineActive := t.engineActive }

/-- R25, R28 to R31, R33, R35, R37, R74: what a foreign write of any value changes, register by register. -/
def Obligations.ForeignWriteFollowsWriteRule : Prop :=
  ∀ (s : State) (v : Word),
    let after := fun r => takeTurn (.foreign (.write r v)) s
    let withRegs := fun g => Host.Outcome.next (φ := Fault) (ρ := Refusal) { s with regs := g }
    after .cr = withRegs { s.regs with cr := v.extractLsb' 0 25 } ∧
    after .ndtr = withRegs { s.regs with ndt := v.extractLsb' 0 16 } ∧
    after .par = withRegs { s.regs with par := v } ∧
    after .m0ar = withRegs { s.regs with m0ar := v } ∧
    after .m1ar = withRegs { s.regs with m1ar := v } ∧
    after .fcr = withRegs { s.regs with
      fcr := { fth := v.extractLsb' 0 2, fcr2 := v.getLsbD 2, fs := s.regs.fcr.fs, feie := v.getLsbD 7 } } ∧
    after .lisr = withRegs s.regs ∧
    after .hisr = withRegs s.regs ∧
    (∃ flags, after .lifcr = withRegs { s.regs with lisr := flags } ∧
      ∀ j, j < 20 → flags.getLsbD j = (s.regs.lisr.getLsbD j && !v.getLsbD j)) ∧
    (∃ flags, after .hifcr = withRegs { s.regs with hisr := flags } ∧
      ∀ j, j < 20 → flags.getLsbD j = (s.regs.hisr.getLsbD j && !v.getLsbD j))

/-- R26, R28 to R31, R34 to R37: what the bus carries when a register is read: the stored fields, and on every other
bit the draw of this read. A read changes no state but the number of the next draw (log 5). -/
def Obligations.ReadFollowsReadRule : Prop :=
  ∀ (s : State),
    let word := fun r => (memReadWord r s).value
    let drawn := (Config.freeDraw s.draws)
    (∀ j, j < 32 → (word .cr).getLsbD j = if j < 25 then s.regs.cr.getLsbD j else drawn.getLsbD j) ∧
    (∀ j, j < 32 → (word .ndtr).getLsbD j = if j < 16 then s.regs.ndt.getLsbD j else drawn.getLsbD j) ∧
    word .par = s.regs.par ∧ word .m0ar = s.regs.m0ar ∧ word .m1ar = s.regs.m1ar ∧
    (word .fcr).extractLsb' 0 2 = s.regs.fcr.fth ∧ (word .fcr).getLsbD 2 = s.regs.fcr.fcr2 ∧
    (word .fcr).extractLsb' 3 3 = s.regs.fcr.fs ∧ (word .fcr).getLsbD 7 = s.regs.fcr.feie ∧
    (∀ j, (j = 6 ∨ 8 ≤ j) → j < 32 → (word .fcr).getLsbD j = drawn.getLsbD j) ∧
    (∀ j, j < 32 → (word .lisr).getLsbD j = if j < 20 then s.regs.lisr.getLsbD j else drawn.getLsbD j) ∧
    (∀ j, j < 32 → (word .hisr).getLsbD j = if j < 20 then s.regs.hisr.getLsbD j else drawn.getLsbD j) ∧
    word .lifcr = drawn ∧ word .hifcr = drawn ∧
    ∀ r, takeTurn (.foreign (.read r)) s = .next { s with draws := s.draws + 1 }

/-- R60, R65: under a well-formed memory map each register is the one that stands at its address, a multiple of 4,
and its four bytes follow it with bit 0 in the byte at the lowest address. -/
def Obligations.RegisterAddressesAreInjective : Prop :=
  ∀ (p : Params) (g : Regs) (r : Reg), p.wf = true →
    regAt p (regAddr p r) = some r ∧ (regAddr p r).toNat % 4 = 0 ∧
    ∀ n, n < 4 → ∃ known drawn, byteAt p g ((regAddr p r).toNat + n) = some (known, drawn) ∧
      ∀ j, j < 8 → known.getLsbD j = (readRule r g).1.getLsbD (8 * n + j) ∧
        drawn.getLsbD j = (readRule r g).2.getLsbD (8 * n + j)

/-- D17 (R26, R34, R36): no operation's outcome depends on a draw: runs that differ only in the draws taken give the
same registers, results, logs and latches. -/
def Obligations.DrawsNeverReachTheOutcome : Prop :=
  ∀ (i : Instr) (s t : State) (n : Nat), exec i s = .next t →
    ∃ m, exec i { s with draws := n } = .next { t with draws := m }

/-! ## Whole-machine rules -/

/-- R73, R38, R42, R34: a quiet run, of any contexts and any foreign software, sets no flag and changes neither `FS`
nor the engine's activity. -/
def Obligations.QuietRunsLeaveEngineStateAlone : Prop :=
  ∀ (ts : List Turn) (s t : State), quiet ts = true → takeTurns ts s = .next t →
    t.engineActive = s.engineActive ∧ t.regs.fcr.fs = s.regs.fcr.fs ∧
    (∀ j, t.regs.lisr.getLsbD j = true → s.regs.lisr.getLsbD j = true) ∧
    (∀ j, t.regs.hisr.getLsbD j = true → s.regs.hisr.getLsbD j = true)

/-- R38: a step sets a flag bit only by the engine's move for that bit, and clears one only by a write of 1 to the
matching clear-register bit: CLEAR_INTERRUPT_FLAG of this stream, or a foreign write. -/
def Obligations.FlagsSetByEngineClearedByWrite : Prop :=
  ∀ (s t : State) (sel : RegSel) (j : Nat), step s = .next t →
    let flags := fun (g : Regs) => match sel with
      | .low => g.lisr
      | .high => g.hisr
    ((flags s.regs).getLsbD j = false → (flags t.regs).getLsbD j = true →
      ∃ (i : Fin 8) (k : Kind), turnOf s = some (.engine (.assertFlag i k)) ∧ (locate i.val).1 = sel ∧
        j = flagBit s.params.flagBits i.val k) ∧
    ((flags s.regs).getLsbD j = true → (flags t.regs).getLsbD j = false →
      (∃ k, steppingInstr s = some (.clearInterruptFlag k) ∧ (locate s.params.streamIndex).1 = sel ∧
        j = flagBit s.params.flagBits s.params.streamIndex k) ∨
      (∃ v, turnOf s = some (.foreign (.write (clearRegOf sel) v)) ∧ v.getLsbD j = true))

/-- R40: no step clears `constructed`, and only a context's CONSTRUCT sets it. -/
def Obligations.ConstructedIsSetOnlyByConstruct : Prop :=
  ∀ s t : State, step s = .next t →
    (s.constructed = true → t.constructed = true) ∧
    (s.constructed = false → t.constructed = true → ∃ cfg, steppingInstr s = some (.construct cfg))

/-- R42, R86: `engineActive` changes only by the engine's sampling of `EN`, to the value of `EN`. -/
def Obligations.EngineActivityFollowsSamples : Prop :=
  ∀ s t : State, step s = .next t → t.engineActive ≠ s.engineActive →
    turnOf s = some (.engine .sample) ∧ t.engineActive = crEn s.regs.cr

/-- R28 to R31: `PAR`, `M0AR` and `M1AR` change only in a CONSTRUCT or by a foreign write of the register; `NDT`
besides those only by the engine's count move. -/
def Obligations.AddressesChangeOnlyByConstructOrForeignWrite : Prop :=
  ∀ s t : State, step s = .next t →
    let byConstruct := ∃ cfg, steppingInstr s = some (.construct cfg)
    let byForeign := fun r => ∃ v, turnOf s = some (.foreign (.write r v))
    (t.regs.par ≠ s.regs.par → byConstruct ∨ byForeign .par) ∧
    (t.regs.m0ar ≠ s.regs.m0ar → byConstruct ∨ byForeign .m0ar) ∧
    (t.regs.m1ar ≠ s.regs.m1ar → byConstruct ∨ byForeign .m1ar) ∧
    (t.regs.ndt ≠ s.regs.ndt → byConstruct ∨ byForeign .ndtr ∨ ∃ n, turnOf s = some (.engine (.setNdt n)))

/-- R265, R46: no step changes the Stream Identity or any other parameter of the block. `NCTX`, a parameter of R46, is the
length of the context list in this model (log 1, DESIGN CHOICE), and no step changes that either. -/
def Obligations.IdentityNeverChanges : Prop :=
  ∀ s t : State, step s = .next t → t.params = s.params ∧ t.contexts.length = s.contexts.length

/-- THE INVARIANT: every step from a well-formed state leads to a well-formed state: one result per completed command
(R21, R45), no context past its sequence, every operation in flight the one its context's command stands for, between
its first and last transaction and past its checks (R234, R235), and logs that name existing contexts. -/
def Obligations.StepKeepsStateWellFormed : Prop :=
  ∀ s t : State, s.wf = true → step s = .next t → t.wf = true

/-- R266: that no operation but CONSTRUCT has succeeded before the first CONSTRUCT is kept by every step. -/
def Obligations.StepKeepsOnlyFaultsBeforeConstruct : Prop :=
  ∀ s t : State, OnlyFaultsBeforeConstruct s → step s = .next t → OnlyFaultsBeforeConstruct t

/-! ## Reset (70_reset_and_hazards.md) -/

/-- R47, R260: whatever the parameters, the registers and the command sequences, a run starts with the encoder's own
state at these values, and so does a new stream block created over existing registers, whose registers stay. That both
starts are states and no steps, and that the contexts of a new block keep their command sequences, is the model's choice
(log 18, DESIGN CHOICE). -/
def Obligations.ResetClearsEncoderState : Prop :=
  (∀ (p : Params) (g : Regs) (progs : List (List Command)),
    let s := State.resetWith p g progs
    s.constructed = false ∧ s.engineActive = false ∧ s.faultLog = [] ∧ s.hazardLog = [] ∧ s.regs = g ∧
    lifecycle s = .unconstructed ∧ s.contexts.map Context.prog = progs ∧
    ∀ x ∈ s.contexts, x.pc = 0 ∧ x.inflight = none ∧ x.results = []) ∧
  ∀ s : State,
    let t := s.recreate
    t.constructed = false ∧ t.engineActive = false ∧ t.faultLog = [] ∧ t.hazardLog = [] ∧ t.regs = s.regs ∧
    t.params = s.params ∧ t.contexts.map Context.prog = s.contexts.map Context.prog ∧
    ∀ x ∈ t.contexts, x.pc = 0 ∧ x.inflight = none ∧ x.results = []

/-- R47, R260, R261: the invariants hold at the start of every run: for all well-formed parameters, all register contents
and all command sequences of at least one context, and for a new stream block created over a block whose parameters are
well-formed. So they hold at State.reset, whose parameters are the model's choice (log 2). -/
def Obligations.ResetMeetsTheInvariants : Prop :=
  (∀ (p : Params) (g : Regs) (progs : List (List Command)), p.wf = true → progs ≠ [] →
    let s := State.resetWith p g progs
    s.wf = true ∧ FaultLogMatchesResults s ∧ OnlyFaultsBeforeConstruct s) ∧
  (∀ s : State, s.params.wf = true → s.contexts ≠ [] →
    s.recreate.wf = true ∧ FaultLogMatchesResults s.recreate ∧ OnlyFaultsBeforeConstruct s.recreate) ∧
  State.reset.wf = true ∧ FaultLogMatchesResults State.reset ∧ OnlyFaultsBeforeConstruct State.reset

/-! ## Steps inside an operation -/

/-- R133, R135, R136, R40, R72: what each step of a CONSTRUCT does, whatever other agents did before it. The first one
makes the checks, records the hazard and writes `CR`; the next four write `PAR`, `M0AR`, `M1AR` and `NDTR`, check nothing
and record nothing; `constructed` becomes true, and the command completes with `Unit`, in the step of the last write and
in no earlier one. Each step writes its one register and changes nothing else of the block. -/
def Obligations.ConstructStepByStep : Prop :=
  (∀ (cfg : Record) (s : State) (c : Nat) (cmd : Command), s.params.streamIndex < 8 → ValidConfig cfg →
    TakesNext c cmd s → decode cmd = .ok (.construct cfg) →
    ∃ t, takeTurn (.txn c) s = .next t ∧
      t = { s with regs := t.regs, hazardLog := t.hazardLog, contexts := t.contexts, issuer := c } ∧
      t.regs = { s.regs with cr := (encodeCR cfg).setWidth 25 } ∧
      t.hazardLog = (if crEn s.regs.cr = true ∨ s.engineActive = true then
        s.hazardLog ++ [{ context := c, command := encode (.construct cfg), code := .reconfigureWhileActive }]
        else s.hazardLog) ∧
      (∃ v, t.contexts[c]? = (s.contexts[c]?).map fun x =>
        { x with inflight := some { instr := .construct cfg, index := 1, v := v } }) ∧
      ∀ d, d ≠ c → t.contexts[d]? = s.contexts[d]?) ∧
  ∀ (cfg : Record) (s : State) (c k : Nat) (x : Context) (v : BusWord), s.contexts[c]? = some x →
    x.inflight = some { instr := .construct cfg, index := k, v := v } → 1 ≤ k → k ≤ 4 →
    ∃ t, takeTurn (.txn c) s = .next t ∧
      t = { s with regs := t.regs, constructed := t.constructed, contexts := t.contexts, issuer := c } ∧
      (k = 1 → t.regs = { s.regs with par := cfg.par }) ∧
      (k = 2 → t.regs = { s.regs with m0ar := cfg.m0ar }) ∧
      (k = 3 → t.regs = { s.regs with m1ar := cfg.m1ar }) ∧
      (k = 4 → t.regs = { s.regs with ndt := cfg.count.extractLsb' 0 16 }) ∧
      t.constructed = (s.constructed || decide (k = 4)) ∧
      t.contexts[c]? = some (if k = 4 then
          { x with pc := x.pc + 1, inflight := none, results := x.results ++ [.unit] }
        else { x with inflight := some { instr := .construct cfg, index := k + 1, v := v } }) ∧
      ∀ d, d ≠ c → t.contexts[d]? = s.contexts[d]?

/-- R269: each of the six read-modify-write operations overwrites a change made to its register between its read and its
write, by the engine, by foreign software or by another context, with the value read. Where a mask operation has FE in its
set, its `FCR` access is the transactions 0 and 1 and its `CR` access 2 and 3. -/
def Obligations.ReadModifyWriteLosesConcurrentChange : Prop :=
  LosesCrChange .enable 0 (fun cr => cr ||| 0x1#25) ∧
  LosesCrChange .disable 0 (fun cr => cr &&& ~~~0x1#25) ∧
  (∀ b, LosesCrChange (.setTargetMemory b) 0
    (fun cr => (cr &&& ~~~0x80000#25) ||| (if b = .buffer1 then 0x80000#25 else 0#25))) ∧
  (∀ ks, LosesCrChange (.enableInterrupt ks) (if ks.fe then 2 else 0) (fun cr => cr ||| (crMask ks).setWidth 25)) ∧
  (∀ ks, LosesCrChange (.disableInterrupt ks) (if ks.fe then 2 else 0)
    (fun cr => cr &&& ~~~(crMask ks).setWidth 25)) ∧
  (∀ ks : KindSet, ks.fe = true → LosesFcrChange (.enableInterrupt ks) 0 (fun f => { f with feie := true })) ∧
  (∀ ks : KindSet, ks.fe = true → LosesFcrChange (.disableInterrupt ks) 0 (fun f => { f with feie := false })) ∧
  ∀ lvl, LosesFcrChange (.setFifoThreshold lvl) 0 (fun f => { f with fth := lvl.code })
end

