-- ==== Sys2Proof/Laws/State.lean ====
section
/-! SUPPORT. One lemma per state field per shared update: what each update leaves and what it writes. -/

namespace Sys2Proof.Machine

/-! ### A read leaves everything but the draw counter -/

@[simp] theorem afterRead_params (s : State) : (afterRead s).params = s.params := rfl
@[simp] theorem afterRead_regs (s : State) : (afterRead s).regs = s.regs := rfl
@[simp] theorem afterRead_constructed (s : State) : (afterRead s).constructed = s.constructed := rfl
@[simp] theorem afterRead_engineActive (s : State) : (afterRead s).engineActive = s.engineActive := rfl
@[simp] theorem afterRead_faultLog (s : State) : (afterRead s).faultLog = s.faultLog := rfl
@[simp] theorem afterRead_hazardLog (s : State) : (afterRead s).hazardLog = s.hazardLog := rfl
@[simp] theorem afterRead_contexts (s : State) : (afterRead s).contexts = s.contexts := rfl
@[simp] theorem afterRead_draws (s : State) : (afterRead s).draws = s.draws + 1 := rfl
@[simp] theorem afterRead_schedule (s : State) : (afterRead s).schedule = s.schedule := rfl
@[simp] theorem afterRead_issuer (s : State) : (afterRead s).issuer = s.issuer := rfl

/-! ### A write changes the registers only -/

@[simp] theorem memWrite_params (r : Reg) (b : BusWord) (s : State) : (memWrite r b s).params = s.params := rfl
@[simp] theorem memWrite_regs (r : Reg) (b : BusWord) (s : State) : (memWrite r b s).regs = writeRule r b s.regs := rfl
@[simp] theorem memWrite_constructed (r : Reg) (b : BusWord) (s : State) : (memWrite r b s).constructed = s.constructed := rfl
@[simp] theorem memWrite_engineActive (r : Reg) (b : BusWord) (s : State) : (memWrite r b s).engineActive = s.engineActive := rfl
@[simp] theorem memWrite_faultLog (r : Reg) (b : BusWord) (s : State) : (memWrite r b s).faultLog = s.faultLog := rfl
@[simp] theorem memWrite_hazardLog (r : Reg) (b : BusWord) (s : State) : (memWrite r b s).hazardLog = s.hazardLog := rfl
@[simp] theorem memWrite_contexts (r : Reg) (b : BusWord) (s : State) : (memWrite r b s).contexts = s.contexts := rfl
@[simp] theorem memWrite_draws (r : Reg) (b : BusWord) (s : State) : (memWrite r b s).draws = s.draws := rfl
@[simp] theorem memWrite_schedule (r : Reg) (b : BusWord) (s : State) : (memWrite r b s).schedule = s.schedule := rfl
@[simp] theorem memWrite_issuer (r : Reg) (b : BusWord) (s : State) : (memWrite r b s).issuer = s.issuer := rfl

/-! ### Completing a command changes the contexts only -/

@[simp] theorem complete_params (r : Result) (s : State) : (complete r s).params = s.params := rfl
@[simp] theorem complete_regs (r : Result) (s : State) : (complete r s).regs = s.regs := rfl
@[simp] theorem complete_constructed (r : Result) (s : State) : (complete r s).constructed = s.constructed := rfl
@[simp] theorem complete_engineActive (r : Result) (s : State) : (complete r s).engineActive = s.engineActive := rfl
@[simp] theorem complete_faultLog (r : Result) (s : State) : (complete r s).faultLog = s.faultLog := rfl
@[simp] theorem complete_hazardLog (r : Result) (s : State) : (complete r s).hazardLog = s.hazardLog := rfl
@[simp] theorem complete_contexts (r : Result) (s : State) : (complete r s).contexts = s.contexts.modify s.issuer (Context.complete r) := rfl
@[simp] theorem complete_draws (r : Result) (s : State) : (complete r s).draws = s.draws := rfl
@[simp] theorem complete_schedule (r : Result) (s : State) : (complete r s).schedule = s.schedule := rfl
@[simp] theorem complete_issuer (r : Result) (s : State) : (complete r s).issuer = s.issuer := rfl

/-! ### A fault changes the contexts and the fault log only -/

@[simp] theorem raiseFault_params (cmd : Command) (code : FaultCode) (s : State) :
    (raiseFault cmd code s).params = s.params := rfl
@[simp] theorem raiseFault_regs (cmd : Command) (code : FaultCode) (s : State) :
    (raiseFault cmd code s).regs = s.regs := rfl
@[simp] theorem raiseFault_constructed (cmd : Command) (code : FaultCode) (s : State) :
    (raiseFault cmd code s).constructed = s.constructed := rfl
@[simp] theorem raiseFault_engineActive (cmd : Command) (code : FaultCode) (s : State) :
    (raiseFault cmd code s).engineActive = s.engineActive := rfl
@[simp] theorem raiseFault_faultLog (cmd : Command) (code : FaultCode) (s : State) :
    (raiseFault cmd code s).faultLog = s.faultLog ++ [{ context := s.issuer, command := cmd, code := code }] := rfl
@[simp] theorem raiseFault_hazardLog (cmd : Command) (code : FaultCode) (s : State) :
    (raiseFault cmd code s).hazardLog = s.hazardLog := rfl
@[simp] theorem raiseFault_contexts (cmd : Command) (code : FaultCode) (s : State) :
    (raiseFault cmd code s).contexts = s.contexts.modify s.issuer (Context.complete (.fault code)) := rfl
@[simp] theorem raiseFault_draws (cmd : Command) (code : FaultCode) (s : State) :
    (raiseFault cmd code s).draws = s.draws := rfl
@[simp] theorem raiseFault_schedule (cmd : Command) (code : FaultCode) (s : State) :
    (raiseFault cmd code s).schedule = s.schedule := rfl
@[simp] theorem raiseFault_issuer (cmd : Command) (code : FaultCode) (s : State) :
    (raiseFault cmd code s).issuer = s.issuer := rfl

/-! ### A hazard changes the hazard log only -/

@[simp] theorem recordHazard_params (cmd : Command) (h : Option HazardCode) (s : State) :
    (recordHazard cmd h s).params = s.params := by
  cases h <;> rfl
@[simp] theorem recordHazard_regs (cmd : Command) (h : Option HazardCode) (s : State) :
    (recordHazard cmd h s).regs = s.regs := by
  cases h <;> rfl
@[simp] theorem recordHazard_constructed (cmd : Command) (h : Option HazardCode) (s : State) :
    (recordHazard cmd h s).constructed = s.constructed := by
  cases h <;> rfl
@[simp] theorem recordHazard_engineActive (cmd : Command) (h : Option HazardCode) (s : State) :
    (recordHazard cmd h s).engineActive = s.engineActive := by
  cases h <;> rfl
@[simp] theorem recordHazard_faultLog (cmd : Command) (h : Option HazardCode) (s : State) :
    (recordHazard cmd h s).faultLog = s.faultLog := by
  cases h <;> rfl
@[simp] theorem recordHazard_none (cmd : Command) (s : State) : recordHazard cmd none s = s := rfl
@[simp] theorem recordHazard_some_hazardLog (cmd : Command) (code : HazardCode) (s : State) :
    (recordHazard cmd (some code) s).hazardLog =
      s.hazardLog ++ [{ context := s.issuer, command := cmd, code := code }] := rfl
@[simp] theorem recordHazard_contexts (cmd : Command) (h : Option HazardCode) (s : State) :
    (recordHazard cmd h s).contexts = s.contexts := by
  cases h <;> rfl
@[simp] theorem recordHazard_draws (cmd : Command) (h : Option HazardCode) (s : State) :
    (recordHazard cmd h s).draws = s.draws := by
  cases h <;> rfl
@[simp] theorem recordHazard_schedule (cmd : Command) (h : Option HazardCode) (s : State) :
    (recordHazard cmd h s).schedule = s.schedule := by
  cases h <;> rfl
@[simp] theorem recordHazard_issuer (cmd : Command) (h : Option HazardCode) (s : State) :
    (recordHazard cmd h s).issuer = s.issuer := by
  cases h <;> rfl

/-! ### Contexts -/

@[simp] theorem Context.complete_prog (r : Result) (x : Context) : (Context.complete r x).prog = x.prog := rfl
@[simp] theorem Context.complete_pc (r : Result) (x : Context) : (Context.complete r x).pc = x.pc + 1 := rfl
@[simp] theorem Context.complete_inflight (r : Result) (x : Context) : (Context.complete r x).inflight = none := rfl
@[simp] theorem Context.complete_results (r : Result) (x : Context) : (Context.complete r x).results = x.results ++ [r] := rfl
@[simp] theorem Context.setInflight_prog (f : InFlight) (x : Context) : (Context.setInflight f x).prog = x.prog := rfl
@[simp] theorem Context.setInflight_pc (f : InFlight) (x : Context) : (Context.setInflight f x).pc = x.pc := rfl
@[simp] theorem Context.setInflight_inflight (f : InFlight) (x : Context) : (Context.setInflight f x).inflight = some f := rfl
@[simp] theorem Context.setInflight_results (f : InFlight) (x : Context) : (Context.setInflight f x).results = x.results := rfl
@[simp] theorem Context.complete_setInflight (r : Result) (f : InFlight) (x : Context) :
    Context.complete r (Context.setInflight f x) = Context.complete r x := rfl
@[simp] theorem Context.setInflight_setInflight (f g : InFlight) (x : Context) :
    Context.setInflight f (Context.setInflight g x) = Context.setInflight f x := rfl
@[simp] theorem Context.start_prog (prog : List Command) : (Context.start prog).prog = prog := rfl
@[simp] theorem Context.start_pc (prog : List Command) : (Context.start prog).pc = 0 := rfl
@[simp] theorem Context.start_inflight (prog : List Command) : (Context.start prog).inflight = none := rfl
@[simp] theorem Context.start_results (prog : List Command) : (Context.start prog).results = [] := rfl

end Sys2Proof.Machine
end

