-- ==== Sys2Proof/Laws/Bus.lean ====
section
/-! SUPPORT. Bus words and registers: `bits` is the value under a mask, the updates are the bitwise operations on the
value, and each primitive's effect on a register that was just read. -/

namespace Sys2Proof.Machine

/-! ### Bus words -/

/-- `bits` is the bus value under the mask. -/
theorem BusWord.bits_eq (b : BusWord) (mask : Word) : b.bits mask = b.value &&& mask := by
  unfold BusWord.bits BusWord.value
  split
  · next h =>
    rw [BitVec.and_or_distrib_right, BitVec.and_assoc, h]; simp
  · rw [BitVec.and_or_distrib_right, BitVec.and_assoc]

/-- Where the mask meets no undefined bit, the draw does not matter. -/
theorem BusWord.bits_of_disjoint {b : BusWord} {mask : Word} (h : b.openBits &&& mask = 0#32) :
    b.bits mask = b.known &&& mask := by
  simp [BusWord.bits, h]

@[simp] theorem BusWord.value_ofWord (w : Word) : (BusWord.ofWord w).value = w := by
  simp [BusWord.ofWord, BusWord.value]

@[simp] theorem BusWord.bits_ofWord (w mask : Word) : (BusWord.ofWord w).bits mask = w &&& mask := by
  rw [BusWord.bits_eq, BusWord.value_ofWord]

/-- `or` is `|` on the bus value. -/
theorem BusWord.value_or (b : BusWord) (w : Word) : (b.or w).value = b.value ||| w := by
  unfold BusWord.value BusWord.or
  ext j
  simp
  cases b.known[j] <;> cases w[j] <;> simp

/-- `and` is `&` on the bus value. -/
theorem BusWord.value_and (b : BusWord) (w : Word) : (b.and w).value = b.value &&& w := by
  unfold BusWord.value BusWord.and
  ext j
  simp
  cases b.known[j] <;> cases w[j] <;> simp

/-! ### Reading -/

@[simp] theorem memReadWord_known (r : Reg) (s : State) : (memReadWord r s).known = (readRule r s.regs).1 := rfl
@[simp] theorem memReadWord_openBits (r : Reg) (s : State) :
    (memReadWord r s).openBits = (readRule r s.regs).2 := rfl
@[simp] theorem memReadWord_draw (r : Reg) (s : State) : (memReadWord r s).draw = s.draws := rfl

/-! ### Read, modify, write back -/

/-- A word or-ed into a word read: only the bits the spec gives are asked for. -/
theorem BusWord.bits_or {b : BusWord} {mask : Word} (h : b.openBits &&& mask = 0#32) (w : Word) :
    (b.or w).bits mask = (b.known ||| w) &&& mask := by
  rw [BusWord.bits_eq, BusWord.value_or, BitVec.and_or_distrib_right, ← BusWord.bits_eq,
    BusWord.bits_of_disjoint h, ← BitVec.and_or_distrib_right]

/-- A word and-ed into a word read: only the bits the spec gives are asked for. -/
theorem BusWord.bits_and {b : BusWord} {mask : Word} (h : b.openBits &&& mask = 0#32) (w : Word) :
    (b.and w).bits mask = (b.known &&& w) &&& mask := by
  rw [BusWord.bits_eq, BusWord.value_and, BitVec.and_assoc, BitVec.and_comm w, ← BitVec.and_assoc,
    ← BusWord.bits_eq, BusWord.bits_of_disjoint h, BitVec.and_assoc, BitVec.and_comm mask, BitVec.and_assoc]

/-- The bits a read of `CR` draws are none of the stored ones; likewise for the other registers. -/
theorem memReadWord_cr_disjoint (s : State) : (memReadWord .cr s).openBits &&& crDefined = 0#32 := by
  show ~~~crDefined &&& crDefined = 0#32
  decide

theorem memReadWord_fcr_disjoint {mask : Word} (h : ~~~fcrDefined &&& mask = 0#32) (s : State) :
    (memReadWord .fcr s).openBits &&& mask = 0#32 := h

theorem crDefined_setWidth (w : Word) : (w &&& crDefined).setWidth 25 = w.setWidth 25 := by
  apply BitVec.eq_of_getLsbD_eq
  intro j hj
  have h : ∀ j, j < 25 → crDefined.getLsbD j = true := by decide
  simp only [BitVec.getLsbD_setWidth, BitVec.getLsbD_and, h j hj, Bool.and_true]

/-- R24, R25: `set(CR, mask)` ors the mask into the stored fields. -/
theorem writeRule_cr_or (s : State) (g : Regs) (mask : Word) :
    writeRule .cr ((memReadWord .cr s).or mask) g = { g with cr := s.regs.cr ||| mask.setWidth 25 } := by
  show { g with cr := (BusWord.bits _ _).setWidth 25 } = _
  rw [BusWord.bits_or (memReadWord_cr_disjoint s), crDefined_setWidth, BitVec.setWidth_or]
  simp [readRule]

/-- R24, R25: `clear(CR, mask)` clears the mask's bits in the stored fields. -/
theorem writeRule_cr_and (s : State) (g : Regs) (mask : Word) :
    writeRule .cr ((memReadWord .cr s).and mask) g = { g with cr := s.regs.cr &&& mask.setWidth 25 } := by
  show { g with cr := (BusWord.bits _ _).setWidth 25 } = _
  rw [BusWord.bits_and (memReadWord_cr_disjoint s), crDefined_setWidth, BitVec.setWidth_and]
  simp [readRule]

/-- R24, R25: `change(CR, mask, ...)` replaces the mask's bits in the stored fields. -/
theorem writeRule_cr_change (s : State) (g : Regs) (mask w : Word) :
    writeRule .cr (((memReadWord .cr s).and mask).or w) g =
      { g with cr := (s.regs.cr &&& mask.setWidth 25) ||| w.setWidth 25 } := by
  have h : ((memReadWord .cr s).and mask).openBits &&& crDefined = 0#32 := by
    show (~~~crDefined &&& mask) &&& crDefined = 0#32
    rw [BitVec.and_assoc, BitVec.and_comm mask, ← BitVec.and_assoc]
    simp
  show { g with cr := (BusWord.bits _ _).setWidth 25 } = _
  rw [BusWord.bits_or h, crDefined_setWidth, BitVec.setWidth_or]
  simp [readRule, BusWord.and, BitVec.setWidth_and]

/-! The stored fields of `FCR` are seven bits: the facts about them are decided. -/

/-- R33: the fields `FTH`, `FCR2` and `FEIE` of a word written to `FCR`. -/
def Fcr.writeWord (f : Fcr) (w : Word) : Fcr :=
  { f with fth := (w &&& 0x3#32).setWidth 2, fcr2 := (w &&& 0x4#32).getLsbD 2, feie := (w &&& 0x80#32).getLsbD 7 }

theorem Fcr.write_or (s : State) (f : Fcr) (w : Word) :
    f.write ((memReadWord .fcr s).or w) = f.writeWord (s.regs.fcr.toWord ||| w) := by
  unfold Fcr.write Fcr.writeWord
  rw [BusWord.bits_or (memReadWord_fcr_disjoint (by decide) s), BusWord.bits_or (memReadWord_fcr_disjoint (by decide) s),
    BusWord.bits_or (memReadWord_fcr_disjoint (by decide) s)]
  rfl

theorem Fcr.write_and (s : State) (f : Fcr) (w : Word) :
    f.write ((memReadWord .fcr s).and w) = f.writeWord (s.regs.fcr.toWord &&& w) := by
  unfold Fcr.write Fcr.writeWord
  rw [BusWord.bits_and (memReadWord_fcr_disjoint (by decide) s),
    BusWord.bits_and (memReadWord_fcr_disjoint (by decide) s), BusWord.bits_and (memReadWord_fcr_disjoint (by decide) s)]
  rfl

theorem Fcr.write_change (s : State) (f : Fcr) (m w : Word) :
    f.write (((memReadWord .fcr s).and m).or w) = f.writeWord ((s.regs.fcr.toWord &&& m) ||| w) := by
  have h : ∀ mask : Word, ~~~fcrDefined &&& mask = 0#32 →
      ((memReadWord .fcr s).and m).openBits &&& mask = 0#32 := by
    intro mask hm
    show (~~~fcrDefined &&& m) &&& mask = 0#32
    rw [BitVec.and_assoc, BitVec.and_comm m, ← BitVec.and_assoc, hm, BitVec.zero_and]
  unfold Fcr.write Fcr.writeWord
  rw [BusWord.bits_or (h _ (by decide)), BusWord.bits_or (h _ (by decide)), BusWord.bits_or (h _ (by decide))]
  rfl

theorem Fcr.writeWord_set_feie (f g : Fcr) :
    g.writeWord (f.toWord ||| feieMask) = { f with fs := g.fs, feie := true } := by
  obtain ⟨fth, fcr2, fs, feie⟩ := f
  unfold Fcr.writeWord
  congr 1
  · revert fth fcr2 fs feie; decide
  · revert fth fcr2 fs feie; decide
  · revert fth fcr2 fs feie; decide

theorem Fcr.writeWord_clear_feie (f g : Fcr) :
    g.writeWord (f.toWord &&& ~~~feieMask) = { f with fs := g.fs, feie := false } := by
  obtain ⟨fth, fcr2, fs, feie⟩ := f
  unfold Fcr.writeWord
  congr 1
  · revert fth fcr2 fs feie; decide
  · revert fth fcr2 fs feie; decide
  · revert fth fcr2 fs feie; decide

theorem Fcr.writeWord_change_fth (f g : Fcr) (c : BitVec 2) :
    g.writeWord ((f.toWord &&& ~~~0x00000003#32) ||| ((c.setWidth 32 <<< 0) &&& 0x00000003#32)) =
      { f with fs := g.fs, fth := c } := by
  obtain ⟨fth, fcr2, fs, feie⟩ := f
  unfold Fcr.writeWord
  congr 1
  · revert fth fcr2 fs feie c; decide
  · revert fth fcr2 fs feie c; decide
  · revert fth fcr2 fs feie c; decide

/-- R171: `set(FCR, 0x80)` sets `FEIE`, writes the other fields back as read, and leaves `FS` alone. -/
theorem writeRule_fcr_set_feie (s : State) (g : Regs) :
    writeRule .fcr ((memReadWord .fcr s).or feieMask) g =
      { g with fcr := { s.regs.fcr with fs := g.fcr.fs, feie := true } } := by
  show { g with fcr := g.fcr.write _ } = _
  rw [Fcr.write_or, Fcr.writeWord_set_feie]

/-- R172: `clear(FCR, 0x80)` clears `FEIE`, writes the other fields back as read, and leaves `FS` alone. -/
theorem writeRule_fcr_clear_feie (s : State) (g : Regs) :
    writeRule .fcr ((memReadWord .fcr s).and (~~~feieMask)) g =
      { g with fcr := { s.regs.fcr with fs := g.fcr.fs, feie := false } } := by
  show { g with fcr := g.fcr.write _ } = _
  rw [Fcr.write_and, Fcr.writeWord_clear_feie]

/-- R210: `change(FCR, 0x3, lvl, 0)` writes `FTH`, writes the other fields back as read, and leaves `FS` alone. -/
theorem writeRule_fcr_change_fth (s : State) (g : Regs) (c : BitVec 2) :
    writeRule .fcr (((memReadWord .fcr s).and (~~~0x00000003#32)).or ((c.setWidth 32 <<< 0) &&& 0x00000003#32)) g =
      { g with fcr := { s.regs.fcr with fs := g.fcr.fs, fth := c } } := by
  show { g with fcr := g.fcr.write _ } = _
  rw [Fcr.write_change, Fcr.writeWord_change_fth]

/-! ### Fields of a word read -/

/-- R211: `f[5:3]` of a word read from `FCR` is `FS`, whatever is drawn. -/
@[simp] theorem fsField_memReadWord (s : State) : fsField (memReadWord .fcr s) = s.regs.fcr.fs := by
  unfold fsField
  rw [BusWord.bits_of_disjoint (memReadWord_fcr_disjoint (by decide) s)]
  show (s.regs.fcr.toWord &&& 0x38#32).extractLsb' 3 3 = s.regs.fcr.fs
  obtain ⟨fth, fcr2, fs, feie⟩ := s.regs.fcr
  revert fth fcr2 fs feie; decide

/-- A single bit of a bus word. -/
theorem bitOf_eq (v : BusWord) (n : Nat) (hn : n < 32) : bitOf v n = v.value.getLsbD n := by
  unfold bitOf
  rw [BusWord.bits_eq]
  simp [hn]

/-- R194, R36: bit `n < 20` of a word read from a status register is the flag there, whatever is drawn. -/
theorem bitOf_statusReg (sel : RegSel) (s : State) (n : Nat) (hn : n < 20) :
    bitOf (memReadWord (statusReg sel) s) n =
      (match sel with
        | .low => s.regs.lisr
        | .high => s.regs.hisr).getLsbD n := by
  have h : ∀ n, n < 20 → ~~~flagsDefined &&& (1#32 <<< n) = 0#32 := by decide
  unfold bitOf
  cases sel
  · rw [BusWord.bits_of_disjoint (h n hn)]
    show ((s.regs.lisr.setWidth 32) &&& (1#32 <<< n)).getLsbD n = s.regs.lisr.getLsbD n
    simp [show n < 32 by omega]
  · rw [BusWord.bits_of_disjoint (h n hn)]
    show ((s.regs.hisr.setWidth 32) &&& (1#32 <<< n)).getLsbD n = s.regs.hisr.getLsbD n
    simp [show n < 32 by omega]

/-- R191: `flagBit` ranges over 0..19. -/
theorem flagBit_lt (f : FlagBits) (i : Nat) (k : Kind) : flagBit f i k < 20 := by
  have h : flagBitOf f k < 5 := by
    cases k <;> simp only [flagBitOf] <;> omega
  simp only [flagBit, locate]
  omega

/-- R37: one bit of the write-1-to-clear rule. -/
theorem getLsbD_clearFlags_ofWord (flags : BitVec 20) (w : Word) (j : Nat) (hj : j < 20) :
    (clearFlags flags (BusWord.ofWord w)).getLsbD j = (flags.getLsbD j && !w.getLsbD j) := by
  have h : ∀ j, j < 20 → flagsDefined.getLsbD j = true := by decide
  unfold clearFlags
  rw [BusWord.bits_ofWord]
  simp only [BitVec.getLsbD_and, BitVec.getLsbD_not, BitVec.getLsbD_setWidth, h j hj, hj, decide_true, Bool.true_and,
    Bool.and_true]

/-- R191: `flagMask` is the one bit `flagBit`. -/
theorem getLsbD_flagMask (f : FlagBits) (i : Nat) (k : Kind) (j : Nat) (hj : j < 20) :
    (flagMask f i k).getLsbD j = decide (j = flagBit f i k) := by
  have h : ∀ n, n < 20 → ∀ j, j < 20 → (1#32 <<< n).getLsbD j = decide (j = n) := by decide
  exact h _ (flagBit_lt f i k) j hj

/-! ### Bits of the operands -/

/-- R170: the bits of `crMask`. -/
theorem getLsbD_crMask (ks : KindSet) (j : Nat) (hj : j < 25) :
    ((crMask ks).setWidth 25).getLsbD j =
      ((decide (j = 4) && ks.tc) || (decide (j = 3) && ks.ht) || (decide (j = 2) && ks.te) ||
        (decide (j = 1) && ks.dme)) := by
  have h : ∀ a b c d e, ∀ j, j < 25 → ((crMask ⟨a, b, c, d, e⟩).setWidth 25).getLsbD j =
      ((decide (j = 4) && a) || (decide (j = 3) && b) || (decide (j = 2) && c) || (decide (j = 1) && d)) := by
    decide
  obtain ⟨a, b, c, d, e⟩ := ks
  exact h a b c d e j hj

/-- A code placed in a word (R131), bit by bit. -/
theorem getLsbD_place {n : Nat} (c : BitVec n) (lo j : Nat) (hj : j < 32) :
    (place c lo).getLsbD j = (decide (lo ≤ j) && c.getLsbD (j - lo)) := by
  unfold place
  by_cases h : lo ≤ j
  · simp [hj, h, show ¬ j < lo by omega]
  · simp [h, show j < lo by omega]

/-- A truth value placed in a word (R131), bit by bit. -/
theorem getLsbD_ofBool (b : Bool) (j : Nat) : (BitVec.ofBool b).getLsbD j = (decide (j = 0) && b) := by
  cases b <;> cases j <;> simp [BitVec.ofBool]

end Sys2Proof.Machine
end

