-- ==== Sys2Proof/Laws/Decoding.lean ====
section
/-! SUPPORT. Command words: a word with its reserved bits zero is an operation code and an operand field
(30_encoding.md R91), and the operand channel reaches CONSTRUCT only (R114). -/

namespace Sys2Proof

/-- A word is its three fields of R91. -/
theorem word_fields (w : Word) : w = w.extractLsb' 12 20 ++ w.extractLsb' 4 8 ++ w.extractLsb' 0 4 := by
  apply BitVec.eq_of_getLsbD_eq
  intro j hj
  simp only [BitVec.getLsbD_append, BitVec.getLsbD_extractLsb']
  split_ifs with h1 h2
  · simp [h1]
  · simp [h2, show 4 + (j - 4) = j by omega]
  · have e : 12 + (j - 4 - 8) = j := by omega
    simp [e, show j - 4 - 8 < 20 by omega]

/-- A word whose bits 31:12 are zero is a command word of R91. -/
theorem word_eq_commandWord (w : Word) (h : w.extractLsb' 12 20 = 0#20) :
    ∃ op operand, w = commandWord op operand := by
  refine ⟨w.extractLsb' 0 4, w.extractLsb' 4 8, ?_⟩
  conv => lhs; rw [word_fields w, h]
  rfl

/-- Bits 31:12 of a word that decodes are zero (R98). -/
theorem reserved_of_decode {cmd : Command} {i : Instr} (h : decode cmd = .ok i) :
    cmd.word.extractLsb' 12 20 = 0#20 := by
  by_contra h0
  simp [decode, h0] at h

/-- The operand channel is CONSTRUCT's operand and nothing else's (R114). -/
theorem decode_record (w : Word) (r : Record) :
    decode { word := w, record := r } =
      match decode { word := w } with
      | .ok (.construct _) => .ok (.construct r)
      | other => other := by
  simp only [decode]
  split
  · rfl
  · split <;> (try split) <;> (try split) <;> first | rfl | simp_all

end Sys2Proof
end

