-- ==== Sys2Proof/Laws/Exec.lean ====
section
/-! SUPPORT. One spec lemma per operation: the state an operation ends in when its checks pass, and what it does when
they do not. -/

namespace Sys2Proof.Machine

/-! ### Completion in the terms of Safety.lean -/

/-- `complete` is what R21 and R45 say of the contexts. -/
theorem completesWith_complete (r : Result) (s s' : State) (hc : s'.contexts = s.contexts)
    (hi : s'.issuer = s.issuer) : CompletesWith r s (complete r s') := by
  intro c
  rw [complete_contexts, hc, hi, List.getElem?_modify]
  by_cases h : c = s.issuer
  · subst h; simp [Context.complete]
  · simp [h, Ne.symm h]

/-- Raising a fault is what R231 says of one. -/
theorem faults_raiseFault (cmd : Command) (code : FaultCode) (s : State) :
    Faults cmd code s (raiseFault cmd code s) :=
  ⟨completesWith_complete _ s _ rfl rfl, ⟨rfl, rfl, rfl, rfl⟩, rfl, rfl, rfl, rfl⟩

/-! ### Checks -/

theorem prologue_of_ready {s : State} (h : Ready s) : prologue s = none := by
  simp [prologue, h.2, Nat.not_le.mpr h.1]

theorem prologue_unmapped {s : State} (h : 8 ≤ s.params.streamIndex) :
    prologue s = some (.unmappedStreamIndex s.params.streamIndex) := by
  simp [prologue, h]

theorem prologue_notConstructed {s : State} (h : s.params.streamIndex < 8) (hc : s.constructed = false) :
    prologue s = some .notConstructed := by
  simp [prologue, hc, Nat.not_le.mpr h]

/-- R16: the divisor of the alignment checks is 1, 2 or 4, the reserved size code included. -/
theorem DataSize_bytes_cases (size : DataSize) : size.bytes = 1 ∨ size.bytes = 2 ∨ size.bytes = 4 := by
  cases size with
  | byte => exact .inl rfl
  | halfword => exact .inr (.inl rfl)
  | word => exact .inr (.inr rfl)
  | reserved =>
    have h : ∀ n : Fin 3, 2 ^ n.val = 1 ∨ 2 ^ n.val = 2 ∨ 2 ^ n.val = 4 := by decide
    exact h Config.reservedSizeLog

/-- An address that is a nonzero multiple of 4 passes the checks of R132 (b) to (d), whatever the size. -/
theorem badAddress_of_word_aligned {a : Word} (size : DataSize) (h0 : a ≠ 0#32) (h4 : a.toNat % 4 = 0) :
    badAddress a size = false := by
  have hne : a.toNat ≠ 0 := fun h => h0 (BitVec.eq_of_toNat_eq h)
  rcases DataSize_bytes_cases size with h | h | h <;> simp [badAddress, h, hne] <;> omega

theorem badAddress_iff (a : Word) (size : DataSize) : badAddress a size = true ↔ ZeroOrMisaligned a size := by
  simp [badAddress, ZeroOrMisaligned, BitVec.toNat_eq]

theorem wf_false_iff (cfg : Record) : cfg.wf = false ↔ CfgFails cfg .reservedCode := by
  obtain ⟨dir, psize, msize⟩ := cfg
  cases dir <;> cases psize <;> cases msize <;> simp [Record.wf, CfgFails]

/-- R132, R236: `cfgCondition` answers the first condition that holds, in the order (a) to (e). -/
theorem cfgCondition_eq_some_iff (cfg : Record) (cond : CfgCondition) :
    cfgCondition cfg = some cond ↔
      CfgFails cfg cond ∧ ∀ cond', cond'.order < cond.order → ¬ CfgFails cfg cond' := by
  have ha : CfgFails cfg .countTooLarge ↔ cfg.count.toNat > 0xFFFF := Iff.rfl
  have hb : CfgFails cfg .badPar ↔ badAddress cfg.par cfg.psize = true := (badAddress_iff _ _).symm
  have hc : CfgFails cfg .badM0ar ↔ badAddress cfg.m0ar cfg.msize = true := (badAddress_iff _ _).symm
  have hd : CfgFails cfg .badM1ar ↔ (cfg.dbm && badAddress cfg.m1ar cfg.msize) = true := by
    rw [Bool.and_eq_true, badAddress_iff]; rfl
  have he : CfgFails cfg .reservedCode ↔ cfg.wf = false := (wf_false_iff cfg).symm
  have all : (∀ P : CfgCondition → Prop, (∀ x, P x) ↔
      P .countTooLarge ∧ P .badPar ∧ P .badM0ar ∧ P .badM1ar ∧ P .reservedCode) :=
    fun P => ⟨fun h => ⟨h _, h _, h _, h _, h _⟩, fun ⟨h1, h2, h3, h4, h5⟩ x => by cases x <;> assumption⟩
  rw [all]
  unfold cfgCondition
  cases cond <;> simp only [CfgCondition.order, ha, hb, hc, hd, he] <;> split_ifs <;> simp_all

/-- R132: `cfgCondition` answers none exactly on the valid records. -/
theorem cfgCondition_eq_none_iff (cfg : Record) : cfgCondition cfg = none ↔ ValidConfig cfg := by
  constructor
  · intro h cond hf
    obtain ⟨a, ha⟩ : ∃ a, cfgCondition cfg = some a := by
      have hb : CfgFails cfg .badPar ↔ badAddress cfg.par cfg.psize = true := (badAddress_iff _ _).symm
      have hc : CfgFails cfg .badM0ar ↔ badAddress cfg.m0ar cfg.msize = true := (badAddress_iff _ _).symm
      have hd : CfgFails cfg .badM1ar ↔ (cfg.dbm && badAddress cfg.m1ar cfg.msize) = true := by
        rw [Bool.and_eq_true, badAddress_iff]; rfl
      have he : CfgFails cfg .reservedCode ↔ cfg.wf = false := (wf_false_iff cfg).symm
      have ha : CfgFails cfg .countTooLarge ↔ cfg.count.toNat > 0xFFFF := Iff.rfl
      unfold cfgCondition
      cases cond <;> simp only [ha, hb, hc, hd, he] at hf <;> split_ifs <;> simp_all
    rw [h] at ha; cases ha
  · intro h
    match hc : cfgCondition cfg with
    | none => rfl
    | some cond => exact absurd ((cfgCondition_eq_some_iff cfg cond).mp hc).1 (h cond)

/-! ### The operations when their checks pass -/

theorem exec_enable {s : State} (h : Ready s) :
    exec .enable s =
      .next (complete .unit { s with regs := { s.regs with cr := s.regs.cr ||| 1#25 }, draws := s.draws + 1 }) := by
  simp only [exec, execEnable, runOp, opEnable, prologue_of_ready h, setReg, doTxns, doTxn, memWrite, Update.apply,
    writeRule_cr_or, finishOp, recordHazard_none]
  rfl

theorem exec_disable {s : State} (h : Ready s) :
    exec .disable s =
      .next (complete .unit { s with regs := { s.regs with cr := s.regs.cr &&& ~~~1#25 }, draws := s.draws + 1 }) := by
  simp only [exec, execDisable, runOp, opDisable, prologue_of_ready h, clearReg, doTxns, doTxn, memWrite, Update.apply,
    writeRule_cr_and, finishOp, recordHazard_none]
  rfl

theorem exec_setTargetMemory {s : State} (h : Ready s) (b : Buffer) :
    exec (.setTargetMemory b) s =
      .next (complete .unit { s with
        regs := { s.regs with cr := (s.regs.cr &&& ~~~(1#25 <<< 19)) ||| (b.code.setWidth 25 <<< 19) }
        draws := s.draws + 1 }) := by
  simp only [exec, execSetTargetMemory, runOp, opSetTargetMemory, prologue_of_ready h, changeReg, doTxns, doTxn,
    memWrite, Update.apply, writeRule_cr_change, finishOp, recordHazard_none]
  cases b <;> rfl

theorem exec_enableInterrupt {s : State} (h : Ready s) (ks : KindSet) :
    ∃ n, exec (.enableInterrupt ks) s =
      .next (complete .unit { s with
        regs := { s.regs with
          cr := s.regs.cr ||| (crMask ks).setWidth 25
          fcr := { s.regs.fcr with feie := s.regs.fcr.feie || ks.fe } }
        draws := n }) := by
  simp only [exec, execEnableInterrupt, runOp, opEnableInterrupt, prologue_of_ready h, setReg]
  cases hf : ks.fe
  · refine ⟨s.draws + 1, ?_⟩
    simp only [KindSet.has, hf, Bool.false_eq_true, if_false, List.nil_append, doTxns, doTxn, memWrite, Update.apply,
      writeRule_cr_or, finishOp, recordHazard_none, Bool.or_false]
    rfl
  · refine ⟨s.draws + 1 + 1, ?_⟩
    simp only [KindSet.has, hf, if_true, List.cons_append, List.nil_append, doTxns, doTxn, memWrite, Update.apply,
      writeRule_cr_or, writeRule_fcr_set_feie, finishOp, recordHazard_none, Bool.or_true]
    rfl

theorem exec_disableInterrupt {s : State} (h : Ready s) (ks : KindSet) :
    ∃ n, exec (.disableInterrupt ks) s =
      .next (complete .unit { s with
        regs := { s.regs with
          cr := s.regs.cr &&& (~~~crMask ks).setWidth 25
          fcr := { s.regs.fcr with feie := s.regs.fcr.feie && !ks.fe } }
        draws := n }) := by
  simp only [exec, execDisableInterrupt, runOp, opDisableInterrupt, prologue_of_ready h, clearReg]
  cases hf : ks.fe
  · refine ⟨s.draws + 1, ?_⟩
    simp only [KindSet.has, hf, Bool.false_eq_true, if_false, List.nil_append, doTxns, doTxn, memWrite, Update.apply,
      writeRule_cr_and, finishOp, recordHazard_none, Bool.not_false, Bool.and_true]
    rfl
  · refine ⟨s.draws + 1 + 1, ?_⟩
    simp only [KindSet.has, hf, if_true, List.cons_append, List.nil_append, doTxns, doTxn, memWrite, Update.apply,
      writeRule_cr_and, writeRule_fcr_clear_feie, finishOp, recordHazard_none, Bool.not_true, Bool.and_false]
    rfl

theorem exec_clearInterruptFlag {s : State} (h : Ready s) (k : Kind) :
    exec (.clearInterruptFlag k) s =
      .next (complete .unit (memWrite (clearRegOf (locate s.params.streamIndex).1)
        (BusWord.ofWord (flagMask s.params.flagBits s.params.streamIndex k)) s)) := by
  simp only [exec, execClearInterruptFlag, runOp, opClearInterruptFlag, prologue_of_ready h, writeReg, doTxns, doTxn,
    Update.apply, finishOp, recordHazard_none]

theorem exec_getInterruptFlag {s : State} (h : Ready s) (k : Kind) :
    exec (.getInterruptFlag k) s =
      .next (complete (.flag (flagOf s.params s.regs s.params.streamIndex k)) { s with draws := s.draws + 1 }) := by
  simp only [exec, execGetInterruptFlag, runOp, opGetInterruptFlag, prologue_of_ready h, readReg, doTxns, doTxn,
    finishOp, recordHazard_none, bitOf_statusReg _ _ _ (flagBit_lt _ _ _)]
  rfl

theorem exec_setFifoThreshold {s : State} (h : Ready s) (lvl : FifoLevel) :
    exec (.setFifoThreshold lvl) s =
      .next (complete .unit { s with
        regs := { s.regs with fcr := { s.regs.fcr with fth := lvl.code } }, draws := s.draws + 1 }) := by
  simp only [exec, execSetFifoThreshold, runOp, opSetFifoThreshold, prologue_of_ready h, changeReg, doTxns, doTxn,
    memWrite, Update.apply, writeRule_fcr_change_fth, finishOp, recordHazard_none]
  rfl

theorem exec_getFifoStatus {s : State} (h : Ready s) :
    exec .getFifoStatus s =
      .next (match decodeFS s.regs.fcr.fs with
        | some st => complete (.fifo st) { s with draws := s.draws + 1 }
        | none => raiseFault (encode .getFifoStatus) (.unmappedFifoStatus s.regs.fcr.fs)
            { s with draws := s.draws + 1 }) := by
  simp only [exec, execGetFifoStatus, runOp, opGetFifoStatus, prologue_of_ready h, readReg, doTxns, doTxn, finishOp,
    recordHazard_none, fsField_memReadWord]
  rfl

theorem exec_construct {s : State} {cfg : Record} (h : s.params.streamIndex < 8) (hv : ValidConfig cfg) :
    exec (.construct cfg) s =
      .next (complete .unit { recordHazard (encode (.construct cfg)) (constructHazard s) s with
        constructed := true
        regs := { s.regs with
          cr := (encodeCR cfg).setWidth 25
          par := cfg.par
          m0ar := cfg.m0ar
          m1ar := cfg.m1ar
          ndt := (countWord cfg).setWidth 16 } }) := by
  have hf : constructFault cfg s = none := by
    simp [constructFault, Nat.not_le.mpr h, (cfgCondition_eq_none_iff cfg).mpr hv]
  have hn : ∀ w : Word, (w &&& ndtrDefined).setWidth 16 = w.setWidth 16 := by
    intro w
    apply BitVec.eq_of_getLsbD_eq
    intro j hj
    have h : ∀ j, j < 16 → ndtrDefined.getLsbD j = true := by decide
    simp only [BitVec.getLsbD_setWidth, BitVec.getLsbD_and, h j hj, Bool.and_true]
  have h32 : ∀ w : Word, w &&& ~~~0#32 = w := by
    intro w
    rw [BitVec.not_zero, BitVec.and_allOnes]
  simp only [exec, execConstruct, runOp, opConstruct, hf, constructTxns, writeReg, List.cons_append, List.nil_append,
    doTxns, doTxn, memWrite, Update.apply, finishOp, writeRule, BusWord.bits_ofWord, crDefined_setWidth, hn,
    h32, recordHazard_regs]

/-! ### The operations when their checks fail -/

/-- The fault an operation's checks raise, before any transaction (R232). -/
def checkFault (i : Instr) (s : State) : Option FaultCode := (operationOf i s).fault

/-- An operation whose checks fail raises that fault and does nothing else. -/
theorem exec_of_checkFault {i : Instr} {s : State} {code : FaultCode} (h : checkFault i s = some code) :
    exec i s = .next (raiseFault (encode i) code s) := by
  cases i <;> simp only [checkFault, operationOf] at h <;>
    simp only [exec, execConstruct, execEnable, execDisable, execSetTargetMemory, execEnableInterrupt,
      execDisableInterrupt, execClearInterruptFlag, execGetInterruptFlag, execSetFifoThreshold, execGetFifoStatus,
      runOp, h]

/-- `exec` is the operation of `operationOf` run whole. -/
theorem exec_eq_runOp (i : Instr) (s : State) : exec i s = .next (runOp (encode i) (operationOf i s) s) := by
  cases i <;> rfl

end Sys2Proof.Machine
end

