-- ==== Sys2Proof/Laws/PerInstr.lean ====
section
/-! SUPPORT. Facts about every operation as syntax, one lemma per constructor: the reserved bits of a command word are
zero (30_encoding.md R91). -/

namespace Sys2Proof.Laws.EncodeReservedZero

/-- R91: bits 31:12 of the command word are 0. -/
def Statement (i : Instr) : Prop := (encode i).word.extractLsb' 12 20 = 0#20

/-- A command word built from an operation code and an operand field has its reserved bits 0. -/
theorem commandWord_reserved (op : BitVec 4) (operand : BitVec 8) :
    (commandWord op operand).extractLsb' 12 20 = 0#20 := by
  revert op operand; decide

theorem construct (cfg : Record) : Statement (.construct cfg) := commandWord_reserved _ _
theorem enable : Statement .enable := commandWord_reserved _ _
theorem disable : Statement .disable := commandWord_reserved _ _
theorem setTargetMemory (b : Buffer) : Statement (.setTargetMemory b) := commandWord_reserved _ _
theorem enableInterrupt (kset : KindSet) : Statement (.enableInterrupt kset) := commandWord_reserved _ _
theorem disableInterrupt (kset : KindSet) : Statement (.disableInterrupt kset) := commandWord_reserved _ _
theorem clearInterruptFlag (k : Kind) : Statement (.clearInterruptFlag k) := commandWord_reserved _ _
theorem getInterruptFlag (k : Kind) : Statement (.getInterruptFlag k) := commandWord_reserved _ _
theorem setFifoThreshold (lvl : FifoLevel) : Statement (.setFifoThreshold lvl) := commandWord_reserved _ _
theorem getFifoStatus : Statement .getFifoStatus := commandWord_reserved _ _

end Sys2Proof.Laws.EncodeReservedZero
end

