-- ==== Sys2Proof/Laws/Turns.lean ====
section
/-! SUPPORT. What a turn can do, said once: inversion lemmas for `step`, for a context's turn, and for the
transactions of an operation. -/

namespace Sys2Proof.Machine

/-! ### A step is a turn -/

/-- A step that answers a next state took one turn, with the schedule moved on. -/
theorem step_cases {s t : State} (h : step s = .next t) :
    ∃ turn, turnOf s = some turn ∧ takeTurn turn { s with schedule := s.schedule.tail } = .next t := by
  unfold step nextTurn at h
  unfold turnOf
  cases hs : s.schedule with
  | cons a rest => simp only [hs] at h; exact ⟨a, rfl, h⟩
  | nil =>
    simp only [hs] at h
    cases hd : defaultTurn s with
    | none => simp [hd] at h
    | some turn =>
      simp only [hd] at h
      have hsame : { s with schedule := [] } = s := by
        cases s; simp only at hs; subst hs; rfl
      refine ⟨turn, rfl, ?_⟩
      show takeTurn turn { s with schedule := [] } = _
      rw [hsame]; exact h

/-- A scheduled turn is what the step takes. -/
theorem step_of_schedule {s : State} {turn : Turn} {rest : List Turn} (h : s.schedule = turn :: rest) :
    step s = takeTurn turn { s with schedule := rest } := by
  simp [step, nextTurn, h]

/-! ### Transactions -/

/-- Transactions change the registers and the draw counter only. -/
theorem doTxns_outside (ts : List Txn) : ∀ (v : BusWord) (s : State),
    (doTxns ts v s).2 = { s with regs := (doTxns ts v s).2.regs, draws := (doTxns ts v s).2.draws } := by
  induction ts with
  | nil => intro v s; rfl
  | cons t ts ih =>
    intro v s
    cases t <;> simp only [doTxns, doTxn] <;> rw [ih] <;> rfl

theorem doTxns_append (ts us : List Txn) : ∀ (v : BusWord) (s : State),
    doTxns (ts ++ us) v s = doTxns us (doTxns ts v s).1 (doTxns ts v s).2 := by
  induction ts with
  | nil => intro v s; rfl
  | cons t ts ih => intro v s; exact ih _ _

/-- What holds of the registers and is kept by each write of the list holds after the list. -/
theorem doTxns_regs_induct (P : Regs → Prop) (ts : List Txn)
    (hw : ∀ r u, Txn.write r u ∈ ts → ∀ b g, P g → P (writeRule r (u.apply b) g)) :
    ∀ (v : BusWord) (s : State), P s.regs → P (doTxns ts v s).2.regs := by
  induction ts with
  | nil => intro v s h; exact h
  | cons t ts ih =>
    intro v s h
    refine ih (fun r u hm => hw r u (List.mem_cons_of_mem _ hm)) _ _ ?_
    cases t with
    | read r => exact h
    | write r u => exact hw r u List.mem_cons_self v _ h

/-! ### The parts of an operation that no transaction changes -/

/-- An operation's transactions and its end depend on the operation and the parameters only. -/
theorem operationOf_txns_of_params (i : Instr) {s t : State} (h : t.params = s.params) :
    (operationOf i t).txns = (operationOf i s).txns ∧ (operationOf i t).finish = (operationOf i s).finish := by
  cases i <;>
    simp [operationOf, opConstruct, opEnable, opDisable, opSetTargetMemory, opEnableInterrupt, opDisableInterrupt,
      opClearInterruptFlag, opGetInterruptFlag, opSetFifoThreshold, opGetFifoStatus, h]

/-- R274: every operation has one to five transactions. -/
theorem operationOf_txns_length (i : Instr) (s : State) :
    1 ≤ (operationOf i s).txns.length ∧ (operationOf i s).txns.length ≤ 5 := by
  cases i with
  | enableInterrupt ks => cases hf : ks.fe <;> simp [operationOf, opEnableInterrupt, KindSet.has, hf, setReg]
  | disableInterrupt ks => cases hf : ks.fe <;> simp [operationOf, opDisableInterrupt, KindSet.has, hf, clearReg]
  | _ =>
    simp [operationOf, opConstruct, constructTxns, writeReg, opEnable, opDisable, opSetTargetMemory, setReg, clearReg,
      changeReg, opClearInterruptFlag, opGetInterruptFlag, readReg, opSetFifoThreshold, opGetFifoStatus]

/-- Only CONSTRUCT ends by setting the latch. -/
theorem operationOf_finish_construct {i : Instr} {s : State} (h : (operationOf i s).finish = .construct) :
    ∃ cfg, i = .construct cfg := by
  cases i <;>
    simp [operationOf, opEnable, opDisable, opSetTargetMemory, opEnableInterrupt, opDisableInterrupt,
      opClearInterruptFlag, opGetInterruptFlag, opSetFifoThreshold, opGetFifoStatus] at h ⊢

/-! ### The end of an operation -/

/-- An operation ends with a result that is no fault, or with a fault; the registers are left alone, and the latch is
set by CONSTRUCT's end only. -/
theorem finishOp_cases (cmd : Command) (f : Finish) (v : BusWord) (s : State) :
    (∃ r, faultOf r = none ∧
      finishOp cmd f v s = complete r { s with constructed := s.constructed || decide (f = .construct) }) ∨
    (∃ code, f = .fifoStatus ∧ finishOp cmd f v s = raiseFault cmd code s) := by
  cases f with
  | unit => exact .inl ⟨.unit, rfl, by simp [finishOp]⟩
  | construct => exact .inl ⟨.unit, rfl, by simp [finishOp]⟩
  | flagBit n => exact .inl ⟨.flag (bitOf v n), rfl, by simp [finishOp]⟩
  | fifoStatus =>
    cases h : decodeFS (fsField v) with
    | none => exact .inr ⟨.unmappedFifoStatus (fsField v), rfl, by simp [finishOp, h]⟩
    | some st => exact .inl ⟨.fifo st, rfl, by simp [finishOp, h]⟩

/-- The end of an operation leaves the registers and the draws alone. -/
@[simp] theorem finishOp_regs (cmd : Command) (f : Finish) (v : BusWord) (s : State) :
    (finishOp cmd f v s).regs = s.regs := by
  rcases finishOp_cases cmd f v s with ⟨r, -, h⟩ | ⟨code, -, h⟩ <;> simp [h]

/-! ### A context's turn -/

/-- What the turn of a context can change, besides the registers (`contextTurn_regs_induct`) and the draw counter:
it completes a command with a fault, or completes one otherwise, or leaves an operation in flight. -/
structure ContextEffect (c : Nat) (x : Context) (s t : State) : Prop where
  params       : t.params = s.params
  engineActive : t.engineActive = s.engineActive
  schedule     : t.schedule = s.schedule
  issuer       : t.issuer = c
  constructed  : t.constructed = s.constructed ∨
    (t.constructed = true ∧ ∃ cfg, currentInstr c s = some (.construct cfg))
  hazards      : ∃ es, t.hazardLog = s.hazardLog ++ es ∧ ∀ e ∈ es, e.context = c
  contexts     :
    (∃ cmd code, t.contexts = s.contexts.modify c (Context.complete (.fault code)) ∧
      t.faultLog = s.faultLog ++ [{ context := c, command := cmd, code := code }] ∧
      t.constructed = s.constructed) ∨
    (∃ r, faultOf r = none ∧ t.contexts = s.contexts.modify c (Context.complete r) ∧ t.faultLog = s.faultLog ∧
      (t.constructed = true ∨
        ∃ i, currentInstr c s = some i ∧ isConstruct i = false ∧ (x.inflight = none → s.constructed = true))) ∨
    (∃ f, t.contexts = s.contexts.modify c (Context.setInflight f) ∧ t.faultLog = s.faultLog ∧
      currentInstr c s = some f.instr ∧ 0 < f.index ∧ f.index < (operationOf f.instr s).txns.length ∧
      (x.inflight = none → s.params.streamIndex < 8 ∧ (s.constructed = true ∨ isConstruct f.instr = true)))

/-- An operation whose checks pass is on a mapped index, and constructed unless it is CONSTRUCT. -/
theorem checks_pass {i : Instr} {s : State} (h : (operationOf i s).fault = none) :
    s.params.streamIndex < 8 ∧ (s.constructed = true ∨ isConstruct i = true) := by
  have hp : prologue s = none → s.params.streamIndex < 8 ∧ s.constructed = true := by
    unfold prologue
    intro h
    split_ifs at h with h1 h2
    exact ⟨by omega, by simpa using h2⟩
  cases i with
  | construct cfg =>
    refine ⟨?_, .inr rfl⟩
    simp only [operationOf, opConstruct, constructFault] at h
    split_ifs at h with h1
    omega
  | _ => exact ⟨(hp h).1, .inl (hp h).2⟩

/-- A state on the way through an operation of context `c` that began in `s`. -/
structure Midway (c : Nat) (s u : State) : Prop where
  params       : u.params = s.params
  engineActive : u.engineActive = s.engineActive
  schedule     : u.schedule = s.schedule
  issuer       : u.issuer = c
  constructed  : u.constructed = s.constructed
  faultLog     : u.faultLog = s.faultLog
  contexts     : u.contexts = s.contexts
  hazards      : ∃ es, u.hazardLog = s.hazardLog ++ es ∧ ∀ e ∈ es, e.context = c

theorem Midway.start (c : Nat) (s : State) : Midway c s { s with issuer := c } :=
  ⟨rfl, rfl, rfl, rfl, rfl, rfl, rfl, [], by simp⟩

theorem Midway.recordHazard {c : Nat} {s : State} (cmd : Command) (h : Option HazardCode) :
    Midway c s (recordHazard cmd h { s with issuer := c }) := by
  cases h with
  | none => exact Midway.start c s
  | some code => exact ⟨rfl, rfl, rfl, rfl, rfl, rfl, rfl, [_], rfl, by simp⟩

theorem Midway.doTxns {c : Nat} {s u : State} (h : Midway c s u) (ts : List Txn) (v : BusWord) :
    Midway c s (doTxns ts v u).2 := by
  rw [doTxns_outside]
  exact ⟨h.params, h.engineActive, h.schedule, h.issuer, h.constructed, h.faultLog, h.contexts, h.hazards⟩

theorem Midway.operationOf {c : Nat} {s u : State} (h : Midway c s u) (i : Instr) :
    (operationOf i u).txns = (operationOf i s).txns ∧ (operationOf i u).finish = (operationOf i s).finish :=
  operationOf_txns_of_params i h.params

/-- Ending an operation of context `c`. -/
theorem Midway.finishOp {c : Nat} {x : Context} {s u : State} {i : Instr} (h : Midway c s u)
    (hi : currentInstr c s = some i) (hx : x.inflight = none → s.constructed = true ∨ isConstruct i = true)
    (cmd : Command) (v : BusWord) : ContextEffect c x s (finishOp cmd (Machine.operationOf i s).finish v u) := by
  have hconstruct : ∀ cfg, i = .construct cfg → (Machine.operationOf i s).finish = .construct := by
    rintro cfg rfl; rfl
  rcases finishOp_cases cmd (Machine.operationOf i s).finish v u with ⟨r, hr, he⟩ | ⟨code, hf, he⟩
  · rw [he]
    refine ⟨h.params, h.engineActive, h.schedule, h.issuer, ?_, h.hazards, .inr (.inl ⟨r, hr, ?_, h.faultLog, ?_⟩)⟩
    · by_cases hc : (Machine.operationOf i s).finish = .construct
      · obtain ⟨cfg, rfl⟩ := operationOf_finish_construct hc
        exact .inr ⟨by simp [hc], cfg, hi⟩
      · exact .inl (by simp [hc, h.constructed])
    · simp [h.contexts, h.issuer]
    · by_cases hcon : isConstruct i = true
      · left
        cases i <;> first | (simp [isConstruct] at hcon; done) | skip
        simp [hconstruct _ rfl]
      · right
        exact ⟨i, hi, by simpa using hcon, fun hn => (hx hn).resolve_right hcon⟩
  · rw [he]
    exact ⟨h.params, h.engineActive, h.schedule, h.issuer, .inl h.constructed, h.hazards,
      .inl ⟨cmd, code, by simp [h.contexts, h.issuer], by simp [h.faultLog, h.issuer], h.constructed⟩⟩

/-- Raising a fault in context `c`. -/
theorem Midway.raiseFault {c : Nat} (x : Context) {s u : State} (h : Midway c s u) (cmd : Command) (code : FaultCode) :
    ContextEffect c x s (raiseFault cmd code u) :=
  ⟨h.params, h.engineActive, h.schedule, h.issuer, .inl h.constructed, h.hazards,
    .inl ⟨cmd, code, by simp [h.contexts, h.issuer], by simp [h.faultLog, h.issuer], h.constructed⟩⟩

/-- One transaction of an operation of context `c`, and what follows it. -/
theorem Midway.advance {c : Nat} {x : Context} {s u : State} {f : InFlight} (h : Midway c s u)
    (hi : currentInstr c s = some f.instr)
    (hx : x.inflight = none → s.params.streamIndex < 8 ∧ (s.constructed = true ∨ isConstruct f.instr = true)) :
    ContextEffect c x s (advance f u) := by
  have hop := h.operationOf f.instr
  unfold Machine.advance
  simp only [hop.1, hop.2]
  split
  · exact h.finishOp hi (fun hn => (hx hn).2) _ _
  · next t rest hdrop =>
    have hm := h.doTxns [t] f.v
    change Midway c s (doTxn t f.v u).2 at hm
    split
    · exact hm.finishOp hi (fun hn => (hx hn).2) _ _
    · next t' rest' =>
      refine ⟨hm.params, hm.engineActive, hm.schedule, hm.issuer, .inl hm.constructed, hm.hazards,
        .inr (.inr ⟨{ instr := f.instr, index := f.index + 1, v := (doTxn t f.v u).1 }, ?_, hm.faultLog, hi,
          Nat.succ_pos _, ?_, hx⟩)⟩
      · simp [hm.contexts, hm.issuer]
      · have := congrArg List.length hdrop
        simp at this ⊢
        omega

/-- INVERSION OF A CONTEXT'S TURN, of either grain: the context exists, and the turn has a `ContextEffect`. -/
theorem contextTurn_effect {turn : Turn} {c : Nat} {s t : State} (hc : contextOf turn = some c)
    (h : takeTurn turn s = .next t) : ∃ x, s.contexts[c]? = some x ∧ ContextEffect c x s t := by
  have key : ∀ (hturn : (turn = .whole c) ∨ (turn = .txn c)), ∃ x, s.contexts[c]? = some x ∧ ContextEffect c x s t := by
    intro hturn
    cases hx : s.contexts[c]? with
    | none => rcases hturn with rfl | rfl <;> simp [takeTurn, wholeTurn, txnTurn, hx] at h
    | some x =>
      refine ⟨x, rfl, ?_⟩
      cases hf : x.inflight with
      | some f =>
        have hi : currentInstr c s = some f.instr := by simp [currentInstr, hx, hf]
        have hn : ∀ {P : Prop}, x.inflight = none → P := fun h => by rw [hf] at h; cases h
        rcases hturn with rfl | rfl
        · simp only [takeTurn, wholeTurn, hx, hf, Host.Outcome.next.injEq] at h
          subst h
          have hm := Midway.start c s
          unfold finishInflight
          simp only [(hm.operationOf f.instr).1, (hm.operationOf f.instr).2]
          exact (hm.doTxns _ _).finishOp hi hn _ _
        · simp only [takeTurn, txnTurn, hx, hf, Host.Outcome.next.injEq] at h
          subst h
          exact (Midway.start c s).advance hi hn
      | none =>
        cases hcmd : x.next with
        | none => rcases hturn with rfl | rfl <;> simp [takeTurn, wholeTurn, txnTurn, hx, hf, hcmd] at h
        | some cmd =>
          cases hd : decode cmd with
          | error e =>
            obtain ⟨w⟩ := e
            have he : t = raiseFault cmd (.illegalCommand w) { s with issuer := c } := by
              rcases hturn with rfl | rfl <;>
                simp [takeTurn, wholeTurn, txnTurn, hx, hf, hcmd, hd, illegalCommand] at h <;> exact h.symm
            rw [he]
            exact (Midway.start c s).raiseFault x cmd _
          | ok i =>
            have hi : currentInstr c s = some i := by simp [currentInstr, hx, hf, hcmd, hd]
            have hm := Midway.start c s
            rcases hturn with rfl | rfl
            · simp only [takeTurn, wholeTurn, hx, hf, hcmd, hd, exec_eq_runOp, Host.Outcome.next.injEq] at h
              subst h
              unfold runOp
              cases hfault : (operationOf i { s with issuer := c }).fault with
              | some code => exact hm.raiseFault x _ _
              | none =>
                have hpass := checks_pass hfault
                simp only [(hm.operationOf i).2]
                exact ((Midway.recordHazard _ _).doTxns _ _).finishOp hi (fun _ => hpass.2) _ _
            · simp only [takeTurn, txnTurn, hx, hf, hcmd, hd, Host.Outcome.next.injEq] at h
              subst h
              unfold startOp
              simp only
              cases hfault : (operationOf i { s with issuer := c }).fault with
              | some code => exact hm.raiseFault x _ _
              | none =>
                have hpass := checks_pass hfault
                exact (Midway.recordHazard _ _).advance hi (fun _ => hpass)
  cases turn with
  | whole d => simp only [contextOf, Option.some.injEq] at hc; subst hc; exact key (.inl rfl)
  | txn d => simp only [contextOf, Option.some.injEq] at hc; subst hc; exact key (.inr rfl)
  | engine m => simp [contextOf] at hc
  | foreign a => simp [contextOf] at hc

/-- One transaction of an operation keeps what its writes keep. -/
theorem advance_regs_induct (P : Regs → Prop) (f : InFlight) (s : State)
    (hw : ∀ r u, Txn.write r u ∈ (operationOf f.instr s).txns → ∀ b g, P g → P (writeRule r (u.apply b) g))
    (h : P s.regs) : P (advance f s).regs := by
  unfold advance
  simp only
  split
  · rw [finishOp_regs]; exact h
  · next t rest hdrop =>
    have hmem : t ∈ (operationOf f.instr s).txns :=
      List.mem_of_mem_drop (hdrop ▸ List.mem_cons_self : t ∈ (operationOf f.instr s).txns.drop f.index)
    have hone := doTxns_regs_induct P [t] (fun r u hm => hw r u (by simp at hm; exact hm ▸ hmem)) f.v s h
    change P (doTxn t f.v s).2.regs at hone
    split
    · rw [finishOp_regs]; exact hone
    · exact hone

/-- THE REGISTERS IN A CONTEXT'S TURN: whatever holds of them and is kept by each write of the operation the context
is at, holds after the turn. -/
theorem contextTurn_regs_induct (P : Regs → Prop) {turn : Turn} {c : Nat} {s t : State}
    (hc : contextOf turn = some c) (h : takeTurn turn s = .next t)
    (hw : ∀ i, currentInstr c s = some i → ∀ r u, Txn.write r u ∈ (operationOf i s).txns →
      ∀ b g, P g → P (writeRule r (u.apply b) g))
    (h0 : P s.regs) : P t.regs := by
  have hop : ∀ i (u : State), u.params = s.params → (operationOf i u).txns = (operationOf i s).txns :=
    fun i u hu => (operationOf_txns_of_params i hu).1
  have key : ∀ (hturn : (turn = .whole c) ∨ (turn = .txn c)), P t.regs := by
    intro hturn
    cases hx : s.contexts[c]? with
    | none => rcases hturn with rfl | rfl <;> simp [takeTurn, wholeTurn, txnTurn, hx] at h
    | some x =>
      cases hf : x.inflight with
      | some f =>
        have hi : currentInstr c s = some f.instr := by simp [currentInstr, hx, hf]
        rcases hturn with rfl | rfl
        · simp only [takeTurn, wholeTurn, hx, hf, Host.Outcome.next.injEq] at h
          subst h
          unfold finishInflight
          simp only [finishOp_regs, hop f.instr { s with issuer := c } rfl]
          exact doTxns_regs_induct P _ (fun r u hm => hw _ hi r u (List.mem_of_mem_drop hm)) _ _ h0
        · simp only [takeTurn, txnTurn, hx, hf, Host.Outcome.next.injEq] at h
          subst h
          exact advance_regs_induct P f _ (by rw [hop f.instr { s with issuer := c } rfl]; exact hw _ hi) h0
      | none =>
        cases hcmd : x.next with
        | none => rcases hturn with rfl | rfl <;> simp [takeTurn, wholeTurn, txnTurn, hx, hf, hcmd] at h
        | some cmd =>
          cases hd : decode cmd with
          | error e =>
            obtain ⟨w⟩ := e
            have he : t = raiseFault cmd (.illegalCommand w) { s with issuer := c } := by
              rcases hturn with rfl | rfl <;>
                simp [takeTurn, wholeTurn, txnTurn, hx, hf, hcmd, hd, illegalCommand] at h <;> exact h.symm
            rw [he]; exact h0
          | ok i =>
            have hi : currentInstr c s = some i := by simp [currentInstr, hx, hf, hcmd, hd]
            rcases hturn with rfl | rfl
            · simp only [takeTurn, wholeTurn, hx, hf, hcmd, hd, exec_eq_runOp, Host.Outcome.next.injEq] at h
              subst h
              unfold runOp
              split
              · exact h0
              · simp only [finishOp_regs, hop i { s with issuer := c } rfl]
                exact doTxns_regs_induct P _ (hw _ hi) _ _ (by simpa using h0)
            · simp only [takeTurn, txnTurn, hx, hf, hcmd, hd, Host.Outcome.next.injEq] at h
              subst h
              unfold startOp
              simp only
              split
              · exact h0
              · exact advance_regs_induct P _ _ (by rw [hop _ _ (by simp)]; exact hw _ hi) (by simpa using h0)
  cases turn with
  | whole d => simp only [contextOf, Option.some.injEq] at hc; subst hc; exact key (.inl rfl)
  | txn d => simp only [contextOf, Option.some.injEq] at hc; subst hc; exact key (.inr rfl)
  | engine m => simp [contextOf] at hc
  | foreign a => simp [contextOf] at hc

/-- A context whose turn answers a next state has an operation in flight or a command to take. -/
theorem contextTurn_busy {turn : Turn} {c : Nat} {x : Context} {s t : State} (hc : contextOf turn = some c)
    (hx : s.contexts[c]? = some x) (h : takeTurn turn s = .next t) (hf : x.inflight = none) :
    ∃ cmd, x.next = some cmd := by
  cases hn : x.next with
  | some cmd => exact ⟨cmd, rfl⟩
  | none =>
    cases turn with
    | whole d =>
      simp only [contextOf, Option.some.injEq] at hc; subst hc
      simp [takeTurn, wholeTurn, hx, hf, hn] at h
    | txn d =>
      simp only [contextOf, Option.some.injEq] at hc; subst hc
      simp [takeTurn, txnTurn, hx, hf, hn] at h
    | engine m => simp [contextOf] at hc
    | foreign a => simp [contextOf] at hc

/-! ### Turns of the other agents -/

/-- INVERSION OF A TURN: a context's, an engine move that is enabled, or a foreign access. -/
theorem takeTurn_cases {turn : Turn} {s t : State} (h : takeTurn turn s = .next t) :
    (∃ c, contextOf turn = some c) ∨ (∃ m, turn = .engine m ∧ engineMove m s = some t) ∨
    (∃ a, turn = .foreign a ∧ t = foreignAccess a s) := by
  cases turn with
  | whole c => exact .inl ⟨c, rfl⟩
  | txn c => exact .inl ⟨c, rfl⟩
  | engine m =>
    simp only [takeTurn, engineTurn] at h
    cases hm : engineMove m s with
    | none => simp [hm] at h
    | some u => simp [hm] at h; exact .inr (.inl ⟨m, rfl, by rw [hm, h]⟩)
  | foreign a => simp only [takeTurn, Host.Outcome.next.injEq] at h; exact .inr (.inr ⟨a, rfl, h.symm⟩)

/-- R87: an engine move changes registers and the engine's activity only. -/
theorem engineMove_outside {m : EngineMove} {s t : State} (h : engineMove m s = some t) :
    t = { s with regs := t.regs, engineActive := t.engineActive } := by
  cases m <;> simp only [engineMove] at h
  · cases h; unfold assertFlag; simp only; split <;> rfl
  · cases h; rfl
  all_goals split_ifs at h <;> cases h <;> rfl

/-- R87: an engine move leaves the addresses, the three software fields of `FCR`, and every bit of `CR` but `EN` and
`CT` alone, and clears no flag. -/
theorem engineMove_regs {m : EngineMove} {s t : State} (h : engineMove m s = some t) :
    t.regs.par = s.regs.par ∧ t.regs.m0ar = s.regs.m0ar ∧ t.regs.m1ar = s.regs.m1ar ∧
    t.regs.fcr = { s.regs.fcr with fs := t.regs.fcr.fs } ∧
    (∀ j, j ≠ 0 → j ≠ 19 → t.regs.cr.getLsbD j = s.regs.cr.getLsbD j) ∧
    (crEn t.regs.cr = true → crEn s.regs.cr = true) ∧
    (∀ j, s.regs.lisr.getLsbD j = true → t.regs.lisr.getLsbD j = true) ∧
    (∀ j, s.regs.hisr.getLsbD j = true → t.regs.hisr.getLsbD j = true) := by
  cases m <;> simp only [engineMove] at h
  · cases h; unfold assertFlag; simp only; split <;> simp +contextual
  · cases h; simp
  · split_ifs at h; cases h; simp
  · split_ifs at h; cases h
    refine ⟨rfl, rfl, rfl, rfl, ?_, ?_, fun _ h => h, fun _ h => h⟩
    · intro j h0 h19
      have : ∀ j, j < 25 → j ≠ 0 → (~~~1#25).getLsbD j = true := by decide
      by_cases hj : j < 25
      · simp only [BitVec.getLsbD_and, this j hj h0, Bool.and_true]
      · simp only [BitVec.getLsbD_of_ge _ _ (by omega : 25 ≤ j)]
    · simp [crEn]
  · split_ifs at h; cases h
    refine ⟨rfl, rfl, rfl, rfl, ?_, ?_, fun _ h => h, fun _ h => h⟩
    · intro j h0 h19
      have : ∀ j, j < 25 → j ≠ 19 → (1#25 <<< 19).getLsbD j = false := by decide
      by_cases hj : j < 25
      · simp only [BitVec.getLsbD_xor, this j hj h19, Bool.xor_false]
      · simp only [BitVec.getLsbD_of_ge _ _ (by omega : 25 ≤ j)]
    · simp [crEn]
  · split_ifs at h <;> cases h <;> simp

/-- R74: a foreign access changes registers and the draw counter only. -/
theorem foreignAccess_outside (a : ForeignAccess) (s : State) :
    foreignAccess a s =
      { s with regs := (foreignAccess a s).regs, draws := (foreignAccess a s).draws } := by
  cases a <;> rfl

/-- What every turn leaves alone: the parameters, the latch once it is set, and the number of contexts. -/
theorem takeTurn_outside {turn : Turn} {s t : State} (h : takeTurn turn s = .next t) :
    t.params = s.params ∧ (s.constructed = true → t.constructed = true) ∧
      t.contexts.length = s.contexts.length := by
  rcases takeTurn_cases h with ⟨c, hc⟩ | ⟨m, rfl, hm⟩ | ⟨a, rfl, rfl⟩
  · obtain ⟨x, -, e⟩ := contextTurn_effect hc h
    refine ⟨e.params, ?_, ?_⟩
    · rcases e.constructed with h | h
      · rw [h]; exact id
      · exact fun _ => h.1
    · rcases e.contexts with ⟨_, _, h, _⟩ | ⟨_, _, h, _⟩ | ⟨_, h, _⟩ <;> rw [h] <;> simp
  · rw [engineMove_outside hm]; simp
  · rw [foreignAccess_outside a s]; simp

/-- Turns of the engine and of foreign software leave the contexts, the parameters and the latch alone. -/
theorem takeTurns_noContextTurn (ts : List Turn) : ∀ (s u : State), noContextTurn ts = true →
    takeTurns ts s = .next u →
    u.contexts = s.contexts ∧ u.params = s.params ∧ u.constructed = s.constructed := by
  induction ts with
  | nil =>
    intro s u _ h
    simp only [takeTurns, Host.Outcome.next.injEq] at h
    subst h; exact ⟨rfl, rfl, rfl⟩
  | cons t ts ih =>
    intro s u hn h
    simp only [noContextTurn, List.all_cons, Bool.and_eq_true] at hn
    simp only [takeTurns] at h
    split at h
    · next s' hs =>
      obtain ⟨a, b, c⟩ := ih s' u hn.2 h
      rcases takeTurn_cases hs with ⟨c, hc⟩ | ⟨m, rfl, hm⟩ | ⟨f, rfl, hf⟩
      · simp [hc] at hn
      · rw [a, b, c, engineMove_outside hm]; simp
      · rw [a, b, c, hf, foreignAccess_outside f s]; simp
    · cases h
    · cases h

/-- A context's turn leaves the other contexts alone. -/
theorem contextTurn_others {turn : Turn} {c : Nat} {s t : State} (hc : contextOf turn = some c)
    (h : takeTurn turn s = .next t) (d : Nat) (hd : d ≠ c) : t.contexts[d]? = s.contexts[d]? := by
  obtain ⟨x, -, e⟩ := contextTurn_effect hc h
  rcases e.contexts with ⟨_, _, h, _⟩ | ⟨_, _, h, _⟩ | ⟨_, h, _⟩ <;> rw [h] <;> simp [hd.symm]

/-- Turns of the other agents and contexts leave context `c`, the parameters and a set latch alone. -/
theorem takeTurns_noTurnOf (c : Nat) (ts : List Turn) : ∀ (s u : State), noTurnOf c ts = true →
    takeTurns ts s = .next u →
    u.contexts[c]? = s.contexts[c]? ∧ u.params = s.params ∧ (s.constructed = true → u.constructed = true) := by
  induction ts with
  | nil =>
    intro s u _ h
    simp only [takeTurns, Host.Outcome.next.injEq] at h
    subst h; exact ⟨rfl, rfl, id⟩
  | cons t ts ih =>
    intro s u hn h
    simp only [noTurnOf, List.all_cons, Bool.and_eq_true, bne_iff_ne, ne_eq] at hn
    simp only [takeTurns] at h
    split at h
    · next s' hs =>
      obtain ⟨a, b, d⟩ := ih s' u hn.2 h
      obtain ⟨p, q, -⟩ := takeTurn_outside hs
      refine ⟨?_, b.trans p, fun hc => d (q hc)⟩
      rcases takeTurn_cases hs with ⟨e, he⟩ | ⟨m, rfl, hm⟩ | ⟨f, rfl, hf⟩
      · exact a.trans (contextTurn_others he hs c fun hce => hn.1 (by rw [he, hce]))
      · rw [a, engineMove_outside hm]
      · rw [a, hf, foreignAccess_outside f s]
    · cases h
    · cases h

/-! ### An operation is its transactions -/

/-- Completing a command forgets what was in flight. -/
theorem modify_setInflight_complete (l : List Context) (c : Nat) (r : Result) (g : InFlight) :
    (l.modify c (Context.setInflight g)).modify c (Context.complete r) = l.modify c (Context.complete r) := by
  rw [List.modify_modify_eq]; rfl

/-- The end of an operation does not see what the issuer has in flight. -/
theorem finishOp_setInflight (cmd : Command) (f : Finish) (v : BusWord) (s : State) (g : InFlight) :
    finishOp cmd f v { s with contexts := s.contexts.modify s.issuer (Context.setInflight g) } = finishOp cmd f v s := by
  cases f <;> simp only [finishOp, complete, modify_setInflight_complete]
  split <;> simp only [raiseFault, complete, modify_setInflight_complete]

/-- Transactions do not see the contexts. -/
theorem doTxns_contexts (ts : List Txn) : ∀ (v : BusWord) (s : State) (k : List Context),
    doTxns ts v { s with contexts := k } = ((doTxns ts v s).1, { (doTxns ts v s).2 with contexts := k }) := by
  induction ts with
  | nil => intro v s k; rfl
  | cons t ts ih =>
    intro v s k
    cases t with
    | read r => exact ih (memReadWord r s) (afterRead s) k
    | write r u => exact ih v (memWrite r (u.apply v) s) k

/-- One transaction of an operation that has more to come leaves it in flight at the next. -/
theorem advance_of_more {f : InFlight} {s : State} {t t' : Txn} {rest : List Txn}
    (h : (operationOf f.instr s).txns.drop f.index = t :: t' :: rest) :
    advance f s = { (doTxn t f.v s).2 with
      contexts := s.contexts.modify s.issuer
        (Context.setInflight { instr := f.instr, index := f.index + 1, v := (doTxn t f.v s).1 }) } := by
  unfold advance
  simp only [h]
  cases t <;> rfl

/-- After one transaction, finishing the operation is what finishing it before that transaction was. -/
theorem finishInflight_advance {f : InFlight} {s : State} {t t' : Txn} {rest : List Txn}
    (h : (operationOf f.instr s).txns.drop f.index = t :: t' :: rest) :
    finishInflight { instr := f.instr, index := f.index + 1, v := (doTxn t f.v s).1 } (advance f s) =
      finishInflight f s := by
  have hdrop : (operationOf f.instr s).txns.drop (f.index + 1) = t' :: rest := by
    rw [← List.drop_drop, h]; rfl
  have hp : (advance f s).params = s.params := by rw [advance_of_more h]; cases t <;> rfl
  have hop := operationOf_txns_of_params f.instr hp
  unfold finishInflight
  simp only [hop.1, hop.2, hdrop, h]
  rw [advance_of_more h, doTxns_contexts]
  rw [doTxns.eq_def (t :: t' :: rest)]
  simp only
  set a := doTxns (t' :: rest) (doTxn t f.v s).1 (doTxn t f.v s).2 with ha
  have hc : a.2.contexts = s.contexts ∧ a.2.issuer = s.issuer := by
    rw [ha, doTxns_outside]; cases t <;> exact ⟨rfl, rfl⟩
  rw [← hc.1, ← hc.2, finishOp_setInflight]

/-- The last transaction of an operation finishes it. -/
theorem advance_of_last {f : InFlight} {s : State} (h : (operationOf f.instr s).txns.length ≤ f.index + 1) :
    advance f s = finishInflight f s := by
  unfold advance finishInflight
  have hl : ((operationOf f.instr s).txns.drop f.index).length ≤ 1 := by simp; omega
  match hd : (operationOf f.instr s).txns.drop f.index with
  | [] => simp only [hd]; rfl
  | [t] => simp only [hd]; rfl
  | _ :: _ :: _ => rw [hd] at hl; simp at hl

/-- An operation in flight with `n + 1` transactions left ends after as many transaction turns of its context. -/
theorem inflight_run (c : Nat) : ∀ (n : Nat) (s : State) (x : Context) (f : InFlight),
    s.contexts[c]? = some x → x.inflight = some f → (operationOf f.instr s).txns.length = f.index + n + 1 →
    takeTurns (List.replicate (n+1) (.txn c)) s = .next (finishInflight f { s with issuer := c }) := by
  intro n
  induction n with
  | zero =>
    intro s x f hx hf hl
    have hop := operationOf_txns_of_params f.instr (s := s) (t := { s with issuer := c }) rfl
    simp only [List.replicate, takeTurns, takeTurn, txnTurn, hx, hf]
    rw [advance_of_last (by rw [hop.1]; omega)]
  | succ n ih =>
    intro s x f hx hf hl
    have hop := operationOf_txns_of_params f.instr (s := s) (t := { s with issuer := c }) rfl
    rw [List.replicate_succ]
    simp only [takeTurns, takeTurn, txnTurn, hx, hf]
    obtain ⟨t, t', rest, hdrop⟩ : ∃ t t' rest,
        (operationOf f.instr { s with issuer := c }).txns.drop f.index = t :: t' :: rest := by
      have hlen : 2 ≤ ((operationOf f.instr { s with issuer := c }).txns.drop f.index).length := by
        simp [hop.1]; omega
      match hd : (operationOf f.instr { s with issuer := c }).txns.drop f.index with
      | [] => rw [hd] at hlen; simp at hlen
      | [_] => rw [hd] at hlen; simp at hlen
      | t :: t' :: rest => exact ⟨t, t', rest, rfl⟩
    have ha := advance_of_more hdrop
    have hpar : (advance f { s with issuer := c }).params = s.params := by rw [ha]; cases t <;> rfl
    have hiss : (advance f { s with issuer := c }).issuer = c := by rw [ha]; cases t <;> rfl
    rw [ih _ (x.setInflight { instr := f.instr, index := f.index + 1, v := (doTxn t f.v { s with issuer := c }).1 }) _
      (by rw [ha]; simp [hx]) rfl (by rw [(operationOf_txns_of_params f.instr hpar).1]; simp; omega)]
    rw [← finishInflight_advance hdrop]
    congr 2
    rw [ha]; cases t <;> rfl

/-- A turn list that starts with one turn. -/
theorem takeTurns_cons {t : Turn} {ts : List Turn} {s u : State} (h : takeTurns (t :: ts) s = .next u) :
    ∃ s', takeTurn t s = .next s' ∧ takeTurns ts s' = .next u := by
  simp only [takeTurns] at h
  split at h
  · next s' hs => exact ⟨s', hs, h⟩
  · cases h
  · cases h

/-- Turns one list after another. -/
theorem takeTurns_append {ts us : List Turn} : ∀ {s u : State}, takeTurns (ts ++ us) s = .next u →
    ∃ s', takeTurns ts s = .next s' ∧ takeTurns us s' = .next u := by
  induction ts with
  | nil => intro s u h; exact ⟨s, rfl, h⟩
  | cons t ts ih =>
    intro s u h
    obtain ⟨s1, h1, h2⟩ := takeTurns_cons h
    obtain ⟨s2, h3, h4⟩ := ih h2
    exact ⟨s2, by simp only [takeTurns, h1]; exact h3, h4⟩

/-- The next transaction of a context, at transaction `k` of an operation whose checks pass and that records no hazard,
is that transaction. -/
theorem txnTurn_atTransaction {c k : Nat} {i : Instr} {s : State} (h : AtTransaction c i k s)
    (hf : (operationOf i s).fault = none) (hz : (operationOf i s).hazard = none)
    (hi : ∀ t : State, t.params = s.params → t.constructed = s.constructed → t.regs = s.regs →
      t.engineActive = s.engineActive → operationOf i t = operationOf i s) :
    ∃ v, takeTurn (.txn c) s = .next (advance { instr := i, index := k, v := v } { s with issuer := c }) := by
  rcases h with ⟨rfl, cmd, ⟨x, hx, hfl, hn⟩, hd⟩ | ⟨x, v, hx, hfl⟩
  · have hnx : x.next = some cmd := hn
    refine ⟨BusWord.zero, ?_⟩
    simp only [takeTurn, txnTurn, hx, hfl, hnx, hd, startOp, hi { s with issuer := c } rfl rfl rfl rfl, hf, hz,
      recordHazard]
  · exact ⟨v, by simp only [takeTurn, txnTurn, hx, hfl]⟩

end Sys2Proof.Machine
end

