-- ==== Sys2Proof/Tests/Slice0.lean ====
section
/-! SUPPORT. Tests: expected values from 95_test_vectors.md (the vector's number stands at each), the checks of
WellFormed.lean on ill-formed terms, and a witness for the hypotheses of every statement of Obligations.lean. -/

namespace Sys2Proof.Tests

open Sys2Proof.Machine

/-! ### Small states -/

/-- The reset instance of R262, constructed, on stream `i`. -/
def readyOn (i : Nat) : State :=
  { State.reset with constructed := true, params := { Params.default with streamIndex := i } }

/-- With this `CR`. -/
def withCr (cr : BitVec 25) (s : State) : State := { s with regs := { s.regs with cr := cr } }

/-- With the fields of this `FCR` word (R32). -/
def withFcr (w : Word) (s : State) : State :=
  { s with regs := { s.regs with
    fcr := { fth := w.extractLsb' 0 2, fcr2 := w.getLsbD 2, fs := w.extractLsb' 3 3, feie := w.getLsbD 7 } } }

/-- With these flags. -/
def withFlags (lisr hisr : BitVec 20) (s : State) : State :=
  { s with regs := { s.regs with lisr := lisr, hisr := hisr } }

/-- With one context for each command sequence. -/
def withProgs (progs : List (List Command)) (s : State) : State := { s with contexts := progs.map Context.start }

/-- With these turns next. -/
def withTurns (ts : List Turn) (s : State) : State := { s with schedule := ts }

/-- The record of V1, row 2. -/
def recordV1 : Record :=
  { dir := .m2p, psize := .byte, msize := .byte, pinc := false, minc := true, par := 0x40004004#32,
    m0ar := 0x20000000#32, count := 128#32 }

/-- The registers after a step. -/
def regsOf : Host.Outcome State Fault Refusal → Option Regs
  | .next t => some t.regs
  | .fault _ => none
  | .refused _ => none

/-- The last result of the first context after a step. -/
def resultOf : Host.Outcome State Fault Refusal → Option Result
  | .next t => (t.contexts[0]?).bind fun x => x.results.getLast?
  | .fault _ => none
  | .refused _ => none

/-- `CR` and the 32-bit view of `FCR` after a step. -/
def crFcr (o : Host.Outcome State Fault Refusal) : Option (BitVec 25 × Word) :=
  (regsOf o).map fun g => (g.cr, g.fcr.toWord)

/-- `LISR` and `HISR` after a step. -/
def flagsAfter (o : Host.Outcome State Fault Refusal) : Option (BitVec 20 × BitVec 20) :=
  (regsOf o).map fun g => (g.lisr, g.hisr)

/-- The step that runs one command word. -/
def runWord (w : Nat) (s : State) : Host.Outcome State Fault Refusal := step (s.withFetchWord 32 w)

/-! ### Decoding: words written out from R91 to R97 (V9) -/

theorem test_decode_construct :
    decode { word := 0b00000000000000000000000000000000#32, record := recordV1 } = .ok (.construct recordV1) := by
  decide
theorem test_decode_enable : decode { word := 0b00000000000000000000000000000001#32 } = .ok .enable := by decide
theorem test_decode_disable : decode { word := 0b00000000000000000000000000000010#32 } = .ok .disable := by decide
theorem test_decode_setTargetMemory :
    decode { word := 0b00000000000000000000000000010011#32 } = .ok (.setTargetMemory .buffer1) := by decide
theorem test_decode_enableInterrupt :
    decode { word := 0b00000000000000000000000101010100#32 } =
      .ok (.enableInterrupt { tc := true, te := true, fe := true }) := by decide
theorem test_decode_disableInterrupt :
    decode { word := 0b00000000000000000000000101000101#32 } =
      .ok (.disableInterrupt { te := true, fe := true }) := by decide
theorem test_decode_clearInterruptFlag :
    decode { word := 0b00000000000000000000000001000110#32 } = .ok (.clearInterruptFlag .fe) := by decide
theorem test_decode_getInterruptFlag :
    decode { word := 0b00000000000000000000000000110111#32 } = .ok (.getInterruptFlag .dme) := by decide
theorem test_decode_setFifoThreshold :
    decode { word := 0b00000000000000000000000000111000#32 } = .ok (.setFifoThreshold .full) := by decide
theorem test_decode_getFifoStatus :
    decode { word := 0b00000000000000000000000000001001#32 } = .ok .getFifoStatus := by decide
/-- V9: the illegal words of the table, each with its own reason to be illegal. -/
theorem test_decode_illegal :
    [0x23, 0x2F4, 0x56, 0x76, 0x86, 0x48, 0x19, 0x11, 0xA, 0xF, 0x1001, 0x80000004, 0xFFFFFFFF].map
      (decodeTableWord 32) = List.replicate 13 none := by decide

/-! ### Assembler text (R112, R113) -/

/-- R113, V21: the single-kind form, and a mnemonic in capitals. -/
theorem test_assemble_single_kind :
    (assembleText "Disable_Interrupt FE".toList).map Command.word = some 0x105#32 := by decide
/-- The empty set (V21). -/
theorem test_assemble_empty_set :
    (assembleText ("enable_interrupt ".toList ++ [openBraceChar, closeBraceChar])).map Command.word = some 0x4#32 := by
  decide
/-- P4: an optional operand before a required one, and a decimal count. -/
theorem test_assemble_construct :
    (assembleText ("construct dir=P2M, psize=WORD, msize=WORD, pinc=0, minc=1, par=0x4001100C, m0ar=0x24000000, " ++
      "m1ar=0x24000400, count=256, pl=MEDIUM, circ=1, dbm=1, mburst=INCR4").toList).map
        (fun c => (encodeCR c.record, c.record.m1ar, c.record.count)) =
      some (0x00855500#32, 0x24000400#32, 256#32) := by decide +kernel
/-- An operand left out, a kind that is none, and an operand too many. -/
theorem test_assemble_refuses :
    assembleText "construct dir=P2M".toList = none ∧ assembleText "clear_interrupt_flag XX".toList = none ∧
    assembleText "enable 1".toList = none := by decide

/-! ### WellFormed refuses ill-formed terms -/

theorem test_wf_record : recordV1.wf = true := by decide
theorem test_wf_refuses_reserved_dir : Instr.wf (.construct { recordV1 with dir := .reserved }) = false := by decide
theorem test_wf_refuses_reserved_psize : Instr.wf (.construct { recordV1 with psize := .reserved }) = false := by decide
theorem test_wf_refuses_reserved_msize : Instr.wf (.construct { recordV1 with msize := .reserved }) = false := by decide
theorem test_wf_refuses_equal_flag_bits : FlagBits.wf { ht := 2 } = false := by decide
theorem test_wf_refuses_equal_addresses :
    RegAddrs.wf { Params.default.regAddrs with ndtr := Params.default.regAddrs.cr } = false := by decide
theorem test_wf_refuses_unaligned_address :
    RegAddrs.wf { Params.default.regAddrs with par := 0x40020091#32 } = false := by decide
theorem test_wf_refuses_missing_controller : Params.wf { Params.default with controller := 2 } = false := by decide
theorem test_wf_default_params : Params.default.wf = true := by decide

/-! ### One step of each operation -/

/-- V1, V16: `CR` 0x440 over a live stream; `FCR` stays 0xA3; the hazard is recorded. -/
theorem test_construct_live :
    let s := withFcr 0xA3#32 (withCr 0x455#25 (readyOn 5))
    crFcr (exec (.construct recordV1) s) = some (0x440#25, 0xA3#32) := by decide
/-- V15: `par = 0x40004005` with HALFWORD is condition (b), and writes nothing. -/
theorem test_construct_misaligned :
    let bad : Record := { recordV1 with par := 0x40004005#32, psize := .halfword }
    let o := exec (.construct bad) (readyOn 5)
    resultOf o = some (.fault (.invalidConfiguration .badPar)) ∧ regsOf o = some Regs.silicon := by decide
/-- V17. -/
theorem test_enable : crFcr (runWord 0x1 (withCr 0x01F7D7A0#25 (readyOn 5))) = some (0x01F7D7A1#25, 0x21#32) := by
  decide
/-- V17: before construction. -/
theorem test_enable_not_constructed : resultOf (runWord 0x1 State.reset) = some (.fault .notConstructed) := by decide
/-- V17. -/
theorem test_disable : crFcr (runWord 0x2 (withCr 0x441#25 (readyOn 5))) = some (0x440#25, 0x21#32) := by decide
/-- V18: `DBM = 0`, written all the same. -/
theorem test_setTargetMemory_1 :
    crFcr (runWord 0x13 (withCr 0x40#25 (readyOn 5))) = some (0x80040#25, 0x21#32) := by decide
/-- V18. -/
theorem test_setTargetMemory_0 :
    crFcr (runWord 0x3 (withCr 0xC0100#25 (readyOn 5))) = some (0x40100#25, 0x21#32) := by decide
/-- V19: FE goes to `FCR`. -/
theorem test_enableInterrupt_fe :
    crFcr (runWord 0x104 (withCr 0x40#25 (readyOn 5))) = some (0x40#25, 0xA1#32) := by decide
/-- V5: all five kinds. -/
theorem test_enableInterrupt_all :
    crFcr (runWord 0x1F4 (withCr 0x40#25 (readyOn 5))) = some (0x5E#25, 0xA1#32) := by decide
/-- V19. -/
theorem test_disableInterrupt :
    crFcr (runWord 0x145 (withFcr 0xA1#32 (withCr 0x5E#25 (readyOn 5)))) = some (0x5A#25, 0x21#32) := by decide
/-- V22: stream 2, TE. -/
theorem test_clearInterruptFlag_low :
    flagsAfter (runWord 0x26 (withFlags 0x7C00#20 0xFFFFF#20 (readyOn 2))) = some (0x6C00#20, 0xFFFFF#20) := by decide
/-- V22: stream 4, FE. -/
theorem test_clearInterruptFlag_high :
    flagsAfter (runWord 0x46 (withFlags 0xFFFFF#20 0xFFFFF#20 (readyOn 4))) = some (0xFFFFF#20, 0xFFFEF#20) := by
  decide
/-- V23: stream 5, TC. -/
theorem test_getInterruptFlag_true :
    resultOf (runWord 0x7 (withFlags 0#20 0x20#20 (readyOn 5))) = some (.flag true) := by decide
/-- V23: stream 1, TE, with HT pending and every flag of `HISR` set. -/
theorem test_getInterruptFlag_false :
    resultOf (runWord 0x27 (withFlags 0x40#20 0xFFFFF#20 (readyOn 1))) = some (.flag false) := by decide
/-- V24: every other field of `FCR` stays. -/
theorem test_setFifoThreshold :
    crFcr (runWord 0x8 (withFcr 0xA7#32 (readyOn 5))) = some (0#25, 0xA4#32) := by decide
/-- V25. -/
theorem test_getFifoStatus : resultOf (runWord 0x9 (withFcr 0x1A#32 (readyOn 5))) = some (.fifo .almostFull) := by
  decide
/-- V25: an undocumented code. -/
theorem test_getFifoStatus_undocumented :
    resultOf (runWord 0x9 (withFcr 0xBB#32 (readyOn 5))) = some (.fault (.unmappedFifoStatus 0b111#3)) := by decide

/-! ### Encodings and other agents -/

/-- V11: every field at its largest code. -/
theorem test_encodeCR_largest :
    encodeCR { recordV1 with
      dir := .m2m, psize := .word, msize := .word, pinc := true, pl := .veryHigh, circ := true, dbm := true,
      trbuff := true, pincos := .fixed4, pfctrl := .peripheral, pburst := .incr16, mburst := .incr16 } =
      0x01F7D7A0#32 := by decide
/-- V14: the two bursts differ. -/
theorem test_encodeCR_bursts :
    encodeCR { recordV1 with
      psize := .halfword, msize := .halfword, pl := .high, pburst := .incr4, mburst := .incr8 } =
      0x01222C40#32 := by decide
/-- V26: the order of the faults. -/
theorem test_fault_priority :
    let s : State := { readyOn 9 with constructed := false }
    resultOf (runWord 0xB s) = some (.fault (.illegalCommand 0xB#32)) ∧
    resultOf (runWord 0x1 s) = some (.fault (.unmappedStreamIndex 9)) := by decide
/-- V27: bits 31:20 of a write to `LIFCR` have no effect. -/
theorem test_foreign_write_lifcr :
    flagsAfter (takeTurn (.foreign (.write .lifcr 0xFFF0001F#32)) (withFlags 0xFFFFF#20 0#20 (readyOn 5))) =
      some (0xFFFE0#20, 0#20) := by decide
/-- V17, R269: the engine's switch of `CT` between ENABLE's read and its write is lost. -/
theorem test_lost_ct_switch :
    let s := { withProgs [[{ word := 1#32 }]] (withCr 0x855501#25 (readyOn 6)) with engineActive := true }
    crFcr (takeTurns [.txn 0, .engine .switchCt] s) = some (0x8D5501#25, 0x21#32) ∧
    crFcr (takeTurns [.txn 0, .engine .switchCt, .txn 0] s) = some (0x855501#25, 0x21#32) := by decide
/-- P3: one of the orders that lose an update. -/
theorem test_lost_update :
    let s := withProgs [[{ word := 0x24#32 }], [{ word := 0x15#32 }]] (withCr 0x451#25 (readyOn 0))
    crFcr (takeTurns ([1, 0, 0, 1].map Turn.txn) s) = some (0x441#25, 0x21#32) := by decide
/-- R65: bit 0 of `FCR` stands in the byte at its lowest address, 0x4002009C on stream 5 (R60). -/
theorem test_byteAt : byteAt Params.default Regs.silicon 0x4002009C = some (0x21#8, 0x40#8) := by decide

/-! ### Witnesses: the hypotheses of each statement can be met together

A witness is named after its statement. -/

/-- `TakesNext` from what can be computed. -/
theorem takesNext_of {c : Nat} {cmd : Command} {s : State} {x : Context} (hx : s.contexts[c]? = some x)
    (hf : x.inflight = none) (hn : x.prog[x.pc]? = some cmd) : TakesNext c cmd s := ⟨x, hx, hf, hn⟩

/-- A valid record: no condition of R132 holds. -/
theorem validConfig_of {cfg : Record} (h : cfgCondition cfg = none) : ValidConfig cfg :=
  (cfgCondition_eq_none_iff cfg).mp h

theorem witness_EncodeOfDecode : decode { word := 0x13#32 } = .ok (.setTargetMemory .buffer1) := by decide
/-- The two kind rows meet the table's row with a kind code of 4 (decodes) and of 5 (does not). -/
theorem witness_DecodeFollowsOpcodeTable :
    (opcodeTable.filter fun r => r.matches 0x46#32).map OpcodeRow.mnemonic = ["CLEAR_INTERRUPT_FLAG"] ∧
    (opcodeTable.filter fun r => r.matches 0x56#32).map OpcodeRow.mnemonic = ["CLEAR_INTERRUPT_FLAG"] ∧
    decode { word := 0x46#32 } = .ok (.clearInterruptFlag .fe) ∧
    decode { word := 0x56#32 } = .error (.illegalCommand 0x56#32) := by decide
/-- Every clause of `IllegalWord` at its boundary, and the neighbours that are legal. -/
theorem witness_IllegalWord :
    (∀ w ∈ [0x1000#32, 0xFFFFF001#32, 0xA#32, 0xF#32, 0x10#32, 0x11#32, 0x12#32, 0x19#32, 0x23#32, 0x204#32, 0x205#32,
      0x56#32, 0x57#32, 0x86#32, 0x87#32, 0x48#32], IllegalWord w) ∧
    (∀ w ∈ [0x0#32, 0x9#32, 0x13#32, 0x1F4#32, 0x1F5#32, 0x46#32, 0x47#32, 0x38#32], ¬ IllegalWord w) := by
  simp [IllegalWord]
theorem witness_IllegalWordRaisesIllegalCommand :
    let s := withTurns [.txn 0] (withProgs [[{ word := 0x57#32 }]] State.reset)
    s.schedule = .txn 0 :: [] ∧ TakesNext 0 { word := 0x57#32 } s ∧ IllegalWord 0x57#32 :=
  ⟨rfl, takesNext_of rfl rfl rfl, by unfold IllegalWord; decide⟩
theorem witness_StepRunsDecodedCommand :
    let s := withTurns [.whole 1] (withProgs [[], [{ word := 1#32 }]] (readyOn 5))
    s.schedule = .whole 1 :: [] ∧ TakesNext 1 { word := 1#32 } s ∧ decode { word := 1#32 } = .ok .enable :=
  ⟨rfl, takesNext_of rfl rfl rfl, rfl⟩
/-- With the checks passed (four transactions), and with a fault (one turn). -/
theorem witness_WholeOperationIsItsTransactions :
    let s := withProgs [[{ word := 0x1F4#32 }]] (readyOn 5)
    TakesNext 0 { word := 0x1F4#32 } s ∧
    decode { word := 0x1F4#32 } =
      .ok (.enableInterrupt { tc := true, ht := true, te := true, dme := true, fe := true }) ∧
    (operationOf (.enableInterrupt { tc := true, ht := true, te := true, dme := true, fe := true }) s).txns.length = 4 ∧
    (operationOf .enable State.reset).fault = some .notConstructed :=
  ⟨takesNext_of rfl rfl rfl, by decide, by decide, by decide⟩
/-- Boundary values: the last mapped stream, the largest count, the count 0, an unchecked `m1ar`, and `m1ar` checked. -/
theorem witness_ConstructCommitsTheRecord :
    (readyOn 7).params.streamIndex < 8 ∧ ValidConfig { recordV1 with count := 0xFFFF#32 } ∧
    ValidConfig { recordV1 with count := 0#32 } ∧ ValidConfig { recordV1 with m1ar := 3#32 } ∧
    ValidConfig { recordV1 with dbm := true, m1ar := 0x20000400#32 } :=
  ⟨by decide, validConfig_of (by decide), validConfig_of (by decide), validConfig_of (by decide),
    validConfig_of (by decide)⟩
/-- One record for each condition of R132, the first that fails (V15). -/
theorem witness_InvalidConfigurationNamesFirstCondition :
    let first := fun (cfg : Record) (cond : CfgCondition) =>
      CfgFails cfg cond ∧ ∀ cond', cond'.order < cond.order → ¬ CfgFails cfg cond'
    (readyOn 5).params.streamIndex < 8 ∧
    first { recordV1 with count := 0x10000#32, par := 0#32 } .countTooLarge ∧
    first { recordV1 with par := 0x40004006#32, psize := .word } .badPar ∧
    first { recordV1 with m0ar := 0x20000002#32, msize := .word } .badM0ar ∧
    first { recordV1 with dbm := true, m1ar := 0#32 } .badM1ar ∧
    first { recordV1 with dir := .reserved } .reservedCode :=
  ⟨by decide, (cfgCondition_eq_some_iff _ _).mp (by decide), (cfgCondition_eq_some_iff _ _).mp (by decide),
    (cfgCondition_eq_some_iff _ _).mp (by decide), (cfgCondition_eq_some_iff _ _).mp (by decide),
    (cfgCondition_eq_some_iff _ _).mp (by decide)⟩
/-- R16, R132: with a reserved size and word-aligned addresses only (e) can reject the record. -/
theorem test_reserved_size_aligned :
    cfgCondition { recordV1 with psize := .reserved, msize := .reserved } = some .reservedCode := by
  have hp : badAddress recordV1.par .reserved = false := badAddress_of_word_aligned _ (by decide) (by decide)
  have hm : badAddress recordV1.m0ar .reserved = false := badAddress_of_word_aligned _ (by decide) (by decide)
  simp only [cfgCondition, hp, hm]
  decide
theorem witness_EncodeCrInjective :
    encodeCR recordV1 = encodeCR { recordV1 with par := 0#32, count := 7#32 } := by decide
/-- `Ready`, at the last mapped stream index and at the first. -/
theorem witness_Ready : Ready (readyOn 7) ∧ Ready (readyOn 0) := by decide
theorem witness_EnableSetsEnOnly : Ready (withCr 0x40#25 (readyOn 5)) := by decide
theorem witness_DisableClearsEnOnly : Ready (withCr 0x441#25 (readyOn 5)) := by decide
theorem witness_SetTargetMemoryWritesCtOnly : Ready (withCr 0x40100#25 (readyOn 5)) := by decide
theorem witness_EnableThenDisableRestoresCr : (readyOn 5).params.streamIndex < 8 ∧ ValidConfig recordV1 :=
  ⟨by decide, validConfig_of (by decide)⟩
/-- The engine's switch of `CT` and another context's whole ENABLE_INTERRUPT as the changes that are lost (V17). -/
theorem witness_EnableLosesConcurrentCrChange :
    let s := { withProgs [[{ word := 1#32 }], [{ word := 0x14#32 }]] (withCr 0x855501#25 (readyOn 6)) with
      engineActive := true }
    let ts : List Turn := [.engine .switchCt, .txn 1, .txn 1]
    Ready s ∧ TakesNext 0 { word := 1#32 } s ∧ decode { word := 1#32 } = .ok .enable ∧ noTurnOf 0 ts = true ∧
    ∃ u, takeTurns (.txn 0 :: ts) s = .next u ∧ u.regs.cr ≠ s.regs.cr :=
  ⟨by decide, takesNext_of rfl rfl rfl, rfl, rfl, _, rfl, by decide⟩
theorem witness_EnableInterruptSetsExactlyItsKinds : Ready (withFcr 0x21#32 (withCr 0x40#25 (readyOn 5))) := by decide
theorem witness_DisableInterruptClearsExactlyItsKinds : Ready (withFcr 0xA1#32 (withCr 0x5E#25 (readyOn 5))) := by
  decide
theorem witness_SetFormEqualsMemberForms :
    Ready (readyOn 5) ∧ ∀ k, k ∈ [Kind.fe, .tc, .fe] ↔ KindSet.has { tc := true, fe := true } k = true :=
  ⟨by decide, fun k => by cases k <;> decide⟩
/-- P3's pair, and sets that overlap. -/
theorem witness_InterleavedMaskUpdatesLoseOne :
    let s := withProgs [[{ word := 0x24#32 }], [{ word := 0x15#32 }]] (withCr 0x451#25 (readyOn 0))
    Ready s ∧ (0 : Nat) ≠ 1 ∧ TakesNext 0 { word := 0x24#32 } s ∧ TakesNext 1 { word := 0x15#32 } s ∧
    decode { word := 0x24#32 } = .ok (.enableInterrupt { ht := true }) ∧
    decode { word := 0x15#32 } = .ok (.disableInterrupt { tc := true }) ∧
    decode { word := 0xF4#32 } = .ok (.enableInterrupt { tc := true, ht := true, te := true, dme := true }) ∧
    KindSet.fe { ht := true } = false ∧ KindSet.fe { tc := true } = false ∧
    KindSet.fe { tc := true, ht := true, te := true, dme := true } = false :=
  ⟨by decide, by decide, takesNext_of rfl rfl rfl, takesNext_of rfl rfl rfl, by decide, by decide, by decide, rfl, rfl,
    rfl⟩
/-- The other hypotheses are those of `InterleavedMaskUpdatesLoseOne`. Two orders are exclusive, and one is not. -/
theorem witness_ExclusiveMaskUpdatesLoseNone :
    let s := withProgs [[{ word := 0x24#32 }], [{ word := 0x15#32 }]] (withCr 0x451#25 (readyOn 0))
    exclusive ([0, 0, 1, 1].map Turn.txn) s = true ∧ exclusive ([1, 1, 0, 0].map Turn.txn) s = true ∧
    exclusive ([0, 1, 1, 0].map Turn.txn) s = false := by decide
/-- Stream 5 with TC pending and enabled, and with TC pending and disabled. -/
theorem witness_DisablingAllKindsSilencesIrq :
    let s := withFlags 0#20 0x20#20 (withCr 0x5E#25 (readyOn 5))
    let masked := withFlags 0#20 0x20#20 (withCr 0x4E#25 (readyOn 5))
    Ready s ∧ s.params.streamIndex < 8 ∧ irq s = true ∧ irq masked = false := by decide
theorem witness_IndexerIsBijection : FlagBits.wf {} = true ∧ FlagBits.wf { ht := 4, te := 3, dme := 2, fe := 1 } = true := by
  decide
theorem witness_ClearFlagClearsOneFlag :
    let s := withFlags 0xFFFFF#20 0xFFFFF#20 (readyOn 3)
    Ready s ∧ s.params.flagBits.wf = true := by decide
theorem witness_GetFlagReturnsTheFlag : Ready (withFlags 0#20 0x20#20 (readyOn 5)) := by decide
/-- Between the two, another stream's flag of the same kind and this stream's flag of another kind are asserted. -/
theorem witness_ClearThenGetReadsFalse :
    let s := withFlags 0#20 0x20#20 (readyOn 5)
    let ts : List Turn := [.engine (.assertFlag 6 .tc), .engine (.assertFlag 5 .ht)]
    Ready s ∧ s.params.flagBits.wf = true ∧
    (∀ i : Fin 8, i.val = s.params.streamIndex → Turn.engine (.assertFlag i .tc) ∉ ts) ∧
    ∃ t u, exec (.clearInterruptFlag .tc) s = .next t ∧ takeTurns ts t = .next u :=
  ⟨by decide, by decide, fun i hi h => by simp at h; subst h; exact absurd hi (by decide), _, _, rfl, rfl⟩
theorem witness_SetFifoThresholdWritesFthOnly : Ready (withFcr 0xA7#32 (readyOn 5)) := by decide
/-- The operation run whole, and as its two transactions: engine moves and a foreign write of a shared register in
between and after. -/
theorem witness_ThresholdReadsBack :
    let s := withProgs [[{ word := 0x38#32 }]] (readyOn 5)
    let moves : List Turn := [.engine (.setFs 0b011#3), .foreign (.write .hifcr 0x20#32), .engine (.assertFlag 5 .fe)]
    Ready s ∧ noContextTurn moves = true ∧
    (∃ t u, exec (.setFifoThreshold .full) s = .next t ∧ exclusive moves t = true ∧ takeTurns moves t = .next u) ∧
    TakesNext 0 { word := 0x38#32 } s ∧ decode { word := 0x38#32 } = .ok (.setFifoThreshold .full) ∧
    noTurnOf 0 moves = true ∧ exclusive (.txn 0 :: moves ++ .txn 0 :: moves) s = true ∧
    ∃ u, takeTurns (.txn 0 :: moves ++ .txn 0 :: moves) s = .next u :=
  ⟨by decide, rfl, ⟨_, _, rfl, rfl, rfl⟩, takesNext_of rfl rfl rfl, rfl, rfl, rfl, _, rfl⟩
/-- Each of the six codes of R108. -/
theorem witness_GetFifoStatusDecodesSixCodes :
    (∀ w, Ready (withFcr w (readyOn 5))) ∧
    [0x00#32, 0x08#32, 0x10#32, 0x18#32, 0x20#32, 0x28#32].map (fun w => (withFcr w (readyOn 5)).regs.fcr.fs) =
      [0b000#3, 0b001#3, 0b010#3, 0b011#3, 0b100#3, 0b101#3] :=
  ⟨fun _ => (by decide : Ready (readyOn 5)), by decide⟩
/-- Both undocumented codes. -/
theorem witness_UndocumentedFifoCodeFaults :
    (Ready (withFcr 0x30#32 (readyOn 5)) ∧ (withFcr 0x30#32 (readyOn 5)).regs.fcr.fs = 0b110#3) ∧
    (Ready (withFcr 0xBB#32 (readyOn 5)) ∧ (withFcr 0xBB#32 (readyOn 5)).regs.fcr.fs = 0b111#3) := by decide
theorem witness_UnmappedStreamIndexFaultsEveryOperation : 8 ≤ (readyOn 8).params.streamIndex := by decide
/-- On a mapped stream index and on an unmapped one. -/
theorem witness_NotConstructedFaultsOtherOperations :
    isConstruct .enable = false ∧ State.reset.constructed = false ∧ State.reset.params.streamIndex < 8 ∧
    ({ readyOn 8 with constructed := false } : State).constructed = false := by decide
/-- A fault before any transaction, the fault after a read, and a command that decodes to nothing. -/
theorem witness_FaultingOperationWritesNothing :
    (State.reset.issuer < State.reset.contexts.length ∧ ∃ t, exec .enable State.reset = .next t ∧
      CompletesWith (.fault .notConstructed) State.reset t) ∧
    (let s := withFcr 0x30#32 (readyOn 5);
      s.issuer < s.contexts.length ∧ ∃ t, exec .getFifoStatus s = .next t ∧
        CompletesWith (.fault (.unmappedFifoStatus 0b110#3)) s t) ∧
    (let s := withProgs [[{ word := 0xA#32 }]] State.reset;
      TakesNext 0 { word := 0xA#32 } s ∧ decode { word := 0xA#32 } = .error (.illegalCommand 0xA#32) ∧
      ∃ t, takeTurn (.txn 0) s = .next t) :=
  ⟨⟨by decide, raiseFault (encode .enable) .notConstructed State.reset, rfl, (faults_raiseFault _ _ _).1⟩,
    ⟨by decide, _, rfl, completesWith_complete _ _ _ rfl rfl⟩,
    ⟨takesNext_of rfl rfl rfl, rfl, _, rfl⟩⟩

/-- One context about to run a command that faults. -/
def faultingState : State := withTurns [.whole 0] (withProgs [[{ word := 1#32 }]] State.reset)

theorem witness_StepKeepsFaultLogMatchingResults :
    FaultLogMatchesResults faultingState ∧ ∃ t, step faultingState = .next t ∧ t.faultLog.length = 1 := by
  refine ⟨?_, _, rfl, by decide⟩
  intro c x hx
  have hm : x ∈ [Context.start [{ word := 1#32 }]] := List.mem_of_getElem? hx
  simp only [List.mem_singleton] at hm
  subst hm; rfl
/-- A step that leaves the logs empty. -/
theorem witness_LogsAreAppendOnly :
    ∃ t, step (withTurns [.whole 0] (withProgs [[{ word := 1#32 }]] (readyOn 5))) = .next t ∧ ranRight t = true :=
  ⟨_, rfl, by decide⟩
/-- Each condition of R83 to R86, met and not met. -/
theorem witness_EngineMoveEffects :
    let on := { withCr 0x40001#25 (readyOn 5) with engineActive := true }
    let off := withCr 0x40000#25 (readyOn 5)
    (regsOf (takeTurn (.engine (.setNdt 5#16)) on)).isSome = true ∧
    (regsOf (takeTurn (.engine (.setNdt 5#16)) off)).isSome = false ∧
    (regsOf (takeTurn (.engine .clearEn) on)).isSome = true ∧ (regsOf (takeTurn (.engine .clearEn) off)).isSome = false ∧
    (regsOf (takeTurn (.engine .switchCt) on)).isSome = true ∧
    (regsOf (takeTurn (.engine .switchCt) off)).isSome = false ∧
    (regsOf (takeTurn (.engine .sample) (withCr 1#25 off))).isSome = true ∧
    (regsOf (takeTurn (.engine .sample) on)).isSome = false := by decide
theorem witness_EngineChangesNothingElse : ∃ t, takeTurn (.engine (.setFs 0b101#3)) (readyOn 5) = .next t := ⟨_, rfl⟩
theorem witness_RegisterAddressesAreInjective : Params.default.wf = true := by decide
theorem witness_DrawsNeverReachTheOutcome : ∃ t, exec .enable (readyOn 5) = .next t := ⟨_, rfl⟩
theorem witness_QuietRunsLeaveEngineStateAlone :
    let ts : List Turn := [.txn 0, .foreign (.write .lifcr 1#32), .txn 0, .foreign (.read .hisr)]
    quiet ts = true ∧ ∃ t, takeTurns ts (withProgs [[{ word := 1#32 }]] (readyOn 5)) = .next t := ⟨rfl, _, rfl⟩
/-- A flag that the engine sets, one that CLEAR_INTERRUPT_FLAG clears, one that foreign software clears. -/
theorem witness_FlagsSetByEngineClearedByWrite :
    let set := withTurns [.engine (.assertFlag 5 .tc)] (readyOn 5)
    let clear := withTurns [.whole 0] (withProgs [[{ word := 6#32 }]] (withFlags 0#20 0x20#20 (readyOn 5)))
    let foreign := withTurns [.foreign (.write .hifcr 0x20#32)] (withFlags 0#20 0x20#20 (readyOn 5))
    (set.regs.hisr.getLsbD 5 = false ∧ ∃ t, step set = .next t ∧ t.regs.hisr.getLsbD 5 = true) ∧
    (clear.regs.hisr.getLsbD 5 = true ∧ ∃ t, step clear = .next t ∧ t.regs.hisr.getLsbD 5 = false) ∧
    (foreign.regs.hisr.getLsbD 5 = true ∧ ∃ t, step foreign = .next t ∧ t.regs.hisr.getLsbD 5 = false) :=
  ⟨⟨by decide, _, rfl, by decide⟩, ⟨by decide, _, rfl, by decide⟩, ⟨by decide, _, rfl, by decide⟩⟩

/-- One context about to run CONSTRUCT. -/
def constructState : State :=
  withTurns [.whole 0] (withProgs [[{ word := 0#32, record := recordV1 }]] State.reset)

theorem witness_ConstructedIsSetOnlyByConstruct :
    constructState.constructed = false ∧ ∃ t, step constructState = .next t ∧ t.constructed = true :=
  ⟨rfl, _, rfl, rfl⟩
theorem witness_EngineActivityFollowsSamples :
    let s := withTurns [.engine .sample] (withCr 1#25 (readyOn 5))
    ∃ t, step s = .next t ∧ t.engineActive ≠ s.engineActive := ⟨_, rfl, by decide⟩
/-- CONSTRUCT changes the three address registers and the count (`M1AR` with a record that has one); the engine
changes the count; foreign software a register. -/
theorem witness_AddressesChangeOnlyByConstructOrForeignWrite :
    (∃ t, step constructState = .next t ∧ t.regs.par ≠ constructState.regs.par ∧
      t.regs.m0ar ≠ constructState.regs.m0ar ∧ t.regs.ndt ≠ constructState.regs.ndt) ∧
    (let s := withTurns [.foreign (.write .m1ar 4#32)] (readyOn 5)
      ∃ t, step s = .next t ∧ t.regs.m1ar ≠ s.regs.m1ar) ∧
    (let s := withTurns [.engine (.setNdt 7#16)] { readyOn 5 with engineActive := true }
      ∃ t, step s = .next t ∧ t.regs.ndt ≠ s.regs.ndt) :=
  ⟨⟨_, rfl, by decide⟩, ⟨_, rfl, by decide⟩, ⟨_, rfl, by decide⟩⟩
theorem witness_IdentityNeverChanges : ∃ t, step constructState = .next t := ⟨_, rfl⟩
/-- A well-formed state with an operation in flight after the step. -/
theorem witness_StepKeepsStateWellFormed :
    let s := withTurns [.txn 0] (withProgs [[{ word := 0#32, record := recordV1 }]] State.reset)
    s.wf = true ∧ ∃ t, step s = .next t ∧ t.contexts.any (fun x => x.inflight.isSome) = true :=
  ⟨by decide, _, rfl, by decide⟩
theorem witness_StepKeepsOnlyFaultsBeforeConstruct :
    OnlyFaultsBeforeConstruct faultingState ∧ ∃ t, step faultingState = .next t := by
  refine ⟨?_, _, rfl⟩
  intro _ x hx
  have hm : x ∈ [Context.start [{ word := 1#32 }]] := hx
  simp only [List.mem_singleton] at hm
  subst hm
  exact ⟨by simp [Context.start], by simp [Context.start]⟩

/-- Well-formed parameters and a sequence, and a block whose registers stay. -/
theorem witness_ResetMeetsTheInvariants :
    Params.default.wf = true ∧ [[({ word := 1#32 } : Command)], []] ≠ [] ∧
    (readyOn 5).params.wf = true ∧ (readyOn 5).contexts ≠ [] := by decide

/-- One context with transaction `k` of a CONSTRUCT next. -/
def midConstruct (k : Nat) : State :=
  { constructState with contexts := [{
      prog := [{ word := 0#32, record := recordV1 }], pc := 0, results := []
      inflight := some { instr := .construct recordV1, index := k, v := BusWord.zero } }] }

/-- The first step, and the state before each later one: the second and the last bound of `k`. -/
theorem witness_ConstructStepByStep :
    constructState.params.streamIndex < 8 ∧ ValidConfig recordV1 ∧
    TakesNext 0 { word := 0#32, record := recordV1 } constructState ∧
    decode { word := 0#32, record := recordV1 } = .ok (.construct recordV1) ∧
    ∀ k, ∃ x, (midConstruct k).contexts[0]? = some x ∧
      x.inflight = some { instr := .construct recordV1, index := k, v := BusWord.zero } :=
  ⟨by decide, validConfig_of (by decide), takesNext_of rfl rfl rfl, rfl, fun _ => ⟨_, rfl, rfl⟩⟩
/-- R133, R40: the latch after the fourth write and after the last one. -/
theorem test_construct_latch :
    (match takeTurn (.txn 0) (midConstruct 3), takeTurn (.txn 0) (midConstruct 4) with
      | .next t, .next u => (t.constructed, u.constructed) == (false, true)
      | _, _ => false) = true := by decide
/-- A `CR` access at transaction 0 and at transaction 2, and an `FCR` access at transaction 0. -/
theorem witness_ReadModifyWriteLosesConcurrentChange :
    let ks : KindSet := { tc := true, fe := true }
    let s := withProgs [[{ word := 0x114#32 }], [{ word := 0x24#32 }]] (readyOn 5)
    let ts : List Turn := [.foreign (.write .fcr 0#32), .whole 1]
    Ready s ∧ noTurnOf 0 ts = true ∧ ks.fe = true ∧ AtTransaction 0 (.enableInterrupt ks) 0 s ∧
    AtTransaction 1 (.enableInterrupt { ht := true }) 0 s ∧ (∃ u, takeTurns (.txn 0 :: ts) s = .next u) ∧
    ∃ t, takeTurns [.txn 0, .txn 0] s = .next t ∧ Ready t ∧ AtTransaction 0 (.enableInterrupt ks) 2 t ∧
      ∃ u, takeTurns (.txn 0 :: ts) t = .next u :=
  ⟨by decide, rfl, rfl, .inl ⟨rfl, _, takesNext_of rfl rfl rfl, rfl⟩, .inl ⟨rfl, _, takesNext_of rfl rfl rfl, rfl⟩,
    ⟨_, rfl⟩, _, rfl, by decide, .inr ⟨_, _, rfl, rfl⟩, _, rfl⟩
/-- R73, R232: a turn that only raises a fault falls inside another context's operation and the run stays exclusive; one
that performs a transaction does not. -/
theorem test_exclusive_faulting_turn :
    exclusive ([0, 1, 0].map Turn.txn) (withProgs [[{ word := 1#32 }], [{ word := 0xA#32 }]] (readyOn 5)) = true ∧
    exclusive ([0, 1, 0].map Turn.txn) (withProgs [[{ word := 1#32 }], [{ word := 7#32 }]] (readyOn 5)) = false := by
  decide

end Sys2Proof.Tests
end

/-! ## The state and what every step keeps (10_state.md) -/

namespace Sys2Proof.Machine

/-! ### What a step can do -/

/-- The operation a step performs a transaction of is its context's. -/
theorem steppingInstr_of_context {turn : Turn} {c : Nat} {s : State} (ht : turnOf s = some turn)
    (hc : contextOf turn = some c) : steppingInstr s = currentInstr c s := by
  simp [steppingInstr, ht, hc]

/-- INVERSION OF A STEP, agent by agent: a context's turn with its effect, an enabled engine move, or a foreign access. -/
theorem step_agent {s t : State} (h : step s = .next t) :
    (∃ turn c x, turnOf s = some turn ∧ contextOf turn = some c ∧
      takeTurn turn { s with schedule := s.schedule.tail } = .next t ∧
      ContextEffect c x { s with schedule := s.schedule.tail } t) ∨
    (∃ m, turnOf s = some (.engine m) ∧ engineMove m { s with schedule := s.schedule.tail } = some t) ∨
    (∃ a, turnOf s = some (.foreign a) ∧ t = foreignAccess a { s with schedule := s.schedule.tail }) := by
  obtain ⟨turn, hturn, htake⟩ := step_cases h
  rcases takeTurn_cases htake with ⟨c, hc⟩ | ⟨m, rfl, hm⟩ | ⟨a, rfl, ha⟩
  · obtain ⟨x, -, effect⟩ := contextTurn_effect hc htake
    exact .inl ⟨turn, c, x, hturn, hc, htake, effect⟩
  · exact .inr (.inl ⟨m, hturn, hm⟩)
  · exact .inr (.inr ⟨a, hturn, ha⟩)

/-- The encoder's own state is the contexts' to change: a step of another agent leaves it alone. -/
theorem step_context_or_outside {s t : State} (h : step s = .next t) :
    (∃ turn c x, turnOf s = some turn ∧ contextOf turn = some c ∧
      takeTurn turn { s with schedule := s.schedule.tail } = .next t ∧
      ContextEffect c x { s with schedule := s.schedule.tail } t) ∨
    t = { s with
      regs := t.regs, engineActive := t.engineActive, draws := t.draws, schedule := s.schedule.tail } := by
  rcases step_agent h with ⟨turn, c, x, hturn, hc, htake, effect⟩ | ⟨m, -, hm⟩ | ⟨a, -, rfl⟩
  · exact .inl ⟨turn, c, x, hturn, hc, htake, effect⟩
  · exact .inr (by rw [engineMove_outside hm])
  · exact .inr (by rw [foreignAccess_outside])

/-- WHAT CAN BREAK A PROPERTY OF THE REGISTERS: if it holds before a step and not after, then the step is of an operation
with a write that breaks it, a foreign write that breaks it, or an engine move. -/
theorem step_breaks_regs {s t : State} (h : step s = .next t) (P : Regs → Prop) (h0 : P s.regs) (h1 : ¬ P t.regs) :
    (∃ i r u b g, steppingInstr s = some i ∧ Txn.write r u ∈ (operationOf i s).txns ∧
      P g ∧ ¬ P (writeRule r (u.apply b) g)) ∨
    (∃ r v, turnOf s = some (.foreign (.write r v)) ∧ ¬ P (writeRule r (BusWord.ofWord v) s.regs)) ∨
    (∃ m, turnOf s = some (.engine m) ∧ engineMove m { s with schedule := s.schedule.tail } = some t) := by
  rcases step_agent h with ⟨turn, c, x, hturn, hc, htake, -⟩ | ⟨m, hturn, hm⟩ | ⟨a, hturn, rfl⟩
  · left
    by_contra hkeep
    refine h1 (contextTurn_regs_induct P hc htake ?_ h0)
    intro i hi r u hmem b g hg
    have htxns := (operationOf_txns_of_params i (s := s) (t := { s with schedule := s.schedule.tail }) rfl).1
    by_contra hbreak
    exact hkeep ⟨i, r, u, b, g, (steppingInstr_of_context hturn hc).trans hi, htxns ▸ hmem, hg, hbreak⟩
  · exact .inr (.inr ⟨m, hturn, hm⟩)
  · cases a with
    | read r => exact absurd h0 h1
    | write r v => exact .inr (.inl ⟨r, v, hturn, h1⟩)

/-! ### The writes of an operation -/

/-- R63: which registers an operation writes. CONSTRUCT writes the stream's own; CLEAR_INTERRUPT_FLAG writes one bit to the
stream's clear register; the others write `CR` and `FCR` only. -/
theorem write_of_operation {i : Instr} {s : State} {r : Reg} {u : Update}
    (h : Txn.write r u ∈ (operationOf i s).txns) :
    ((∃ cfg, i = .construct cfg) ∧ ownedByStream r = true) ∨ r = .cr ∨ r = .fcr ∨
    (∃ k, i = .clearInterruptFlag k ∧ r = clearRegOf (locate s.params.streamIndex).1 ∧
      u = .put (flagMask s.params.flagBits s.params.streamIndex k)) := by
  cases i with
  | construct cfg =>
    simp only [operationOf, opConstruct, constructTxns, writeReg, List.cons_append, List.nil_append, List.mem_cons,
      List.not_mem_nil, Txn.write.injEq, or_false] at h
    rcases h with ⟨rfl, -⟩ | ⟨rfl, -⟩ | ⟨rfl, -⟩ | ⟨rfl, -⟩ | ⟨rfl, -⟩ <;> exact .inl ⟨⟨cfg, rfl⟩, rfl⟩
  | clearInterruptFlag k =>
    simp only [operationOf, opClearInterruptFlag, writeReg, List.mem_singleton, Txn.write.injEq] at h
    exact .inr (.inr (.inr ⟨k, rfl, h⟩))
  | enableInterrupt kset | disableInterrupt kset =>
    cases hfe : kset.has .fe <;>
      simp [operationOf, opEnableInterrupt, opDisableInterrupt, setReg, clearReg, hfe] at h <;> tauto
  | _ =>
    simp [operationOf, opEnable, opDisable, opSetTargetMemory, opGetInterruptFlag, opSetFifoThreshold,
      opGetFifoStatus, setReg, clearReg, changeReg, readReg] at h <;> tauto

/-! ### The invariant in the words of the logic -/

theorem inflightWf_iff (s : State) (x : Context) (f : InFlight) :
    inflightWf s x f = true ↔
      (∃ cmd, x.next = some cmd ∧ decode cmd = .ok f.instr) ∧ 0 < f.index ∧
        f.index < (operationOf f.instr s).txns.length ∧ s.params.streamIndex < 8 ∧
        (s.constructed = true ∨ isConstruct f.instr = true) := by
  unfold inflightWf
  cases hn : x.next with
  | none => simp
  | some cmd => cases hd : decode cmd <;> simp [hd, and_assoc]

theorem contextWf_iff (s : State) (x : Context) :
    contextWf s x = true ↔
      x.results.length = x.pc ∧ x.pc ≤ x.prog.length ∧ ∀ f, x.inflight = some f → inflightWf s x f = true := by
  unfold contextWf
  cases x.inflight <;> simp [and_assoc]

theorem State.wf_iff (s : State) :
    s.wf = true ↔
      s.params.wf = true ∧ s.contexts ≠ [] ∧ (∀ x ∈ s.contexts, contextWf s x = true) ∧
        (∀ e ∈ s.faultLog, e.context < s.contexts.length) ∧ ∀ e ∈ s.hazardLog, e.context < s.contexts.length := by
  simp [State.wf, and_assoc]

/-- A context with a command to take has not reached the end of its sequence (R21). -/
theorem Context.pc_lt_of_next {x : Context} {cmd : Command} (h : x.next = some cmd) : x.pc < x.prog.length :=
  (List.getElem?_eq_some_iff.mp h).1

/-! ### Contexts in order stay in order -/

/-- A context in order stays in order under the same parameters, if the latch is not cleared. -/
theorem contextWf_mono {s t : State} {x : Context} (hp : t.params = s.params)
    (hl : s.constructed = true → t.constructed = true) (h : contextWf s x = true) : contextWf t x = true := by
  rw [contextWf_iff] at h ⊢
  obtain ⟨hres, hpc, hfl⟩ := h
  refine ⟨hres, hpc, fun f hf => ?_⟩
  obtain ⟨hcmd, hpos, hlt, hidx, hcon⟩ := (inflightWf_iff s x f).mp (hfl f hf)
  exact (inflightWf_iff t x f).mpr
    ⟨hcmd, hpos, by rw [(operationOf_txns_of_params f.instr hp).1]; exact hlt, hp ▸ hidx, hcon.imp_left hl⟩

/-- Completing the next command of a context in order leaves it in order (R21, R45). -/
theorem contextWf_complete {s : State} (t : State) {x : Context} {cmd : Command} (r : Result)
    (hn : x.next = some cmd) (h : contextWf s x = true) : contextWf t (Context.complete r x) = true := by
  obtain ⟨hres, -, -⟩ := (contextWf_iff s x).mp h
  refine (contextWf_iff t _).mpr ⟨by simp [hres], Context.pc_lt_of_next hn, fun f hf => ?_⟩
  simp at hf

/-- An operation put in flight in a context in order leaves it in order, if the operation is in order itself. -/
theorem contextWf_setInflight {s t : State} {x : Context} {f : InFlight} (h : contextWf s x = true)
    (hf : inflightWf t x f = true) : contextWf t (Context.setInflight f x) = true := by
  obtain ⟨hres, hpc, -⟩ := (contextWf_iff s x).mp h
  refine (contextWf_iff t _).mpr ⟨hres, hpc, fun g hg => ?_⟩
  obtain rfl : f = g := by simpa using hg
  exact hf

/-- What holds of every element, and of the new one at the place of the change, holds of every element after it. -/
theorem forall_mem_modify {α : Type} {P Q : α → Prop} {l : List α} {c : Nat} {f : α → α} (hl : ∀ x ∈ l, P x)
    (hkeep : ∀ x, P x → Q x) (hnew : ∀ x, l[c]? = some x → Q (f x)) : ∀ y ∈ l.modify c f, Q y := by
  intro y hy
  obtain ⟨d, hd⟩ := List.mem_iff_getElem?.mp hy
  rw [List.getElem?_modify, Option.map_eq_map, Option.map_eq_some_iff] at hd
  obtain ⟨x, hx, rfl⟩ := hd
  by_cases hcd : c = d
  · subst hcd; rw [if_pos rfl]; exact hnew x hx
  · rw [if_neg hcd]; exact hkeep x (hl x (List.mem_of_getElem? hx))

/-! ### Turns keep the invariant -/

/-- The operation that a context in order is at is its next command's, whether in flight or not. -/
theorem next_of_currentInstr {c : Nat} {s : State} {x : Context} {i : Instr} (hx : s.contexts[c]? = some x)
    (hwf : contextWf s x = true) (hi : currentInstr c s = some i) :
    ∃ cmd, x.next = some cmd ∧ decode cmd = .ok i := by
  simp only [currentInstr, hx] at hi
  split at hi
  · next f hf =>
    obtain ⟨-, -, hfl⟩ := (contextWf_iff s x).mp hwf
    obtain ⟨hcmd, -⟩ := (inflightWf_iff s x f).mp (hfl f hf)
    simp only [Option.some.injEq] at hi
    exact hi ▸ hcmd
  · split at hi
    · cases hi
    · next cmd hn =>
      split at hi
      · next j hd => exact ⟨cmd, hn, by simpa using hd.trans (congrArg Except.ok (Option.some.inj hi))⟩
      · cases hi

/-- A context in order whose turn answers a next state has a command to take. -/
theorem next_of_contextTurn {turn : Turn} {c : Nat} {s t : State} {x : Context} (hc : contextOf turn = some c)
    (hx : s.contexts[c]? = some x) (hwf : contextWf s x = true) (h : takeTurn turn s = .next t) :
    ∃ cmd, x.next = some cmd := by
  cases hf : x.inflight with
  | none => exact contextTurn_busy hc hx h hf
  | some f =>
    obtain ⟨-, -, hfl⟩ := (contextWf_iff s x).mp hwf
    obtain ⟨⟨cmd, hn, -⟩, -⟩ := (inflightWf_iff s x f).mp (hfl f hf)
    exact ⟨cmd, hn⟩

/-- What a context's turn leaves in flight is in order (R45, R234, R235). -/
theorem inflightWf_of_turn {c : Nat} {s t : State} {x : Context} {f : InFlight} (hx : s.contexts[c]? = some x)
    (hwf : contextWf s x = true) (hp : t.params = s.params) (hl : s.constructed = true → t.constructed = true)
    (hi : currentInstr c s = some f.instr) (hpos : 0 < f.index)
    (hlt : f.index < (operationOf f.instr s).txns.length)
    (hchecks : x.inflight = none →
      s.params.streamIndex < 8 ∧ (s.constructed = true ∨ isConstruct f.instr = true)) :
    inflightWf t x f = true := by
  have hpassed : s.params.streamIndex < 8 ∧ (s.constructed = true ∨ isConstruct f.instr = true) := by
    cases hg : x.inflight with
    | none => exact hchecks hg
    | some g =>
      obtain ⟨-, -, hfl⟩ := (contextWf_iff s x).mp hwf
      obtain ⟨-, -, -, hidx, hcon⟩ := (inflightWf_iff s x g).mp (hfl g hg)
      have hsame : g.instr = f.instr := by simpa [currentInstr, hx, hg] using hi
      exact ⟨hidx, hsame ▸ hcon⟩
  exact (inflightWf_iff t x f).mpr ⟨next_of_currentInstr hx hwf hi, hpos,
    by rw [(operationOf_txns_of_params f.instr hp).1]; exact hlt, hp ▸ hpassed.1, hpassed.2.imp_left hl⟩

/-- A context's turn leaves every context in order. -/
theorem contextTurn_keeps_contextWf {turn : Turn} {c : Nat} {s t : State} (hc : contextOf turn = some c)
    (hwf : ∀ x ∈ s.contexts, contextWf s x = true) (h : takeTurn turn s = .next t) :
    ∀ x ∈ t.contexts, contextWf t x = true := by
  obtain ⟨hp, hl, -⟩ := takeTurn_outside h
  obtain ⟨x, hx, effect⟩ := contextTurn_effect hc h
  have hxwf : contextWf s x = true := hwf x (List.mem_of_getElem? hx)
  have hkeep : ∀ y, contextWf s y = true → contextWf t y = true := fun y hy => contextWf_mono hp hl hy
  have hcomplete : ∀ (r : Result) (y : Context), s.contexts[c]? = some y →
      contextWf t (Context.complete r y) = true := by
    intro r y hy
    obtain rfl : x = y := Option.some.inj (hx.symm.trans hy)
    obtain ⟨cmd, hn⟩ := next_of_contextTurn hc hx hxwf h
    exact contextWf_complete t r hn hxwf
  rcases effect.contexts with ⟨cmd, code, hctx, -⟩ | ⟨r, -, hctx, -⟩ | ⟨f, hctx, -, hi, hpos, hlt, hchecks⟩
  · rw [hctx]; exact forall_mem_modify hwf hkeep (hcomplete _)
  · rw [hctx]; exact forall_mem_modify hwf hkeep (hcomplete _)
  · rw [hctx]
    refine forall_mem_modify hwf hkeep fun y hy => ?_
    obtain rfl : x = y := Option.some.inj (hx.symm.trans hy)
    exact contextWf_setInflight hxwf (inflightWf_of_turn hx hxwf hp hl hi hpos hlt hchecks)

/-- A context's turn writes its own entries to the logs (R43, R44). -/
theorem ContextEffect.logs {c : Nat} {x : Context} {s t : State} (effect : ContextEffect c x s t) :
    (∃ es, t.faultLog = s.faultLog ++ es ∧ ∀ e ∈ es, e.context = c) ∧
    (∃ es, t.hazardLog = s.hazardLog ++ es ∧ ∀ e ∈ es, e.context = c) := by
  refine ⟨?_, effect.hazards⟩
  rcases effect.contexts with ⟨cmd, code, -, hlog, -⟩ | ⟨r, -, -, hlog, -⟩ | ⟨f, -, hlog, -⟩
  · exact ⟨_, hlog, by simp⟩
  · exact ⟨[], by simp [hlog], by simp⟩
  · exact ⟨[], by simp [hlog], by simp⟩

/-- A context's turn keeps the invariant. -/
theorem contextTurn_keeps_wf {turn : Turn} {c : Nat} {s t : State} (hc : contextOf turn = some c)
    (hwf : s.wf = true) (h : takeTurn turn s = .next t) : t.wf = true := by
  obtain ⟨hparams, hne, hctx, hfaults, hhazards⟩ := (State.wf_iff s).mp hwf
  obtain ⟨hp, -, hlen⟩ := takeTurn_outside h
  obtain ⟨x, hx, effect⟩ := contextTurn_effect hc h
  obtain ⟨⟨fs, hfs, hfc⟩, ⟨hs, hhs, hhc⟩⟩ := effect.logs
  have hlt : c < s.contexts.length := (List.getElem?_eq_some_iff.mp hx).1
  refine (State.wf_iff t).mpr ⟨hp ▸ hparams, ?_, contextTurn_keeps_contextWf hc hctx h, ?_, ?_⟩
  · rw [← List.length_pos_iff] at hne ⊢; omega
  · rw [hfs, hlen]
    exact List.forall_mem_append.mpr ⟨hfaults, fun e he => hfc e he ▸ hlt⟩
  · rw [hhs, hlen]
    exact List.forall_mem_append.mpr ⟨hhazards, fun e he => hhc e he ▸ hlt⟩

/-- The invariant does not depend on the registers, the engine, the draws, the schedule or the issuer. -/
theorem wf_of_same_encoder {s t : State} (hp : t.params = s.params) (hl : t.constructed = s.constructed)
    (hf : t.faultLog = s.faultLog) (hh : t.hazardLog = s.hazardLog) (hc : t.contexts = s.contexts)
    (h : s.wf = true) : t.wf = true := by
  rw [State.wf_iff] at h ⊢
  rw [hp, hf, hh, hc]
  obtain ⟨hparams, hne, hctx, hlogs⟩ := h
  exact ⟨hparams, hne, fun x hx => contextWf_mono hp (fun hs => hl.trans hs) (hctx x hx), hlogs⟩

/-- Settles O55: a context's turn keeps the invariant (`contextTurn_keeps_wf`), and no other agent touches the state it
speaks of. -/
theorem stepKeepsStateWellFormed : Obligations.StepKeepsStateWellFormed := by
  intro s t hwf h
  have hmoved : State.wf { s with schedule := s.schedule.tail } = true :=
    wf_of_same_encoder (s := s) rfl rfl rfl rfl rfl hwf
  rcases step_context_or_outside h with ⟨turn, c, x, -, hc, htake, -⟩ | hout
  · exact contextTurn_keeps_wf hc hmoved htake
  · rw [hout]
    exact wf_of_same_encoder (s := s) rfl rfl rfl rfl rfl hwf

end Sys2Proof.Machine

namespace Sys2Proof.Machine

/-! ### The logs (R43, R44) -/

/-- A run that has recorded neither fault nor hazard had recorded none before: the logs only grow. -/
theorem ranRight_of_prefix {s t : State} (hf : s.faultLog <+: t.faultLog) (hh : s.hazardLog <+: t.hazardLog)
    (h : ranRight t = true) : ranRight s = true := by
  simp only [ranRight, Bool.and_eq_true, List.isEmpty_iff] at h ⊢
  exact ⟨List.prefix_nil.mp (h.1 ▸ hf), List.prefix_nil.mp (h.2 ▸ hh)⟩

/-- Settles O42: a context's turn appends its entries, and no other agent writes to a log. -/
theorem logsAreAppendOnly : Obligations.LogsAreAppendOnly := by
  intro s t h
  have hlogs : s.faultLog <+: t.faultLog ∧ s.hazardLog <+: t.hazardLog := by
    rcases step_context_or_outside h with ⟨turn, c, x, -, -, -, effect⟩ | hout
    · obtain ⟨⟨fs, hfs, -⟩, ⟨hs, hhs, -⟩⟩ := effect.logs
      exact ⟨⟨fs, hfs.symm⟩, ⟨hs, hhs.symm⟩⟩
    · rw [hout]; exact ⟨List.prefix_rfl, List.prefix_rfl⟩
  exact ⟨hlogs.1, hlogs.2, ranRight_of_prefix hlogs.1 hlogs.2⟩

/-! ### The latch and the engine's activity (R40, R42) -/

/-- Settles O51: a context's turn clears the latch never and sets it in CONSTRUCT only; no other agent touches it. -/
theorem constructedIsSetOnlyByConstruct : Obligations.ConstructedIsSetOnlyByConstruct := by
  intro s t h
  rcases step_context_or_outside h with ⟨turn, c, x, hturn, hc, -, effect⟩ | hout
  · rcases effect.constructed with hsame | ⟨hset, cfg, hi⟩
    · exact ⟨fun hs => hsame.trans hs, fun hs ht => by simp [hsame, hs] at ht⟩
    · exact ⟨fun _ => hset, fun _ _ => ⟨cfg, (steppingInstr_of_context hturn hc).trans hi⟩⟩
  · rw [hout]
    exact ⟨id, fun hs ht => by simp [hs] at ht⟩

/-- R86: the one engine move that changes the engine's activity is the sample, and it takes the value of `EN`. -/
theorem engineMove_engineActive {m : EngineMove} {s t : State} (h : engineMove m s = some t)
    (hne : t.engineActive ≠ s.engineActive) : m = .sample ∧ t.engineActive = crEn s.regs.cr := by
  cases m with
  | sample =>
    simp only [engineMove] at h
    split_ifs at h with hon hoff <;> cases h <;> simp_all
  | assertFlag i k =>
    simp only [engineMove, assertFlag, Option.some.injEq] at h
    split at h <;> subst h <;> exact absurd rfl hne
  | setFs fs => cases h; exact absurd rfl hne
  | setNdt n | clearEn | switchCt =>
    simp only [engineMove] at h
    split_ifs at h; cases h; exact absurd rfl hne

/-- Settles O52: contexts and foreign software leave the engine's activity alone; of the engine's moves, the sample alone
changes it. -/
theorem engineActivityFollowsSamples : Obligations.EngineActivityFollowsSamples := by
  intro s t h hne
  rcases step_agent h with ⟨turn, c, x, -, -, -, effect⟩ | ⟨m, hturn, hm⟩ | ⟨a, -, rfl⟩
  · exact absurd effect.engineActive hne
  · obtain ⟨rfl, hen⟩ := engineMove_engineActive hm hne
    exact ⟨hturn, hen⟩
  · exact absurd (by rw [foreignAccess_outside]) hne

/-! ### The address and count registers (R28 to R31) -/

/-- A write of another register leaves `PAR` alone; likewise for the next three. -/
theorem writeRule_par_of_ne {r : Reg} (h : r ≠ .par) (b : BusWord) (g : Regs) : (writeRule r b g).par = g.par := by
  cases r with
  | par => exact absurd rfl h
  | _ => rfl

theorem writeRule_m0ar_of_ne {r : Reg} (h : r ≠ .m0ar) (b : BusWord) (g : Regs) :
    (writeRule r b g).m0ar = g.m0ar := by
  cases r with
  | m0ar => exact absurd rfl h
  | _ => rfl

theorem writeRule_m1ar_of_ne {r : Reg} (h : r ≠ .m1ar) (b : BusWord) (g : Regs) :
    (writeRule r b g).m1ar = g.m1ar := by
  cases r with
  | m1ar => exact absurd rfl h
  | _ => rfl

theorem writeRule_ndt_of_ne {r : Reg} (h : r ≠ .ndtr) (b : BusWord) (g : Regs) : (writeRule r b g).ndt = g.ndt := by
  cases r with
  | ndtr => exact absurd rfl h
  | _ => rfl

/-- R83: the one engine move that changes `NDT` is the count move. -/
theorem engineMove_ndt {m : EngineMove} {s t : State} (h : engineMove m s = some t)
    (hne : t.regs.ndt ≠ s.regs.ndt) : ∃ n, m = .setNdt n := by
  cases m with
  | setNdt n => exact ⟨n, rfl⟩
  | assertFlag i k =>
    simp only [engineMove, assertFlag, Option.some.injEq] at h
    split at h <;> subst h <;> exact absurd rfl hne
  | setFs fs => cases h; exact absurd rfl hne
  | clearEn | switchCt | sample =>
    simp only [engineMove] at h
    split_ifs at h <;> cases h <;> exact absurd rfl hne

/-- WHAT CAN CHANGE A FIELD OF A REGISTER that, of all operations, only CONSTRUCT writes: a CONSTRUCT, a foreign write of
the register, or an engine move. -/
theorem step_changes_constructed_field {α : Type} {get : Regs → α} {own : Reg}
    (hget : ∀ {r : Reg}, r ≠ own → ∀ b g, get (writeRule r b g) = get g)
    (hown : own = .par ∨ own = .m0ar ∨ own = .m1ar ∨ own = .ndtr) {s t : State} (h : step s = .next t)
    (hne : get t.regs ≠ get s.regs) :
    (∃ cfg, steppingInstr s = some (.construct cfg)) ∨ (∃ v, turnOf s = some (.foreign (.write own v))) ∨
    (∃ m, turnOf s = some (.engine m) ∧ engineMove m { s with schedule := s.schedule.tail } = some t) := by
  have hreg : ∀ {r : Reg} {b : BusWord} {g : Regs}, get g = get s.regs → get (writeRule r b g) ≠ get s.regs →
      r = own := by
    intro r b g hg hw
    by_contra hr
    exact hw ((hget hr b g).trans hg)
  rcases step_breaks_regs h (fun g => get g = get s.regs) rfl hne with
    ⟨i, r, u, b, g, hi, hmem, hg, hw⟩ | ⟨r, v, hturn, hw⟩ | hm
  · obtain rfl := hreg hg hw
    rcases write_of_operation hmem with ⟨⟨cfg, rfl⟩, -⟩ | rfl | rfl | ⟨k, -, hclear, -⟩
    · exact .inl ⟨cfg, hi⟩
    · simp at hown
    · simp at hown
    · cases hsel : (locate s.params.streamIndex).1 <;> simp [hclear, hsel, clearRegOf] at hown
  · obtain rfl := hreg rfl hw
    exact .inr (.inl ⟨v, hturn⟩)
  · exact .inr (.inr hm)

/-- The same of a field that the engine leaves alone. -/
theorem step_changes_address {get : Regs → Word} {own : Reg}
    (hget : ∀ {r : Reg}, r ≠ own → ∀ b g, get (writeRule r b g) = get g)
    (hown : own = .par ∨ own = .m0ar ∨ own = .m1ar ∨ own = .ndtr)
    (hengine : ∀ {m : EngineMove} {u v : State}, engineMove m u = some v → get v.regs = get u.regs)
    {s t : State} (h : step s = .next t) (hne : get t.regs ≠ get s.regs) :
    (∃ cfg, steppingInstr s = some (.construct cfg)) ∨ ∃ v, turnOf s = some (.foreign (.write own v)) := by
  rcases step_changes_constructed_field hget hown h hne with hc | hf | ⟨m, -, hm⟩
  · exact .inl hc
  · exact .inr hf
  · exact absurd (hengine hm) hne

/-- Settles O53: `step_changes_address` for the three addresses; the count is moved by the engine's own move too (R83). -/
theorem addressesChangeOnlyByConstructOrForeignWrite :
    Obligations.AddressesChangeOnlyByConstructOrForeignWrite := by
  intro s t h
  refine ⟨step_changes_address writeRule_par_of_ne (by simp) (fun hm => ?_) h,
    step_changes_address writeRule_m0ar_of_ne (by simp) (fun hm => ?_) h,
    step_changes_address writeRule_m1ar_of_ne (by simp) (fun hm => ?_) h, fun hne => ?_⟩
  · obtain ⟨hpar, -⟩ := engineMove_regs hm
    exact hpar
  · obtain ⟨-, hm0ar, -⟩ := engineMove_regs hm
    exact hm0ar
  · obtain ⟨-, -, hm1ar, -⟩ := engineMove_regs hm
    exact hm1ar
  · rcases step_changes_constructed_field writeRule_ndt_of_ne (by simp) h hne with hc | hf | ⟨m, hturn, hm⟩
    · exact .inl hc
    · exact .inr (.inl hf)
    · obtain ⟨n, rfl⟩ := engineMove_ndt hm hne
      exact .inr (.inr ⟨n, hturn⟩)

/-! ### The flags (R35, R37, R38) -/

/-- The flags of a shared status register (R35). -/
def selFlags : RegSel → Regs → BitVec 20
  | .low, g => g.lisr
  | .high, g => g.hisr

/-- R37: a write touches the flags of the matching status register only, and only as write-1-to-clear. -/
theorem selFlags_writeRule (sel : RegSel) (r : Reg) (b : BusWord) (g : Regs) :
    selFlags sel (writeRule r b g) =
      if r = clearRegOf sel then clearFlags (selFlags sel g) b else selFlags sel g := by
  cases sel <;> cases r <;> rfl

/-- R37: a flag that is set after a write was set before it. -/
theorem selFlags_of_writeRule {sel : RegSel} {r : Reg} {b : BusWord} {g : Regs} {j : Nat}
    (h : (selFlags sel (writeRule r b g)).getLsbD j = true) : (selFlags sel g).getLsbD j = true := by
  rw [selFlags_writeRule] at h
  split at h
  · rw [clearFlags, BitVec.getLsbD_and, Bool.and_eq_true] at h
    exact h.1
  · exact h

/-- R37: a flag that a write of a plain word clears is of the register's pair, and the word has a 1 there. -/
theorem cleared_by_writeRule {sel : RegSel} {r : Reg} {v : Word} {g : Regs} {j : Nat}
    (h0 : (selFlags sel g).getLsbD j = true)
    (h1 : (selFlags sel (writeRule r (BusWord.ofWord v) g)).getLsbD j = false) :
    r = clearRegOf sel ∧ v.getLsbD j = true := by
  rw [selFlags_writeRule] at h1
  split at h1
  · next hr =>
    rw [getLsbD_clearFlags_ofWord _ _ _ (BitVec.lt_of_getLsbD h0), h0] at h1
    exact ⟨hr, by simpa using h1⟩
  · exact absurd (h0.symm.trans h1) (by decide)

/-- R81, R87: the one engine move that sets a flag is the assertion of that flag. -/
theorem set_by_engineMove {sel : RegSel} {m : EngineMove} {s t : State} {j : Nat} (h : engineMove m s = some t)
    (h0 : (selFlags sel s.regs).getLsbD j = false) (h1 : (selFlags sel t.regs).getLsbD j = true) :
    ∃ (i : Fin 8) (k : Kind), m = .assertFlag i k ∧ (locate i.val).1 = sel ∧
      j = flagBit s.params.flagBits i.val k := by
  have hunset : selFlags sel t.regs ≠ selFlags sel s.regs := fun he => by simp [he, h0] at h1
  cases m with
  | assertFlag i k =>
    refine ⟨i, k, rfl, ?_⟩
    have hbit : ∀ flags : BitVec 20, flags.getLsbD j = false →
        (flags ||| 1#20 <<< flagBit s.params.flagBits i.val k).getLsbD j = true →
        j = flagBit s.params.flagBits i.val k := by
      intro flags hf hor
      simp [hf] at hor
      omega
    simp only [engineMove, assertFlag, Option.some.injEq] at h
    split at h
    · next hsel =>
      subst h
      cases sel with
      | low => exact ⟨hsel, hbit _ h0 h1⟩
      | high => exact absurd rfl hunset
    · next hsel =>
      subst h
      cases sel with
      | low => exact absurd rfl hunset
      | high => exact ⟨hsel, hbit _ h0 h1⟩
  | setFs fs => cases h; exact absurd (by cases sel <;> rfl) hunset
  | setNdt n | clearEn | switchCt | sample =>
    simp only [engineMove] at h
    split_ifs at h <;> cases h <;> exact absurd (by cases sel <;> rfl) hunset

/-- R38: a step that sets a flag is the engine's assertion of it. -/
theorem step_sets_flag {s t : State} {sel : RegSel} {j : Nat} (h : step s = .next t)
    (h0 : (selFlags sel s.regs).getLsbD j = false) (h1 : (selFlags sel t.regs).getLsbD j = true) :
    ∃ (i : Fin 8) (k : Kind), turnOf s = some (.engine (.assertFlag i k)) ∧ (locate i.val).1 = sel ∧
      j = flagBit s.params.flagBits i.val k := by
  rcases step_breaks_regs h (fun g => (selFlags sel g).getLsbD j = false) h0 (by simp [h1]) with
    ⟨i, r, u, b, g, -, -, hg, hw⟩ | ⟨r, v, -, hw⟩ | ⟨m, hturn, hm⟩
  · exact absurd (selFlags_of_writeRule (by simpa using hw)) (by simp [hg])
  · exact absurd (selFlags_of_writeRule (by simpa using hw)) (by simp [h0])
  · obtain ⟨i, k, rfl, hsel, hj⟩ := set_by_engineMove hm h0 h1
    exact ⟨i, k, hturn, hsel, hj⟩

/-- R38: a step that clears a flag is this stream's CLEAR_INTERRUPT_FLAG of it, or a foreign write of 1 to it. -/
theorem step_clears_flag {s t : State} {sel : RegSel} {j : Nat} (h : step s = .next t)
    (h0 : (selFlags sel s.regs).getLsbD j = true) (h1 : (selFlags sel t.regs).getLsbD j = false) :
    (∃ k, steppingInstr s = some (.clearInterruptFlag k) ∧ (locate s.params.streamIndex).1 = sel ∧
      j = flagBit s.params.flagBits s.params.streamIndex k) ∨
    (∃ v, turnOf s = some (.foreign (.write (clearRegOf sel) v)) ∧ v.getLsbD j = true) := by
  rcases step_breaks_regs h (fun g => (selFlags sel g).getLsbD j = true) h0 (by simp [h1]) with
    ⟨i, r, u, b, g, hi, hmem, hg, hw⟩ | ⟨r, v, hturn, hw⟩ | ⟨m, -, hm⟩
  · left
    have hr : r = clearRegOf sel := by
      by_contra hr
      rw [selFlags_writeRule, if_neg hr] at hw
      exact hw hg
    rcases write_of_operation hmem with ⟨-, hown⟩ | rfl | rfl | ⟨k, rfl, hclear, rfl⟩
    · subst hr; cases sel <;> cases hown
    · cases sel <;> cases hr
    · cases sel <;> cases hr
    · refine ⟨k, hi, ?_, ?_⟩
      · rw [hclear] at hr
        revert hr
        cases (locate s.params.streamIndex).1 <;> cases sel <;> simp [clearRegOf]
      · obtain ⟨-, hmask⟩ := cleared_by_writeRule hg (Bool.eq_false_iff.mpr hw)
        rw [getLsbD_flagMask _ _ _ _ (BitVec.lt_of_getLsbD hg)] at hmask
        exact of_decide_eq_true hmask
  · obtain ⟨rfl, hv⟩ := cleared_by_writeRule h0 (Bool.eq_false_iff.mpr hw)
    exact .inr ⟨v, hturn, hv⟩
  · obtain ⟨-, -, -, -, -, -, hlisr, hhisr⟩ := engineMove_regs hm
    have hkept : (selFlags sel t.regs).getLsbD j = true := by
      cases sel
      · exact hlisr j h0
      · exact hhisr j h0
    exact absurd (hkept.symm.trans h1) (by decide)

/-- Settles O50, by `step_sets_flag` and `step_clears_flag`. -/
theorem flagsSetByEngineClearedByWrite : Obligations.FlagsSetByEngineClearedByWrite := by
  intro s t sel j h
  cases sel
  · exact ⟨step_sets_flag (sel := .low) h, step_clears_flag (sel := .low) h⟩
  · exact ⟨step_sets_flag (sel := .high) h, step_clears_flag (sel := .high) h⟩

/-! ### A whole turn runs the next command (R72, R73) -/

/-- A whole turn of a context with nothing in flight is `exec` of the operation its next command stands for. -/
theorem wholeTurn_of_takesNext {c : Nat} {cmd : Command} {i : Instr} {s : State} (h : TakesNext c cmd s)
    (hd : decode cmd = .ok i) : takeTurn (.whole c) s = exec i { s with issuer := c } := by
  obtain ⟨x, hx, hf, hn⟩ := h
  simp only [takeTurn, wholeTurn, hx, hf, show x.next = some cmd from hn, hd]

/-- Settles O9: the scheduled turn is the step, and the whole turn is `exec`. -/
theorem stepRunsDecodedCommand : Obligations.StepRunsDecodedCommand := by
  intro s c cmd i rest hs hnext hd
  rw [step_of_schedule hs]
  exact wholeTurn_of_takesNext hnext hd

end Sys2Proof.Machine

namespace Sys2Proof.Machine

/-! ### What a write does (R25, R28 to R31, R33, R35, R37) -/

/-- The low bits of a word, under a mask that holds them all. -/
theorem setWidth_and_eq_extractLsb' {n : Nat} {mask : Word} (hn : n ≤ 32)
    (hmask : mask.setWidth n = BitVec.allOnes n) (w : Word) : (w &&& mask).setWidth n = w.extractLsb' 0 n := by
  rw [BitVec.setWidth_and, hmask, BitVec.and_allOnes, BitVec.setWidth_eq_extractLsb' hn]

/-- R25. -/
theorem writeRule_cr_ofWord (v : Word) (g : Regs) :
    writeRule .cr (BusWord.ofWord v) g = { g with cr := v.extractLsb' 0 25 } := by
  simp only [writeRule, BusWord.bits_ofWord,
    setWidth_and_eq_extractLsb' (n := 25) (mask := crDefined) (by decide) (by decide)]

/-- R28. -/
theorem writeRule_ndtr_ofWord (v : Word) (g : Regs) :
    writeRule .ndtr (BusWord.ofWord v) g = { g with ndt := v.extractLsb' 0 16 } := by
  simp only [writeRule, BusWord.bits_ofWord,
    setWidth_and_eq_extractLsb' (n := 16) (mask := ndtrDefined) (by decide) (by decide)]

/-- Every bit of an address register is stored (R29 to R31). -/
theorem bits_ofWord_all (v : Word) : (BusWord.ofWord v).bits (~~~0#32) = v := by
  rw [BusWord.bits_ofWord, BitVec.not_zero, BitVec.and_allOnes]

/-- R33: `FTH`, `FCR2` and `FEIE` are written; `FS` and the reserved bits are not. -/
theorem Fcr.write_ofWord (v : Word) (f : Fcr) :
    f.write (BusWord.ofWord v) =
      { fth := v.extractLsb' 0 2, fcr2 := v.getLsbD 2, fs := f.fs, feie := v.getLsbD 7 } := by
  have h2 : (0x4#32).getLsbD 2 = true := by decide
  have h7 : (0x80#32).getLsbD 7 = true := by decide
  simp only [Fcr.write, BusWord.bits_ofWord,
    setWidth_and_eq_extractLsb' (n := 2) (mask := 0x3#32) (by decide) (by decide),
    BitVec.getLsbD_and, h2, h7, Bool.and_true]

/-- A foreign write is the register's write rule on a plain word (R74). -/
theorem takeTurn_foreign_write (r : Reg) (v : Word) (s : State) :
    takeTurn (.foreign (.write r v)) s = .next { s with regs := writeRule r (BusWord.ofWord v) s.regs } := rfl

/-- Settles O45, register by register. -/
theorem foreignWriteFollowsWriteRule : Obligations.ForeignWriteFollowsWriteRule := by
  intro s v after withRegs
  have hafter : ∀ {r g}, writeRule r (BusWord.ofWord v) s.regs = g → after r = withRegs g := by
    rintro r g rfl
    exact takeTurn_foreign_write r v s
  refine ⟨hafter (writeRule_cr_ofWord v _), hafter (writeRule_ndtr_ofWord v _), hafter ?_, hafter ?_, hafter ?_,
    hafter ?_, hafter rfl, hafter rfl, ⟨_, hafter rfl, ?_⟩, ⟨_, hafter rfl, ?_⟩⟩
  · simp only [writeRule, bits_ofWord_all]
  · simp only [writeRule, bits_ofWord_all]
  · simp only [writeRule, bits_ofWord_all]
  · simp only [writeRule, Fcr.write_ofWord]
  · exact fun j hj => getLsbD_clearFlags_ofWord _ v j hj
  · exact fun j hj => getLsbD_clearFlags_ofWord _ v j hj

/-! ### What a read gives (R26, R28 to R31, R34 to R37) -/

/-- One bit on the bus: a given bit, or the draw's where the bit is undefined. -/
theorem BusWord.getLsbD_value (b : BusWord) (j : Nat) :
    b.value.getLsbD j = (b.known.getLsbD j || ((Config.freeDraw b.draw).getLsbD j && b.openBits.getLsbD j)) := by
  simp [BusWord.value]

/-- A field on the bus none of whose bits is undefined is the given one. -/
theorem BusWord.extractLsb'_value {b : BusWord} {lo n : Nat} (h : b.openBits.extractLsb' lo n = 0#n) :
    b.value.extractLsb' lo n = b.known.extractLsb' lo n := by
  rw [BusWord.value, BitVec.extractLsb'_or, BitVec.extractLsb'_and, h, BitVec.and_zero, BitVec.or_zero]

/-- A read of a register whose stored bits are the low `n`: those, and the draw above them. -/
theorem getLsbD_value_memReadWord {r : Reg} {s : State} {n : Nat} {stored : BitVec n} {mask : Word}
    (hr : readRule r s.regs = (stored.setWidth 32, ~~~mask))
    (hmask : ∀ j, j < 32 → mask.getLsbD j = decide (j < n)) (j : Nat) (hj : j < 32) :
    (memReadWord r s).value.getLsbD j =
      if j < n then stored.getLsbD j else (Config.freeDraw s.draws).getLsbD j := by
  rw [BusWord.getLsbD_value, memReadWord_known, memReadWord_openBits, memReadWord_draw, hr]
  by_cases hjn : j < n
  · simp only [BitVec.getLsbD_setWidth, BitVec.getLsbD_not, hmask j hj, hj, hjn, decide_true, Bool.true_and,
      Bool.not_true, Bool.and_false, Bool.or_false, if_true]
  · simp only [BitVec.getLsbD_setWidth, BitVec.getLsbD_not, hmask j hj, hj, hjn, decide_true, decide_false,
      Bool.true_and, Bool.not_false, Bool.and_true, BitVec.getLsbD_of_ge stored j (not_lt.mp hjn), Bool.false_or,
      if_false]

/-- A read of a register that stores all 32 bits gives them (R29 to R31). -/
theorem value_memReadWord_of_stored {r : Reg} {s : State} {w : Word} (hr : readRule r s.regs = (w, 0#32)) :
    (memReadWord r s).value = w := by
  rw [BusWord.value, memReadWord_known, memReadWord_openBits, hr, BitVec.and_zero, BitVec.or_zero]

/-- A read of a clear register is a draw on every bit (R37). -/
theorem value_memReadWord_of_open {r : Reg} {s : State} (hr : readRule r s.regs = (0#32, ~~~0#32)) :
    (memReadWord r s).value = Config.freeDraw s.draws := by
  rw [BusWord.value, memReadWord_known, memReadWord_openBits, memReadWord_draw, hr, BitVec.not_zero,
    BitVec.and_allOnes, BitVec.zero_or]

/-- The fields of the 32-bit view of `FCR` (R32), and its reserved bits 0. -/
theorem Fcr.toWord_fields (f : Fcr) :
    f.toWord.extractLsb' 0 2 = f.fth ∧ f.toWord.getLsbD 2 = f.fcr2 ∧ f.toWord.extractLsb' 3 3 = f.fs ∧
      f.toWord.getLsbD 7 = f.feie ∧ f.toWord &&& ~~~fcrDefined = 0#32 := by
  obtain ⟨fth, fcr2, fs, feie⟩ := f
  revert fth fcr2 fs feie
  decide

/-- A read of `FCR`, field by field: the stored ones, and the draw on the reserved bits (R32, R34). -/
theorem memReadWord_fcr_fields (s : State) :
    (memReadWord .fcr s).value.extractLsb' 0 2 = s.regs.fcr.fth ∧
    (memReadWord .fcr s).value.getLsbD 2 = s.regs.fcr.fcr2 ∧
    (memReadWord .fcr s).value.extractLsb' 3 3 = s.regs.fcr.fs ∧
    (memReadWord .fcr s).value.getLsbD 7 = s.regs.fcr.feie ∧
    ∀ j, (j = 6 ∨ 8 ≤ j) → j < 32 →
      (memReadWord .fcr s).value.getLsbD j = (Config.freeDraw s.draws).getLsbD j := by
  obtain ⟨hfth, hfcr2, hfs, hfeie, hreserved⟩ := Fcr.toWord_fields s.regs.fcr
  have hgiven : ∀ j, (~~~fcrDefined).getLsbD j = false →
      (memReadWord .fcr s).value.getLsbD j = s.regs.fcr.toWord.getLsbD j := by
    intro j hj
    rw [BusWord.getLsbD_value, memReadWord_known, memReadWord_openBits, readRule, hj, Bool.and_false, Bool.or_false]
  have hopen : ∀ j, (j = 6 ∨ 8 ≤ j) → j < 32 → (~~~fcrDefined).getLsbD j = true := by
    have hall : ∀ j, j < 32 → (j = 6 ∨ 8 ≤ j) → (~~~fcrDefined).getLsbD j = true := by decide
    exact fun j hres hj => hall j hj hres
  have hopenFth : (~~~fcrDefined).extractLsb' 0 2 = 0#2 := by decide
  have hopenFs : (~~~fcrDefined).extractLsb' 3 3 = 0#3 := by decide
  refine ⟨(BusWord.extractLsb'_value hopenFth).trans hfth, (hgiven 2 (by decide)).trans hfcr2,
    (BusWord.extractLsb'_value hopenFs).trans hfs, (hgiven 7 (by decide)).trans hfeie, fun j hres hj => ?_⟩
  have hzero : s.regs.fcr.toWord.getLsbD j = false := by
    have hbit := congrArg (BitVec.getLsbD · j) hreserved
    simpa only [BitVec.getLsbD_and, hopen j hres hj, Bool.and_true, BitVec.getLsbD_zero] using hbit
  rw [BusWord.getLsbD_value, memReadWord_known, memReadWord_openBits, memReadWord_draw, readRule, hzero,
    hopen j hres hj, Bool.false_or, Bool.and_true]

/-- Settles O46, register by register. -/
theorem readFollowsReadRule : Obligations.ReadFollowsReadRule := by
  intro s word drawn
  obtain ⟨hfth, hfcr2, hfs, hfeie, hreserved⟩ := memReadWord_fcr_fields s
  exact ⟨getLsbD_value_memReadWord rfl (by decide), getLsbD_value_memReadWord rfl (by decide),
    value_memReadWord_of_stored rfl, value_memReadWord_of_stored rfl, value_memReadWord_of_stored rfl,
    hfth, hfcr2, hfs, hfeie, hreserved, getLsbD_value_memReadWord rfl (by decide),
    getLsbD_value_memReadWord rfl (by decide), value_memReadWord_of_open rfl, value_memReadWord_of_open rfl,
    fun _ => rfl⟩

/-! ### Draws reach no outcome (D17) -/

/-- The checks of an operation do not see the draw counter. -/
theorem checkFault_draws (i : Instr) (s : State) (n : Nat) :
    checkFault i { s with draws := n } = checkFault i s := by
  cases i <;> rfl

/-- Recording a hazard does not see the draw counter. -/
theorem recordHazard_withDraws (cmd : Command) (h : Option HazardCode) (s : State) (n : Nat) :
    recordHazard cmd h { s with draws := n } = { recordHazard cmd h s with draws := n } := by
  cases h <;> rfl

/-- The draw counter after an operation is the one thing of its outcome that depends on the counter before it. -/
theorem exec_draws_of_checks_pass {i : Instr} {s : State} (h : checkFault i s = none) (n : Nat) :
    ∃ t m, exec i s = .next t ∧ exec i { s with draws := n } = .next { t with draws := m } := by
  obtain ⟨hidx, hcon⟩ := checks_pass h
  have hready : isConstruct i = false → Ready s := fun hi => ⟨hidx, hcon.resolve_right (by simp [hi])⟩
  have hready' : isConstruct i = false → Ready { s with draws := n } := hready
  cases i with
  | construct cfg =>
    have hv : ValidConfig cfg := by
      have hf : constructFault cfg s = none := h
      rw [constructFault, if_neg (not_le.mpr hidx), Option.map_eq_none_iff] at hf
      exact (cfgCondition_eq_none_iff cfg).mp hf
    refine ⟨_, n, exec_construct hidx hv, (exec_construct (s := { s with draws := n }) hidx hv).trans ?_⟩
    rw [recordHazard_withDraws]
    rfl
  | enable => exact ⟨_, _, exec_enable (hready rfl), exec_enable (hready' rfl)⟩
  | disable => exact ⟨_, _, exec_disable (hready rfl), exec_disable (hready' rfl)⟩
  | setTargetMemory b => exact ⟨_, _, exec_setTargetMemory (hready rfl) b, exec_setTargetMemory (hready' rfl) b⟩
  | enableInterrupt kset =>
    obtain ⟨a, ha⟩ := exec_enableInterrupt (hready rfl) kset
    obtain ⟨m, hm⟩ := exec_enableInterrupt (hready' rfl) kset
    exact ⟨_, m, ha, hm⟩
  | disableInterrupt kset =>
    obtain ⟨a, ha⟩ := exec_disableInterrupt (hready rfl) kset
    obtain ⟨m, hm⟩ := exec_disableInterrupt (hready' rfl) kset
    exact ⟨_, m, ha, hm⟩
  | clearInterruptFlag k =>
    exact ⟨_, n, exec_clearInterruptFlag (hready rfl) k, exec_clearInterruptFlag (hready' rfl) k⟩
  | getInterruptFlag k => exact ⟨_, _, exec_getInterruptFlag (hready rfl) k, exec_getInterruptFlag (hready' rfl) k⟩
  | setFifoThreshold lvl =>
    exact ⟨_, _, exec_setFifoThreshold (hready rfl) lvl, exec_setFifoThreshold (hready' rfl) lvl⟩
  | getFifoStatus =>
    refine ⟨_, n + 1, exec_getFifoStatus (hready rfl), (exec_getFifoStatus (hready' rfl)).trans ?_⟩
    dsimp only
    cases decodeFS s.regs.fcr.fs <;> rfl

/-- Settles O48: an operation's checks ask for no draw, and where they pass its outcome is one that no draw reaches. -/
theorem drawsNeverReachTheOutcome : Obligations.DrawsNeverReachTheOutcome := by
  intro i s t n h
  cases hf : checkFault i s with
  | some code =>
    obtain rfl : raiseFault (encode i) code s = t :=
      Host.Outcome.next.inj ((exec_of_checkFault hf).symm.trans h)
    exact ⟨n, exec_of_checkFault ((checkFault_draws i s n).trans hf)⟩
  | none =>
    obtain ⟨u, m, hu, hm⟩ := exec_draws_of_checks_pass hf n
    obtain rfl : u = t := Host.Outcome.next.inj (hu.symm.trans h)
    exact ⟨m, hm⟩

end Sys2Proof.Machine

/-! ## Bus transactions and agents (20_memory.md) -/

namespace Sys2Proof.Machine

/-! ### An operation is its transactions (R72, R73) -/

/-- Turns one list after another, where the first list does not stop. -/
theorem takeTurns_append_of_next {ts : List Turn} {s s' : State} (us : List Turn) (h : takeTurns ts s = .next s') :
    takeTurns (ts ++ us) s = takeTurns us s' := by
  induction ts generalizing s with
  | nil =>
    obtain rfl : s = s' := by simpa [takeTurns] using h
    rfl
  | cons t ts ih =>
    obtain ⟨s1, h1, h2⟩ := takeTurns_cons h
    simp only [List.cons_append, takeTurns, h1]
    exact ih h2

/-- A list of one turn. -/
theorem takeTurns_singleton (t : Turn) (s : State) : takeTurns [t] s = takeTurn t s := by
  simp only [takeTurns]
  cases takeTurn t s <;> rfl

/-- After the transaction of an operation that has `n` more, `n` transaction turns of its context finish it. -/
theorem takeTurns_after_advance {c n : Nat} {s : State} {x : Context} {f : InFlight} (hissuer : s.issuer = c)
    (hx : s.contexts[c]? = some x) (hl : (operationOf f.instr s).txns.length = f.index + n + 1) :
    takeTurns (List.replicate n (.txn c)) (advance f s) = .next (finishInflight f s) := by
  have hlen : ((operationOf f.instr s).txns.drop f.index).length = n + 1 := by simp; omega
  match hdrop : (operationOf f.instr s).txns.drop f.index with
  | [] => simp [hdrop] at hlen
  | [t] =>
    obtain rfl : n = 0 := by simpa [hdrop] using hlen
    rw [advance_of_last (by omega)]
    rfl
  | t :: t' :: rest =>
    obtain ⟨m, rfl⟩ : ∃ m, n = m + 1 := ⟨rest.length, by simpa [hdrop] using hlen.symm⟩
    have hadv := advance_of_more hdrop
    have hparams : (advance f s).params = s.params := by rw [hadv]; cases t <;> rfl
    have hsame : { advance f s with issuer := c } = advance f s := by rw [hadv, ← hissuer]; cases t <;> rfl
    rw [inflight_run c m (advance f s) (x.setInflight ⟨f.instr, f.index + 1, (doTxn t f.v s).1⟩)
        ⟨f.instr, f.index + 1, (doTxn t f.v s).1⟩ (by rw [hadv, hissuer]; simp [hx]) rfl
        (by rw [(operationOf_txns_of_params f.instr hparams).1]; simp only; omega),
      hsame, finishInflight_advance hdrop]

/-- A transaction turn of a context with nothing in flight starts the operation of its next command. -/
theorem txnTurn_of_takesNext {c : Nat} {cmd : Command} {i : Instr} {s : State} (h : TakesNext c cmd s)
    (hd : decode cmd = .ok i) : takeTurn (.txn c) s = .next (startOp i { s with issuer := c }) := by
  obtain ⟨x, hx, hf, hn⟩ := h
  simp only [takeTurn, txnTurn, hx, hf, show x.next = some cmd from hn, hd]

/-- An operation whose checks raise a fault starts and runs by raising it (R232). -/
theorem startOp_of_fault {i : Instr} {s : State} {code : FaultCode} (h : (operationOf i s).fault = some code) :
    startOp i s = raiseFault (encode i) code s := by
  simp only [startOp, h]

/-- An operation whose checks pass starts with its hazard and its first transaction (R72). -/
theorem startOp_of_checks_pass {i : Instr} {s : State} (h : (operationOf i s).fault = none) :
    startOp i s =
      advance { instr := i, index := 0, v := BusWord.zero } (recordHazard (encode i) (operationOf i s).hazard s) := by
  simp only [startOp, h]

/-- An operation whose checks pass, run whole, is its hazard and then all of its transactions. -/
theorem exec_of_checks_pass {i : Instr} {s : State} (h : (operationOf i s).fault = none) :
    exec i s = .next (finishInflight { instr := i, index := 0, v := BusWord.zero }
      (recordHazard (encode i) (operationOf i s).hazard s)) := by
  have hop := operationOf_txns_of_params i (recordHazard_params (encode i) (operationOf i s).hazard s)
  simp only [exec_eq_runOp, runOp, h, finishInflight, hop.1, hop.2, List.drop_zero]

/-- Settles O11: the first turn makes the checks, records the hazard and performs the first transaction, and the turns
after it finish what is in flight (`takeTurns_after_advance`). -/
theorem wholeOperationIsItsTransactions : Obligations.WholeOperationIsItsTransactions := by
  intro s c cmd i hnext hd
  have hfirst := txnTurn_of_takesNext hnext hd
  cases hfault : (operationOf i { s with issuer := c }).fault with
  | some code =>
    rw [startOp_of_fault hfault] at hfirst
    rw [exec_of_checkFault hfault, ← hfirst]
    exact takeTurns_singleton _ _
  | none =>
    obtain ⟨x, hx, -⟩ := hnext
    obtain ⟨n, hn⟩ : ∃ n, (operationOf i { s with issuer := c }).txns.length = n + 1 :=
      Nat.exists_eq_add_of_le' (operationOf_txns_length i _).1
    have hop := operationOf_txns_of_params i (recordHazard_params (encode i)
      (operationOf i { s with issuer := c }).hazard { s with issuer := c })
    rw [exec_of_checks_pass hfault]
    simp only [Option.isSome_none, Bool.false_eq_true, if_false, hn, List.replicate_succ, takeTurns, hfirst,
      startOp_of_checks_pass hfault]
    exact takeTurns_after_advance (by simp) (by simpa using hx) (by simp only [hop.1]; omega)

/-- A whole turn that finishes the operation in flight is one to five transaction turns (R274). -/
theorem wholeTurn_of_inflight {c : Nat} {s : State} {x : Context} {f : InFlight} (hx : s.contexts[c]? = some x)
    (hf : x.inflight = some f) :
    ∃ n, 1 ≤ n ∧ n ≤ 5 ∧ takeTurns (List.replicate n (.txn c)) s = wholeTurn c s := by
  have hwhole : wholeTurn c s = .next (finishInflight f { s with issuer := c }) := by
    simp only [wholeTurn, hx, hf]
  have hbound := (operationOf_txns_length f.instr s).2
  have hop := operationOf_txns_of_params f.instr (s := s) (t := { s with issuer := c }) rfl
  rw [hwhole]
  by_cases hlast : (operationOf f.instr s).txns.length ≤ f.index + 1
  · refine ⟨1, le_refl 1, by omega, ?_⟩
    rw [← advance_of_last (by rw [hop.1]; exact hlast)]
    simp only [List.replicate_one, takeTurns_singleton, takeTurn, txnTurn, hx, hf]
  · exact ⟨(operationOf f.instr s).txns.length - f.index - 1 + 1, by omega, by omega,
      inflight_run c _ s x f hx hf (by omega)⟩

/-- Settles O12, along the cases of the turn: no such context, an operation in flight, no command left, an illegal
command, or the next operation, which is O11. -/
theorem wholeTurnIsTransactionTurns : Obligations.WholeTurnIsTransactionTurns := by
  intro s c
  have hone : txnTurn c s = wholeTurn c s →
      ∃ n, 1 ≤ n ∧ n ≤ 5 ∧ takeTurns (List.replicate n (.txn c)) s = wholeTurn c s :=
    fun h => ⟨1, le_refl 1, by omega, (takeTurns_singleton _ _).trans h⟩
  cases hx : s.contexts[c]? with
  | none => exact hone (by simp only [txnTurn, wholeTurn, hx])
  | some x =>
    cases hf : x.inflight with
    | some f => exact wholeTurn_of_inflight hx hf
    | none =>
      cases hn : x.next with
      | none => exact hone (by simp only [txnTurn, wholeTurn, hx, hf, hn])
      | some cmd =>
        cases hd : decode cmd with
        | error e => exact hone (by simp only [txnTurn, wholeTurn, hx, hf, hn, hd])
        | ok i =>
          have hnext : TakesNext c cmd s := ⟨x, hx, hf, hn⟩
          obtain ⟨hmin, hmax⟩ := operationOf_txns_length i { s with issuer := c }
          refine ⟨_, ?_, ?_, (wholeOperationIsItsTransactions s c cmd i hnext hd).trans
            (wholeTurn_of_takesNext hnext hd).symm⟩
          · split_ifs
            · exact le_refl 1
            · exact hmin
          · split_ifs
            · omega
            · exact hmax

/-! ### Two operations of two contexts (R73, P3) -/

/-- An operation other than CONSTRUCT raises no fault in its checks when the stream is ready (R234, R235). -/
theorem checks_pass_of_ready {i : Instr} {s : State} (hready : Ready s) (hi : isConstruct i = false) :
    (operationOf i s).fault = none := by
  cases i with
  | construct cfg => cases hi
  | _ => exact prologue_of_ready hready

/-- A context that takes a command still does after a step that leaves the context alone. -/
theorem TakesNext.of_same_context {d : Nat} {cmd : Command} {s t : State} (h : TakesNext d cmd s)
    (hsame : t.contexts[d]? = s.contexts[d]?) : TakesNext d cmd t := by
  obtain ⟨x, hx, hrest⟩ := h
  exact ⟨x, hsame.trans hx, hrest⟩

/-- An operation of two transactions whose checks pass is its two turns, and leaves the stream ready and the other
contexts alone. -/
theorem takeTurns_two_txns {c : Nat} {cmd : Command} {i : Instr} {s t : State} (hready : Ready s)
    (hi : isConstruct i = false) (hlen : (operationOf i s).txns.length = 2) (hnext : TakesNext c cmd s)
    (hd : decode cmd = .ok i) (hexec : exec i { s with issuer := c } = .next t) :
    takeTurns [.txn c, .txn c] s = .next t ∧ Ready t ∧ ∀ d, d ≠ c → t.contexts[d]? = s.contexts[d]? := by
  have hfault := checks_pass_of_ready (s := { s with issuer := c }) hready hi
  have hop := operationOf_txns_of_params i (s := s) (t := { s with issuer := c }) rfl
  have hturns := wholeOperationIsItsTransactions s c cmd i hnext hd
  rw [hfault, hop.1, hlen, hexec] at hturns
  have hwhole := (wholeTurn_of_takesNext hnext hd).trans hexec
  obtain ⟨hp, hl, -⟩ := takeTurn_outside hwhole
  exact ⟨hturns, ⟨hp ▸ hready.1, hl hready.2⟩, contextTurn_others rfl hwhole⟩

/-- A transaction of an operation that has more leaves it in flight in the issuing context. -/
theorem advance_leaves_inflight {f : InFlight} {s : State}
    (hmore : f.index + 2 ≤ (operationOf f.instr s).txns.length) :
    (∃ g, (advance f s).contexts = s.contexts.modify s.issuer (Context.setInflight g)) ∧
      (advance f s).params = s.params ∧ (advance f s).constructed = s.constructed := by
  have hlen : 2 ≤ ((operationOf f.instr s).txns.drop f.index).length := by simp; omega
  match hdrop : (operationOf f.instr s).txns.drop f.index with
  | [] => simp [hdrop] at hlen
  | [_] => simp [hdrop] at hlen
  | t :: t' :: rest =>
    rw [advance_of_more hdrop]
    cases t <;> exact ⟨⟨_, rfl⟩, rfl, rfl⟩

/-- The first transaction of an operation that has more leaves it in flight, and the stream as ready as it was. -/
theorem firstTxn_leaves_inflight {c : Nat} {cmd : Command} {i : Instr} {s : State}
    (hfault : (operationOf i { s with issuer := c }).fault = none) (hlen : 2 ≤ (operationOf i s).txns.length)
    (hnext : TakesNext c cmd s) (hd : decode cmd = .ok i) :
    ∃ t g, takeTurn (.txn c) s = .next t ∧ t.contexts = s.contexts.modify c (Context.setInflight g) ∧
      t.params = s.params ∧ t.constructed = s.constructed := by
  have hfirst := txnTurn_of_takesNext hnext hd
  rw [startOp_of_checks_pass hfault] at hfirst
  obtain ⟨⟨g, hctx⟩, hparams, hcon⟩ := advance_leaves_inflight
    (f := { instr := i, index := 0, v := BusWord.zero })
    (s := recordHazard (encode i) (operationOf i { s with issuer := c }).hazard { s with issuer := c })
    (by rw [(operationOf_txns_of_params i (s := s) (by simp)).1]; simpa using hlen)
  exact ⟨_, g, hfirst, by simpa using hctx, by simpa using hparams, by simpa using hcon⟩

/-- R73: while another context has an operation in flight, a transaction of a context is not exclusive. -/
theorem exclusiveTurn_txn_of_other_inflight {a b : Nat} {s : State} {x : Context} (hne : a ≠ b)
    (hx : s.contexts[a]? = some x) (hf : x.inflight.isSome = true) (hb : performsTransaction b s = true) :
    exclusiveTurn (.txn b) s = false := by
  have hlt : a < s.contexts.length := (List.getElem?_eq_some_iff.mp hx).1
  have honly : onlyInflight b s = false := by
    rw [onlyInflight, List.all_eq_false]
    refine ⟨a, List.mem_range.mpr hlt, ?_⟩
    simp only [hx, beq_false_of_ne hne, Bool.false_or]
    simpa [Option.isSome_iff_ne_none] using hf
  simp only [exclusiveTurn, hb, honly, Bool.not_true, Bool.or_false]

/-- A context performs a transaction in its next turn if its next command's operation passes its checks. -/
theorem performsTransaction_of_takesNext {c : Nat} {cmd : Command} {i : Instr} {s : State} (hnext : TakesNext c cmd s)
    (hd : decode cmd = .ok i) (hfault : (operationOf i s).fault = none) : performsTransaction c s = true := by
  obtain ⟨x, hx, hf, hn⟩ := hnext
  simp only [performsTransaction, hx, hf, show x.next = some cmd from hn, hd, hfault, Option.isNone_none]

/-- R73: a transaction of one context between the first and the last of another's is not exclusive. -/
theorem not_exclusive_of_interleaved {a b : Nat} {ca cb : Command} {i j : Instr} {s : State} (rest : List Turn)
    (hready : Ready s) (hne : a ≠ b) (ha : TakesNext a ca s) (hda : decode ca = .ok i) (hi : isConstruct i = false)
    (hlen : 2 ≤ (operationOf i s).txns.length) (hb : TakesNext b cb s) (hdb : decode cb = .ok j)
    (hj : isConstruct j = false) : exclusive (.txn a :: .txn b :: rest) s = false := by
  obtain ⟨t, g, hturn, hctx, hparams, hcon⟩ :=
    firstTxn_leaves_inflight (checks_pass_of_ready (s := { s with issuer := a }) hready hi) hlen ha hda
  obtain ⟨x, hx, -⟩ := ha
  have hreadyt : Ready t := ⟨hparams ▸ hready.1, hcon.trans hready.2⟩
  have hbt : TakesNext b cb t := hb.of_same_context (by rw [hctx]; simp [hne])
  have hbar := exclusiveTurn_txn_of_other_inflight (x := x.setInflight g) hne (by rw [hctx]; simp [hx]) rfl
    (performsTransaction_of_takesNext hbt hdb (checks_pass_of_ready hreadyt hj))
  simp only [exclusive, hturn, hbar, Bool.false_and, Bool.and_false]

/-! ### The mask operations without FE (R171, R172) -/

/-- R171: an enabling without FE, transaction by transaction, with no other turn inside it. -/
theorem takeTurns_enableInterrupt {c : Nat} {cmd : Command} {ks : KindSet} {s : State} (hready : Ready s)
    (hfe : ks.fe = false) (hnext : TakesNext c cmd s) (hd : decode cmd = .ok (.enableInterrupt ks)) :
    ∃ t, takeTurns [.txn c, .txn c] s = .next t ∧
      t.regs = { s.regs with cr := s.regs.cr ||| (crMask ks).setWidth 25 } ∧ Ready t ∧
      ∀ d, d ≠ c → t.contexts[d]? = s.contexts[d]? := by
  obtain ⟨n, hexec⟩ := exec_enableInterrupt (s := { s with issuer := c }) hready ks
  obtain ⟨hturns, hkept⟩ := takeTurns_two_txns hready rfl
    (by simp [operationOf, opEnableInterrupt, KindSet.has, hfe, setReg]) hnext hd hexec
  exact ⟨_, hturns, by simp [hfe], hkept⟩

/-- R172: the same of a disabling. -/
theorem takeTurns_disableInterrupt {c : Nat} {cmd : Command} {ks : KindSet} {s : State} (hready : Ready s)
    (hfe : ks.fe = false) (hnext : TakesNext c cmd s) (hd : decode cmd = .ok (.disableInterrupt ks)) :
    ∃ t, takeTurns [.txn c, .txn c] s = .next t ∧
      t.regs = { s.regs with cr := s.regs.cr &&& ~~~(crMask ks).setWidth 25 } ∧ Ready t ∧
      ∀ d, d ≠ c → t.contexts[d]? = s.contexts[d]? := by
  obtain ⟨n, hexec⟩ := exec_disableInterrupt (s := { s with issuer := c }) hready ks
  obtain ⟨hturns, hkept⟩ := takeTurns_two_txns hready rfl
    (by simp [operationOf, opDisableInterrupt, KindSet.has, hfe, clearReg]) hnext hd hexec
  exact ⟨_, hturns, by simp [hfe, BitVec.setWidth_not], hkept⟩

/-- R170: or-ing a mask without FE into `CR` enables the kinds of the set. -/
theorem enabledOf_cr_or {ks : KindSet} (hfe : ks.fe = false) (g : Regs) (k : Kind) :
    enabledOf { g with cr := g.cr ||| (crMask ks).setWidth 25 } k = (enabledOf g k || ks.has k) := by
  cases k with
  | fe => simp [enabledOf, KindSet.has, hfe]
  | _ =>
    simp only [enabledOf, crTcie, crHtie, crTeie, crDmeie, BitVec.getLsbD_or]
    rw [getLsbD_crMask ks _ (by decide)]
    simp [KindSet.has]

/-- R170: clearing a mask without FE in `CR` disables the kinds of the set. -/
theorem enabledOf_cr_and_not {ks : KindSet} (hfe : ks.fe = false) (g : Regs) (k : Kind) :
    enabledOf { g with cr := g.cr &&& ~~~(crMask ks).setWidth 25 } k = (enabledOf g k && !ks.has k) := by
  cases k with
  | fe => simp [enabledOf, KindSet.has, hfe]
  | _ =>
    simp only [enabledOf, crTcie, crHtie, crTeie, crDmeie, BitVec.getLsbD_and, BitVec.getLsbD_not]
    rw [getLsbD_crMask ks _ (by decide)]
    simp [KindSet.has]

/-- P3: a kind enabled or disabled by one of two sets is so after both, in either order; the other kinds are as they
were. -/
theorem no_lost_update {e before ina inb : Bool} (h : e = ((before || ina) && !inb) ∨ e = (before && !inb || ina)) :
    (ina = true → inb = false → e = true) ∧ (inb = true → ina = false → e = false) ∧
      (ina = false → inb = false → e = before) := by
  rcases h with rfl | rfl <;> cases ina <;> cases inb <;> simp

/-- Settles O27: an interleaved order is not exclusive, and in each of the two others the second operation starts from
the `CR` that the first has left. -/
theorem exclusiveMaskUpdatesLoseNone : Obligations.ExclusiveMaskUpdatesLoseNone := by
  intro s a b ca cb ka kb order hready hne hta htb hda hdb hfa hfb horder hexcl
  have hab : ∀ rest, exclusive (.txn a :: .txn b :: rest) s ≠ true := fun rest => by
    simp [not_exclusive_of_interleaved rest hready hne hta hda rfl
      (by simp [operationOf, opEnableInterrupt, setReg]) htb hdb rfl]
  have hba : ∀ rest, exclusive (.txn b :: .txn a :: rest) s ≠ true := fun rest => by
    simp [not_exclusive_of_interleaved rest hready hne.symm htb hdb rfl
      (by simp [operationOf, opDisableInterrupt, clearReg]) hta hda rfl]
  simp only [List.mem_cons, List.not_mem_nil, or_false] at horder
  rcases horder with rfl | rfl | rfl | rfl | rfl | rfl
  · obtain ⟨u, hu, hregs, hreadyu, hothers⟩ := takeTurns_enableInterrupt hready hfa hta hda
    obtain ⟨t, ht, htregs, -⟩ :=
      takeTurns_disableInterrupt hreadyu hfb (htb.of_same_context (hothers b hne.symm)) hdb
    refine ⟨t, (takeTurns_append_of_next [.txn b, .txn b] hu).trans ht, by rw [htregs, hregs],
      .inl ⟨rfl, by rw [htregs, hregs]⟩, fun k => no_lost_update (.inl ?_)⟩
    rw [htregs, enabledOf_cr_and_not hfb, hregs, enabledOf_cr_or hfa]
  · obtain ⟨u, hu, hregs, hreadyu, hothers⟩ := takeTurns_disableInterrupt hready hfb htb hdb
    obtain ⟨t, ht, htregs, -⟩ := takeTurns_enableInterrupt hreadyu hfa (hta.of_same_context (hothers a hne)) hda
    refine ⟨t, (takeTurns_append_of_next [.txn a, .txn a] hu).trans ht, by rw [htregs, hregs],
      .inr ⟨rfl, by rw [htregs, hregs]⟩, fun k => no_lost_update (.inr ?_)⟩
    rw [htregs, enabledOf_cr_or hfa, hregs, enabledOf_cr_and_not hfb]
  · exact absurd hexcl (hab _)
  · exact absurd hexcl (hba _)
  · exact absurd hexcl (hba _)
  · exact absurd hexcl (hab _)

/-! ### The engine's moves (R80 to R87) -/

/-- An engine turn is an engine move whose condition holds, or a stop under the move's name (log 9). -/
theorem takeTurn_engine_of_some {m : EngineMove} {s t : State} (h : engineMove m s = some t) :
    takeTurn (.engine m) s = .next t := by
  simp only [takeTurn, engineTurn, h]

theorem takeTurn_engine_of_none {m : EngineMove} {s : State} (h : engineMove m s = none) :
    takeTurn (.engine m) s = .fault (.moveNotEnabled m) := by
  simp only [takeTurn, engineTurn, h]

/-- An engine turn that answers a next state is an enabled move. -/
theorem engineMove_of_takeTurn {m : EngineMove} {s t : State} (h : takeTurn (.engine m) s = .next t) :
    engineMove m s = some t := by
  rcases takeTurn_cases h with ⟨c, hc⟩ | ⟨m', hm', hmove⟩ | ⟨a, ha, -⟩
  · cases hc
  · cases hm'; exact hmove
  · cases ha

/-- One bit or-ed into the flags. -/
theorem getLsbD_or_bit (flags : BitVec 20) (n j : Nat) (hj : j < 20) :
    (flags ||| 1#20 <<< n).getLsbD j = (flags.getLsbD j || decide (j = n)) := by
  have hbit : (1#20 <<< n).getLsbD j = decide (j = n) := by
    rw [← BitVec.twoPow_eq, BitVec.getLsbD_twoPow, ← Bool.decide_and, decide_eq_decide]
    omega
  rw [BitVec.getLsbD_or, hbit]

/-- R190: the register pair of a stream. -/
theorem locate_low_of_lt {i : Nat} (h : i < 4) : (locate i).1 = .low := by simp [locate, h]

theorem locate_high_of_le {i : Nat} (h : 4 ≤ i) : (locate i).1 = .high := by simp [locate, Nat.not_lt.mpr h]

/-- R81: an assertion sets one flag of one of the two status registers, and changes nothing else. -/
theorem assertFlag_effect (i : Nat) (k : Kind) (s : State) :
    assertFlag i k s = { s with
      regs := { s.regs with lisr := (assertFlag i k s).regs.lisr, hisr := (assertFlag i k s).regs.hisr } } ∧
    (∀ j, j < 20 → (assertFlag i k s).regs.lisr.getLsbD j =
      (s.regs.lisr.getLsbD j || (decide (i < 4) && decide (j = flagBit s.params.flagBits i k)))) ∧
    (∀ j, j < 20 → (assertFlag i k s).regs.hisr.getLsbD j =
      (s.regs.hisr.getLsbD j || (decide (4 ≤ i) && decide (j = flagBit s.params.flagBits i k)))) := by
  by_cases hi : i < 4
  · simp only [assertFlag, locate_low_of_lt hi, hi, Nat.not_le.mpr hi, decide_true, decide_false, Bool.true_and,
      Bool.false_and, Bool.or_false, implies_true, and_true, true_and]
    exact getLsbD_or_bit _ _
  · have hi' : 4 ≤ i := Nat.not_lt.mp hi
    simp only [assertFlag, locate_high_of_le hi', hi, hi', decide_true, decide_false, Bool.true_and, Bool.false_and,
      Bool.or_false, implies_true, true_and]
    exact getLsbD_or_bit _ _

/-- R84: clearing bit 0 of `CR` clears `EN` and no other bit. -/
theorem cr_and_not_one (cr : BitVec 25) :
    crEn (cr &&& ~~~1#25) = false ∧ ∀ j, j ≠ 0 → (cr &&& ~~~1#25).getLsbD j = cr.getLsbD j := by
  have hmask : ∀ j, j < 25 → j ≠ 0 → (~~~1#25).getLsbD j = true := by decide
  refine ⟨by simp [crEn], fun j hj => ?_⟩
  by_cases hlt : j < 25
  · rw [BitVec.getLsbD_and, hmask j hlt hj, Bool.and_true]
  · simp [BitVec.getLsbD_of_ge _ j (Nat.not_lt.mp hlt)]

/-- R85: toggling bit 19 of `CR` switches `CT` and no other bit. -/
theorem cr_xor_bit19 (cr : BitVec 25) :
    crCt (cr ^^^ (1#25 <<< 19)) = !crCt cr ∧
      ∀ j, j ≠ 19 → (cr ^^^ (1#25 <<< 19)).getLsbD j = cr.getLsbD j := by
  refine ⟨by simp [crCt], fun j hj => ?_⟩
  rw [BitVec.getLsbD_xor, ← BitVec.twoPow_eq, BitVec.getLsbD_twoPow]
  simp [hj.symm]

/-- R86: the sample takes `EN`, and is no move where the engine's activity has that value already. -/
theorem engineMove_sample (s : State) :
    engineMove .sample s =
      if crEn s.regs.cr = s.engineActive then none else some { s with engineActive := crEn s.regs.cr } := by
  cases hen : crEn s.regs.cr <;> cases hact : s.engineActive <;> simp [engineMove, hen, hact]

/-- Settles O43, move by move. -/
theorem engineMoveEffects : Obligations.EngineMoveEffects := by
  intro s
  refine ⟨fun i k => ⟨_, rfl, assertFlag_effect i.val k s⟩, fun fs => rfl, fun n => ?_, ?_, ?_, ?_⟩
  · split_ifs with hact
    · exact takeTurn_engine_of_some (by simp only [engineMove, hact, if_true])
    · exact takeTurn_engine_of_none (by simp only [engineMove, if_neg hact])
  · split_ifs with hcond
    · exact ⟨_, takeTurn_engine_of_some (if_pos (by simpa using hcond)), rfl, cr_and_not_one _⟩
    · exact takeTurn_engine_of_none (if_neg (by simpa using hcond))
  · split_ifs with hcond
    · exact ⟨_, takeTurn_engine_of_some (if_pos (by simpa using hcond)), rfl, cr_xor_bit19 _⟩
    · exact takeTurn_engine_of_none (if_neg (by simpa using hcond))
  · split_ifs with hcond
    · exact takeTurn_engine_of_none ((engineMove_sample s).trans (if_pos hcond))
    · exact takeTurn_engine_of_some ((engineMove_sample s).trans (if_neg hcond))

/-- Settles O44, by `engineMove_regs` and `engineMove_outside`. -/
theorem engineChangesNothingElse : Obligations.EngineChangesNothingElse := by
  intro m s t h
  have hmove := engineMove_of_takeTurn h
  obtain ⟨hpar, hm0ar, hm1ar, hfcr, hcr, hen, hlisr, hhisr⟩ := engineMove_regs hmove
  exact ⟨hpar, hm0ar, hm1ar, hfcr, hcr, hen, hlisr, hhisr, engineMove_outside hmove⟩

/-! ### The register addresses (R60, R65) -/

/-- `allRegs` holds every register (R23). -/
theorem mem_allRegs (r : Reg) : r ∈ allRegs := by cases r <;> decide

/-- R60: a well-formed map is injective, and its addresses are multiples of 4. -/
theorem regAddr_of_wf {p : Params} (h : p.wf = true) :
    (∀ r r', regAddr p r = regAddr p r' → r = r') ∧ ∀ r, (regAddr p r).toNat % 4 = 0 := by
  have hlist : p.regAddrs.toList = allRegs.map (regAddr p) := rfl
  simp only [Params.wf, RegAddrs.wf, hlist, Bool.and_eq_true, decide_eq_true_eq, List.all_eq_true, beq_iff_eq] at h
  obtain ⟨-, hnodup, haligned⟩ := h
  exact ⟨fun r r' he => List.inj_on_of_nodup_map hnodup (mem_allRegs r) (mem_allRegs r') he,
    fun r => haligned _ (List.mem_map_of_mem (mem_allRegs r))⟩

/-- R60: the register at a register's address is that register. -/
theorem regAt_regAddr {p : Params} (h : p.wf = true) (r : Reg) : regAt p (regAddr p r) = some r := by
  have hfound : (regAt p (regAddr p r)).isSome = true := by
    rw [regAt, List.find?_isSome]
    exact ⟨r, mem_allRegs r, beq_self_eq_true _⟩
  obtain ⟨r', hr'⟩ := Option.isSome_iff_exists.mp hfound
  have haddr : regAddr p r' = regAddr p r := by simpa using List.find?_some hr'
  rw [hr', (regAddr_of_wf h).1 r' r haddr]

/-- R65: one bit of a byte of a word. -/
theorem getLsbD_byteOf (w : Word) (n j : Nat) (hj : j < 8) : (byteOf w n).getLsbD j = w.getLsbD (8 * n + j) := by
  simp [byteOf, hj]

/-- R65: the four bytes at a register's address are the register's, lowest first. -/
theorem byteAt_regAddr {p : Params} (h : p.wf = true) (g : Regs) (r : Reg) {n : Nat} (hn : n < 4) :
    byteAt p g ((regAddr p r).toNat + n) = some (byteOf (readRule r g).1 n, byteOf (readRule r g).2 n) := by
  have haligned := (regAddr_of_wf h).2 r
  have hlt := (regAddr p r).isLt
  have hword : ((regAddr p r).toNat + n) / 4 * 4 = (regAddr p r).toNat := by omega
  have hbyte : ((regAddr p r).toNat + n) % 4 = n := by omega
  rw [byteAt, if_pos (by omega), hword, hbyte, BitVec.ofNat_toNat, BitVec.setWidth_eq, regAt_regAddr h]
  rfl

/-- Settles O47, by `regAt_regAddr`, the alignment of the map and `byteAt_regAddr`. -/
theorem registerAddressesAreInjective : Obligations.RegisterAddressesAreInjective := by
  intro p g r h
  exact ⟨regAt_regAddr h r, (regAddr_of_wf h).2 r, fun n hn =>
    ⟨_, _, byteAt_regAddr h g r hn, fun j hj => ⟨getLsbD_byteOf _ n j hj, getLsbD_byteOf _ n j hj⟩⟩⟩

/-! ### Quiet runs (R73) -/

/-- What contexts and foreign software leave alone of the engine's state (R34, R38, R42): its activity, `FS`, and every
flag that is 0. -/
structure LeavesEngineAlone (s t : State) : Prop where
  engineActive : t.engineActive = s.engineActive
  fs           : t.regs.fcr.fs = s.regs.fcr.fs
  flags        : ∀ sel j, (selFlags sel t.regs).getLsbD j = true → (selFlags sel s.regs).getLsbD j = true

theorem LeavesEngineAlone.refl (s : State) : LeavesEngineAlone s s := ⟨rfl, rfl, fun _ _ h => h⟩

theorem LeavesEngineAlone.trans {s t u : State} (h : LeavesEngineAlone s t) (h' : LeavesEngineAlone t u) :
    LeavesEngineAlone s u :=
  ⟨h'.engineActive.trans h.engineActive, h'.fs.trans h.fs, fun sel j hj => h.flags sel j (h'.flags sel j hj)⟩

/-- R33: no write changes `FS`. -/
theorem fs_writeRule (r : Reg) (b : BusWord) (g : Regs) : (writeRule r b g).fcr.fs = g.fcr.fs := by
  cases r <;> rfl

/-- A context's turn leaves the engine's state alone: its writes do, and it does not touch the activity. -/
theorem contextTurn_leavesEngineAlone {turn : Turn} {c : Nat} {s t : State} (hc : contextOf turn = some c)
    (h : takeTurn turn s = .next t) : LeavesEngineAlone s t := by
  obtain ⟨x, -, effect⟩ := contextTurn_effect hc h
  refine ⟨effect.engineActive, ?_, fun sel j => ?_⟩
  · exact contextTurn_regs_induct (fun g => g.fcr.fs = s.regs.fcr.fs) hc h
      (fun _ _ r u _ b g hg => (fs_writeRule r (u.apply b) g).trans hg) rfl
  · exact contextTurn_regs_induct
      (fun g => (selFlags sel g).getLsbD j = true → (selFlags sel s.regs).getLsbD j = true) hc h
      (fun _ _ _ _ _ _ _ hg hj => hg (selFlags_of_writeRule hj)) id

/-- A foreign access leaves the engine's state alone. -/
theorem foreignAccess_leavesEngineAlone (a : ForeignAccess) (s : State) :
    LeavesEngineAlone s (foreignAccess a s) := by
  cases a with
  | read r => exact ⟨rfl, rfl, fun _ _ h => h⟩
  | write r v => exact ⟨rfl, fs_writeRule r _ s.regs, fun _ _ h => selFlags_of_writeRule h⟩

/-- A quiet list begins with no engine move, and goes on quietly. -/
theorem quiet_cons {turn : Turn} {ts : List Turn} (h : quiet (turn :: ts) = true) :
    (∀ m, turn ≠ .engine m) ∧ quiet ts = true := by
  rw [quiet, List.all_cons, Bool.and_eq_true] at h
  refine ⟨?_, h.2⟩
  rintro m rfl
  exact Bool.false_ne_true h.1

/-- Settles O49, by induction on the run: no turn of it is the engine's. -/
theorem quietRunsLeaveEngineStateAlone : Obligations.QuietRunsLeaveEngineStateAlone := by
  have hrun : ∀ (ts : List Turn) (s t : State), quiet ts = true → takeTurns ts s = .next t →
      LeavesEngineAlone s t := by
    intro ts
    induction ts with
    | nil =>
      intro s t _ h
      obtain rfl : s = t := by simpa [takeTurns] using h
      exact .refl s
    | cons turn ts ih =>
      intro s t hq h
      obtain ⟨hengine, hq'⟩ := quiet_cons hq
      obtain ⟨u, hu, htail⟩ := takeTurns_cons h
      refine LeavesEngineAlone.trans ?_ (ih u t hq' htail)
      rcases takeTurn_cases hu with ⟨c, hc⟩ | ⟨m, hm, -⟩ | ⟨a, -, rfl⟩
      · exact contextTurn_leavesEngineAlone hc hu
      · exact absurd hm (hengine m)
      · exact foreignAccess_leavesEngineAlone a s
  intro ts s t hq h
  obtain ⟨hactive, hfs, hflags⟩ := hrun ts s t hq h
  exact ⟨hactive, hfs, hflags .low, hflags .high⟩

/-! ### The transactions of each operation (R63) -/

/-- R190: the clear register of a stream. -/
theorem clearRegOf_locate (i : Nat) : clearRegOf (locate i).1 = if i < 4 then .lifcr else .hifcr := by
  split_ifs with hi
  · rw [locate_low_of_lt hi]; rfl
  · rw [locate_high_of_le (Nat.not_lt.mp hi)]; rfl

/-- R190: the status register of a stream. -/
theorem statusReg_locate (i : Nat) : statusReg (locate i).1 = if i < 4 then .lisr else .hisr := by
  split_ifs with hi
  · rw [locate_low_of_lt hi]; rfl
  · rw [locate_high_of_le (Nat.not_lt.mp hi)]; rfl

/-- R67 to R70: the word a primitive writes, given the word read. -/
theorem value_update_change (v : BusWord) (mask value : Word) (shift : Nat) :
    ((Update.change mask value shift).apply v).value = (v.value &&& ~~~mask) ||| ((value <<< shift) &&& mask) := by
  rw [Update.apply, BusWord.value_or, BusWord.value_and]

/-- Settles O13, operation by operation, and primitive by primitive. -/
theorem transactionCounts : Obligations.TransactionCounts := by
  refine ⟨fun s => ⟨fun cfg => rfl, rfl, rfl, fun b => ?_, fun ks => ?_, fun ks => ?_, fun k => ?_, fun k => ?_,
    fun lvl => rfl, rfl⟩, fun v w mask value shift => ⟨BusWord.value_ofWord w, BusWord.value_or v mask,
    BusWord.value_and v (~~~mask), value_update_change v mask value shift⟩⟩
  · cases b <;> rfl
  · cases hfe : ks.fe <;> simp [operationOf, opEnableInterrupt, KindSet.has, hfe, setReg, feieMask]
  · cases hfe : ks.fe <;> simp [operationOf, opDisableInterrupt, KindSet.has, hfe, clearReg, feieMask]
  · rw [← clearRegOf_locate]; rfl
  · rw [← statusReg_locate]; rfl

end Sys2Proof.Machine

/-! ## Encoding (30_encoding.md) -/

namespace Sys2Proof

/-! ### Operand codes (R93, R94, R96, R97) -/

@[simp] theorem Kind.ofCode_code (k : Kind) : Kind.ofCode k.code = some k := by cases k <;> rfl

/-- R96: a kind code names its kind and no other. -/
theorem Kind.code_of_ofCode {c : BitVec 3} {k : Kind} (h : Kind.ofCode c = some k) : k.code = c := by
  revert c; cases k <;> decide

/-- R96: the reserved kind codes are those from 5 up. -/
theorem Kind.ofCode_eq_none_iff (c : BitVec 3) : Kind.ofCode c = none ↔ 5 ≤ c.toNat := by
  revert c; decide

theorem Kind.code_le_four (k : Kind) : k.code.toNat ≤ 4 := by cases k <;> decide

@[simp] theorem KindSet.ofCode_code (ks : KindSet) : KindSet.ofCode ks.code = ks := by
  obtain ⟨tc, ht, te, dme, fe⟩ := ks
  revert tc ht te dme fe; decide

@[simp] theorem KindSet.code_ofCode (c : BitVec 5) : (KindSet.ofCode c).code = c := by
  revert c; decide

@[simp] theorem Buffer.ofCode_code (b : Buffer) : Buffer.ofCode b.code = b := by cases b <;> rfl

@[simp] theorem Buffer.code_ofCode (c : BitVec 1) : (Buffer.ofCode c).code = c := by
  revert c; decide

@[simp] theorem FifoLevel.ofCode_code (lvl : FifoLevel) : FifoLevel.ofCode lvl.code = lvl := by cases lvl <;> rfl

@[simp] theorem FifoLevel.code_ofCode (c : BitVec 2) : (FifoLevel.ofCode c).code = c := by
  revert c; decide

/-! ### The fields of a command word (R91) -/

@[simp] theorem commandWord_extract_reserved (op : BitVec 4) (operand : BitVec 8) :
    (commandWord op operand).extractLsb' 12 20 = 0#20 :=
  Laws.EncodeReservedZero.commandWord_reserved op operand

@[simp] theorem commandWord_extract_op (op : BitVec 4) (operand : BitVec 8) :
    (commandWord op operand).extractLsb' 0 4 = op :=
  BitVec.extractLsb'_append_eq_right

@[simp] theorem commandWord_extract_operand (op : BitVec 4) (operand : BitVec 8) :
    (commandWord op operand).extractLsb' 4 8 = operand := by
  rw [commandWord, BitVec.extractLsb'_append_eq_of_le (le_refl 4)]
  exact BitVec.extractLsb'_append_eq_right

/-- A word with its reserved bits zero is the command word of its two other fields. -/
theorem eq_commandWord {w : Word} {op : BitVec 4} {operand : BitVec 8} (hres : w.extractLsb' 12 20 = 0#20)
    (hop : w.extractLsb' 0 4 = op) (hoperand : w.extractLsb' 4 8 = operand) : w = commandWord op operand := by
  rw [word_fields w, hres, hop, hoperand, commandWord]

/-- Equal words of two fields have equal fields. -/
theorem bitVec_append_inj {m n : Nat} {x x' : BitVec m} {y y' : BitVec n} :
    x ++ y = x' ++ y' ↔ x = x' ∧ y = y' := by
  constructor
  · intro h
    have hhigh := congrArg (BitVec.extractLsb' n m) h
    have hlow := congrArg (BitVec.extractLsb' 0 n) h
    rw [BitVec.extractLsb'_append_eq_left, BitVec.extractLsb'_append_eq_left] at hhigh
    rw [BitVec.extractLsb'_append_eq_right, BitVec.extractLsb'_append_eq_right] at hlow
    exact ⟨hhigh, hlow⟩
  · rintro ⟨rfl, rfl⟩
    rfl

/-- The operand field is a code of `lo` bits under zeros exactly when its high bits are zero and the code is in its low
bits. -/
theorem operandField_eq_zero_append_iff (w : Word) {n lo : Nat} (code : BitVec lo) :
    w.extractLsb' 4 (n + lo) = 0#n ++ code ↔ w.extractLsb' (4 + lo) n = 0#n ∧ w.extractLsb' 4 lo = code := by
  rw [← BitVec.extractLsb'_append_extractLsb'_eq_extractLsb' (x := w) (rfl : 4 + lo = 4 + lo), bitVec_append_inj]

/-! ### Decoding what the encoder gives -/

/-- Settles O1: the decoder finds the fields that the encoder put in place. -/
theorem decodeOfEncode : Obligations.DecodeOfEncode := by
  intro i
  cases i with
  | construct | enable | disable | getFifoStatus => simp [encode, decode]
  | setTargetMemory b =>
    have hfields := fun op => (operandField_eq_zero_append_iff _ b.code).mp (commandWord_extract_operand op _)
    simp [encode, decode, hfields]
  | enableInterrupt ks | disableInterrupt ks =>
    have hfields := fun op => (operandField_eq_zero_append_iff _ ks.code).mp (commandWord_extract_operand op _)
    simp [encode, decode, hfields]
  | clearInterruptFlag k | getInterruptFlag k =>
    have hfields := fun op => (operandField_eq_zero_append_iff _ k.code).mp (commandWord_extract_operand op _)
    simp [encode, decode, hfields]
  | setFifoThreshold lvl =>
    have hfields := fun op => (operandField_eq_zero_append_iff _ lvl.code).mp (commandWord_extract_operand op _)
    simp [encode, decode, hfields]

/-! ### What decodes -/

/-- The operand of a decoded CONSTRUCT is what the operand channel carries (R99, R114). -/
theorem record_of_decode_construct {cmd : Command} {cfg : Record} (h : decode cmd = .ok (.construct cfg)) :
    cfg = cmd.record := by
  rw [decode_record cmd.word cmd.record] at h
  split at h
  · next => cases h; rfl
  · next hother => exact absurd h (hother cfg)

/-- INVERSION OF THE DECODER: an operation decoded from a command is encoded by its word; the decoder drops no bit. -/
theorem encode_word_of_decode {cmd : Command} {i : Instr} (h : decode cmd = .ok i) : (encode i).word = cmd.word := by
  have hres := reserved_of_decode h
  have word {op : BitVec 4} {operand : BitVec 8} (hop : (cmd.word.extractLsb' 0 4).toNat = op.toNat)
      (hoperand : cmd.word.extractLsb' 4 8 = operand) : commandWord op operand = cmd.word :=
    (eq_commandWord hres (BitVec.eq_of_toNat_eq hop) hoperand).symm
  have operand {n lo : Nat} (hzero : cmd.word.extractLsb' (4 + lo) n = 0#n) :
      cmd.word.extractLsb' 4 (n + lo) = 0#n ++ cmd.word.extractLsb' 4 lo :=
    (operandField_eq_zero_append_iff cmd.word _).mpr ⟨hzero, rfl⟩
  simp only [decode, hres, ne_eq, not_true_eq_false, if_false] at h
  split at h
  case h_1 hop | h_2 hop | h_3 hop | h_10 hop =>
    split_ifs at h with hzero
    cases h
    exact word hop hzero
  case h_4 hop =>
    split_ifs at h with hzero
    cases h
    rw [encode, Buffer.code_ofCode]
    exact word hop (operand (lo := 1) hzero)
  case h_5 hop | h_6 hop =>
    split_ifs at h with hzero
    cases h
    rw [encode, KindSet.code_ofCode]
    exact word hop (operand (lo := 5) hzero)
  case h_7 hop | h_8 hop =>
    split_ifs at h with hzero
    split at h
    · next k hk =>
      cases h
      rw [encode, Kind.code_of_ofCode hk]
      exact word hop (operand (lo := 3) hzero)
    · cases h
  case h_9 hop =>
    split_ifs at h with hzero
    cases h
    rw [encode, FifoLevel.code_ofCode]
    exact word hop (operand (lo := 2) hzero)
  case h_11 => cases h

/-- Settles O2. -/
theorem encodeOfDecode : Obligations.EncodeOfDecode := by
  rintro cmd i h
  exact ⟨encode_word_of_decode h, fun cfg hi => record_of_decode_construct (hi ▸ h)⟩

/-! ### What does not decode (R98, R111) -/

open Machine (IllegalWord)

/-- R98: an illegal word decodes to the one error, which names it. -/
theorem decode_of_illegalWord {cmd : Command} (h : IllegalWord cmd.word) :
    decode cmd = .error (.illegalCommand cmd.word) := by
  by_cases hres : cmd.word.extractLsb' 12 20 = 0#20
  · simp only [IllegalWord, ge_iff_le, ← Kind.ofCode_eq_none_iff] at h
    rcases h with h | hop | ⟨hop | hop | hop | hop, hfield⟩ | ⟨hop, hfield⟩ | ⟨hop | hop, hfield⟩ |
      ⟨hop | hop, hfield | hfield⟩ | ⟨hop, hfield⟩
    case inl => exact absurd hres h
    case inr.inl =>
      simp only [decode, hres, ne_eq, not_true_eq_false, if_false]
      split
      case h_11 => rfl
      all_goals omega
    all_goals simp [decode, hres, hop, hfield]
  · simp [decode, hres]

/-- R98, R111: only an illegal word decodes to an error. -/
theorem illegalWord_of_decode_error {cmd : Command} {e : DecodeError} (h : decode cmd = .error e) :
    IllegalWord cmd.word := by
  by_cases hres : cmd.word.extractLsb' 12 20 = 0#20
  · simp only [decode, hres, ne_eq, not_true_eq_false, if_false] at h
    split at h
    case h_11 => simp only [imp_false] at *; exact .inr (.inl (by omega))
    case h_7 hop | h_8 hop =>
      split_ifs at h with hzero
      · split at h
        · cases h
        · next hkind => simp [IllegalWord, hop, ← Kind.ofCode_eq_none_iff, hkind, -BitVec.extractLsb'_toNat]
      · simp [IllegalWord, hop, hzero]
    all_goals
      next hop =>
      split_ifs at h with hzero
      simp [IllegalWord, hop, hzero]
  · exact .inl hres

/-- R111: a command decodes exactly when its word is not in the list of the illegal ones. -/
theorem decode_ok_iff (cmd : Command) : (∃ i, decode cmd = .ok i) ↔ ¬ IllegalWord cmd.word := by
  constructor
  · rintro ⟨i, hi⟩ h
    simp [decode_of_illegalWord h] at hi
  · intro h
    cases hd : decode cmd with
    | ok i => exact ⟨i, rfl⟩
    | error e => exact absurd (illegalWord_of_decode_error hd) h

end Sys2Proof

namespace Sys2Proof.Machine

/-- A turn of either grain takes a context's next command; an illegal one raises its fault and nothing else. -/
theorem takeTurn_of_illegalWord {turn : Turn} {c : Nat} {cmd : Command} {s : State}
    (hturn : turn = .whole c ∨ turn = .txn c) (hnext : TakesNext c cmd s) (hill : IllegalWord cmd.word) :
    takeTurn turn s = .next (raiseFault cmd (.illegalCommand cmd.word) { s with issuer := c }) := by
  obtain ⟨x, hx, hf, hn⟩ := hnext
  have hn : x.next = some cmd := hn
  rcases hturn with rfl | rfl
  · simp only [takeTurn, wholeTurn, hx, hf, hn, decode_of_illegalWord hill, illegalCommand]
  · simp only [takeTurn, txnTurn, hx, hf, hn, decode_of_illegalWord hill, illegalCommand]

/-- Settles O8: an illegal word decodes to no operation, so the turn makes no check and only raises the fault. -/
theorem illegalWordRaisesIllegalCommand : Obligations.IllegalWordRaisesIllegalCommand := by
  intro s c cmd turn rest hturn hs hnext hill
  refine ⟨_, (step_of_schedule hs).trans (takeTurn_of_illegalWord hturn hnext hill), ?_⟩
  exact faults_raiseFault cmd (.illegalCommand cmd.word) { s with schedule := rest, issuer := c }

end Sys2Proof.Machine

namespace Sys2Proof

open Machine (IllegalWord)

/-! ### The opcode table (opcode_table.json, R95) -/

/-- A row by the fields of R91: the operation code, and the bits of the operand field that must be zero. -/
def fieldRow (mnemonic : String) (op : BitVec 4) (zeroBits : BitVec 8) : OpcodeRow :=
  ⟨mnemonic, commandWord op 0#8, BitVec.allOnes 20 ++ zeroBits ++ BitVec.allOnes 4⟩

theorem opcodeTable_eq_fieldRows : opcodeTable =
    [ fieldRow "CONSTRUCT" 0x0#4 (BitVec.allOnes 8),
      fieldRow "ENABLE" 0x1#4 (BitVec.allOnes 8),
      fieldRow "DISABLE" 0x2#4 (BitVec.allOnes 8),
      fieldRow "SET_TARGET_MEMORY" 0x3#4 (BitVec.allOnes 7 ++ 0#1),
      fieldRow "ENABLE_INTERRUPT" 0x4#4 (BitVec.allOnes 3 ++ 0#5),
      fieldRow "DISABLE_INTERRUPT" 0x5#4 (BitVec.allOnes 3 ++ 0#5),
      fieldRow "CLEAR_INTERRUPT_FLAG" 0x6#4 (BitVec.allOnes 5 ++ 0#3),
      fieldRow "GET_INTERRUPT_FLAG" 0x7#4 (BitVec.allOnes 5 ++ 0#3),
      fieldRow "SET_FIFO_THRESHOLD" 0x8#4 (BitVec.allOnes 6 ++ 0#2),
      fieldRow "GET_FIFO_STATUS" 0x9#4 (BitVec.allOnes 8) ] := by
  decide

/-- A word matches a row when its fields do. -/
theorem fieldRow_matches_iff (mnemonic : String) (op : BitVec 4) (zeroBits : BitVec 8) (w : Word) :
    (fieldRow mnemonic op zeroBits).matches w = true ↔
      w.extractLsb' 12 20 = 0#20 ∧ w.extractLsb' 4 8 &&& zeroBits = 0#8 ∧ w.extractLsb' 0 4 = op := by
  have hmasked : w &&& (BitVec.allOnes 20 ++ zeroBits ++ BitVec.allOnes 4) =
      w.extractLsb' 12 20 ++ (w.extractLsb' 4 8 &&& zeroBits) ++ w.extractLsb' 0 4 := by
    conv => lhs; rw [word_fields w]
    rw [BitVec.and_append, BitVec.and_append, BitVec.and_allOnes, BitVec.and_allOnes]
  have hfields : w.extractLsb' 12 20 ++ (w.extractLsb' 4 8 &&& zeroBits) ++ w.extractLsb' 0 4 = 0#20 ++ 0#8 ++ op ↔
      w.extractLsb' 12 20 = 0#20 ∧ w.extractLsb' 4 8 &&& zeroBits = 0#8 ∧ w.extractLsb' 0 4 = op := by
    rw [bitVec_append_inj, bitVec_append_inj, and_assoc]
  rw [OpcodeRow.matches, beq_iff_eq, fieldRow, hmasked]
  exact hfields

/-- A mask on the high `n` bits of the operand field finds them zero. -/
theorem operandField_and_mask_iff (w : Word) (n lo : Nat) :
    w.extractLsb' 4 (n + lo) &&& (BitVec.allOnes n ++ 0#lo) = 0#(n + lo) ↔ w.extractLsb' (4 + lo) n = 0#n := by
  rw [← BitVec.extractLsb'_append_extractLsb'_eq_extractLsb' (x := w) (rfl : 4 + lo = 4 + lo), BitVec.and_append,
    BitVec.and_allOnes, BitVec.and_zero, ← BitVec.zero_append_zero, BitVec.append_left_inj]

/-- A code under zeros meets the mask of its zeros. -/
theorem zero_append_and_mask {lo : Nat} (n : Nat) (code : BitVec lo) :
    (0#n ++ code) &&& (BitVec.allOnes n ++ 0#lo) = 0#(n + lo) := by
  rw [BitVec.and_append, BitVec.zero_and, BitVec.and_zero, BitVec.zero_append_zero]

/-- The command word of an operation matches the row of its mnemonic. -/
theorem encode_matches_row (i : Instr) :
    ∃ r ∈ opcodeTable, r.matches (encode i).word = true ∧ r.mnemonic = i.mnemonic := by
  have row {mnemonic : String} {op : BitVec 4} {zeroBits operand : BitVec 8}
      (hmem : fieldRow mnemonic op zeroBits ∈ opcodeTable) (hzero : operand &&& zeroBits = 0#8) :
      ∃ r ∈ opcodeTable, r.matches (commandWord op operand) = true ∧ r.mnemonic = mnemonic :=
    ⟨_, hmem, (fieldRow_matches_iff mnemonic op zeroBits _).mpr ⟨by simp, by simpa using hzero, by simp⟩, rfl⟩
  cases i with
  | construct | enable | disable | getFifoStatus =>
    exact row (zeroBits := BitVec.allOnes 8) (by simp [opcodeTable_eq_fieldRows, Instr.mnemonic]) (by simp)
  | setTargetMemory b =>
    exact row (by simp [opcodeTable_eq_fieldRows, Instr.mnemonic]) (zero_append_and_mask 7 b.code)
  | enableInterrupt ks | disableInterrupt ks =>
    exact row (by simp [opcodeTable_eq_fieldRows, Instr.mnemonic]) (zero_append_and_mask 3 ks.code)
  | clearInterruptFlag k | getInterruptFlag k =>
    exact row (by simp [opcodeTable_eq_fieldRows, Instr.mnemonic]) (zero_append_and_mask 5 k.code)
  | setFifoThreshold lvl =>
    exact row (by simp [opcodeTable_eq_fieldRows, Instr.mnemonic]) (zero_append_and_mask 6 lvl.code)

/-- R96: the kind code of a decoded single-kind operation is at most 4. -/
theorem kindCode_le_of_decode {cmd : Command} {i : Instr} (h : decode cmd = .ok i)
    (hm : i.mnemonic = "CLEAR_INTERRUPT_FLAG" ∨ i.mnemonic = "GET_INTERRUPT_FLAG") :
    (cmd.word.extractLsb' 4 3).toNat ≤ 4 := by
  rw [← encode_word_of_decode h]
  cases i with
  | clearInterruptFlag k | getInterruptFlag k =>
    obtain ⟨-, hcode⟩ := (operandField_eq_zero_append_iff _ k.code).mp (commandWord_extract_operand _ _)
    rw [encode, hcode]
    exact k.code_le_four
  | _ => simp [Instr.mnemonic] at hm

/-- A word that matches a row, with a legal kind code where the row has one, is no illegal word. -/
theorem not_illegalWord_of_matches {r : OpcodeRow} {w : Word} (hr : r ∈ opcodeTable) (hmatch : r.matches w = true)
    (hkind : (r.mnemonic = "CLEAR_INTERRUPT_FLAG" ∨ r.mnemonic = "GET_INTERRUPT_FLAG") →
      (w.extractLsb' 4 3).toNat ≤ 4) : ¬ IllegalWord w := by
  rw [opcodeTable_eq_fieldRows] at hr
  simp only [List.mem_cons, List.not_mem_nil, or_false] at hr
  have hcode := fun h => Nat.not_le.mpr (Nat.lt_succ_of_le (hkind h))
  rcases hr with rfl | rfl | rfl | rfl | rfl | rfl | rfl | rfl | rfl | rfl <;>
    obtain ⟨hres, hzero, hop⟩ := (fieldRow_matches_iff _ _ _ w).mp hmatch <;>
    simp only [BitVec.and_allOnes, operandField_and_mask_iff w 7 1, operandField_and_mask_iff w 3 5,
      operandField_and_mask_iff w 5 3, operandField_and_mask_iff w 6 2] at hzero
  all_goals simp [IllegalWord, hres, hop, hzero, hcode, fieldRow, -BitVec.extractLsb'_toNat]

/-- Settles O3: what decodes is not illegal (`decode_ok_iff`), and the rows name what is not illegal. -/
theorem decodeFollowsOpcodeTable : Obligations.DecodeFollowsOpcodeTable := by
  intro cmd
  have hrow : ∀ i, decode cmd = .ok i → ∃ r ∈ opcodeTable, r.matches cmd.word = true ∧ r.mnemonic = i.mnemonic :=
    fun i hi => encode_word_of_decode hi ▸ encode_matches_row i
  refine ⟨⟨?_, ?_⟩, hrow⟩
  · rintro ⟨i, hi⟩
    obtain ⟨r, hr, hmatch, hname⟩ := hrow i hi
    exact ⟨r, hr, hmatch, fun hm => kindCode_le_of_decode hi (hname ▸ hm)⟩
  · rintro ⟨r, hr, hmatch, hkind⟩
    exact (decode_ok_iff cmd).mpr (not_illegalWord_of_matches hr hmatch hkind)

/-- Every row fixes the operation code. -/
theorem op_of_matches {r : OpcodeRow} {w : Word} (hr : r ∈ opcodeTable) (hmatch : r.matches w = true) :
    w.extractLsb' 0 4 = r.pattern.extractLsb' 0 4 := by
  have hmask : ∀ r ∈ opcodeTable, r.mask.extractLsb' 0 4 = BitVec.allOnes 4 := by decide
  have hpattern : w &&& r.mask = r.pattern := by simpa [OpcodeRow.matches] using hmatch
  rw [← hpattern, BitVec.extractLsb'_and, hmask r hr, BitVec.and_allOnes]

/-- Settles O4: the operation codes of the rows are distinct, and a word has one. -/
theorem opcodeRowsDisjoint : Obligations.OpcodeRowsDisjoint := by
  have hdistinct : opcodeTable.Pairwise fun r r' => r.pattern.extractLsb' 0 4 ≠ r'.pattern.extractLsb' 0 4 := by
    decide
  exact hdistinct.imp_of_mem fun hr hr' hne w ⟨hmatch, hmatch'⟩ =>
    hne ((op_of_matches hr hmatch).symm.trans (op_of_matches hr' hmatch'))

/-! ### Words and lines written out (R112, R113, V9, V21, P1) -/

/-- Settles O5: each word is the one the encoder gives, so O1 applies. -/
theorem writtenOutWordsDecode : Obligations.WrittenOutWordsDecode :=
  ⟨fun cfg => decodeOfEncode (.construct cfg), decodeOfEncode .enable, decodeOfEncode .disable,
    decodeOfEncode (.setTargetMemory .buffer1),
    decodeOfEncode (.enableInterrupt { tc := true, te := true, fe := true }),
    decodeOfEncode (.disableInterrupt { te := true, fe := true }), decodeOfEncode (.clearInterruptFlag .fe),
    decodeOfEncode (.getInterruptFlag .dme), decodeOfEncode (.setFifoThreshold .threeQuarters),
    decodeOfEncode .getFifoStatus⟩

/-- R113: the set written with one kind is its singleton set. -/
theorem KindSet.ofList_singleton (k : Kind) : KindSet.ofList [k] = KindSet.single k := by cases k <;> rfl

/-- Settles O6: both lines stand for the same operation. -/
theorem singleKindFormIsSingletonSet : Obligations.SingleKindFormIsSingletonSet := by
  intro k
  simp only [assemble, KindSet.ofList_singleton, and_self]

/-- Settles O7, line by line. -/
theorem assemblerLinesOfP1 : Obligations.AssemblerLinesOfP1 := by
  refine ⟨?_, ?_, ?_, ?_, ?_, ?_, ?_, ?_⟩ <;> decide

end Sys2Proof

/-! ## CONSTRUCT (40_construct.md) -/

namespace Sys2Proof

/-! ### The codes name their values (R100 to R104) -/

theorem Dir.code_injective : Function.Injective Dir.code := by
  intro a b; cases a <;> cases b <;> decide

theorem DataSize.code_injective : Function.Injective DataSize.code := by
  intro a b; cases a <;> cases b <;> decide

theorem Priority.code_injective : Function.Injective Priority.code := by
  intro a b; cases a <;> cases b <;> decide

theorem Burst.code_injective : Function.Injective Burst.code := by
  intro a b; cases a <;> cases b <;> decide

theorem FlowController.code_injective : Function.Injective FlowController.code := by
  intro a b; cases a <;> cases b <;> decide

theorem IncOffset.code_injective : Function.Injective IncOffset.code := by
  intro a b; cases a <;> cases b <;> decide

end Sys2Proof

namespace Sys2Proof.Machine

/-! ### The packed record (R24, R131, R139) -/

/-- A placed code meets no mask whose bits at its place are 0. -/
theorem place_and_eq_zero {n lo : Nat} {mask : Word} (code : BitVec n) (h : mask.extractLsb' lo n = 0#n) :
    place code lo &&& mask = 0#32 := by
  apply BitVec.eq_of_getLsbD_eq
  intro j hj
  rw [BitVec.getLsbD_and, getLsbD_place code lo j hj, BitVec.getLsbD_zero]
  by_cases hlo : lo ≤ j
  · by_cases hn : j - lo < n
    · have hbit : mask.getLsbD j = false := by
        have := congrArg (·.getLsbD (j - lo)) h
        simpa [hn, Nat.add_sub_cancel' hlo] using this
      rw [hbit, Bool.and_false]
    · rw [BitVec.getLsbD_of_ge code (j - lo) (by omega), Bool.and_false, Bool.false_and]
  · simp [hlo]

/-- The field at a code's own place is the code. -/
theorem extractLsb'_place_same {n lo : Nat} (code : BitVec n) (h : lo + n ≤ 32) :
    (place code lo).extractLsb' lo n = code := by
  apply BitVec.eq_of_getLsbD_eq
  intro j hj
  rw [BitVec.getLsbD_extractLsb', getLsbD_place code lo (lo + j) (by omega)]
  simp [hj]

/-- A field clear of a code's place is 0. -/
theorem extractLsb'_place_disjoint {n lo lo' m : Nat} (code : BitVec n) (h : lo + n ≤ lo' ∨ lo' + m ≤ lo) :
    (place code lo).extractLsb' lo' m = 0#m := by
  apply BitVec.eq_of_getLsbD_eq
  intro j hj
  rw [BitVec.getLsbD_extractLsb', BitVec.getLsbD_zero, place]
  rcases h with h | h
  · simp [BitVec.getLsbD_of_ge code (lo' + j - lo) (by omega)]
  · simp [show lo' + j < lo by omega]

/-- What R24 and R131 say of `CR` after CONSTRUCT: each code at its place, the other six bits 0. -/
structure HoldsRecord (cfg : Record) (cr : BitVec 25) : Prop where
  en     : crEn cr = false
  ct     : crCt cr = false
  dmeie  : crDmeie cr = false
  teie   : crTeie cr = false
  htie   : crHtie cr = false
  tcie   : crTcie cr = false
  pfctrl : crPfctrl cr = cfg.pfctrl.code
  dir    : crDir cr = cfg.dir.code
  circ   : crCirc cr = cfg.circ
  pinc   : crPinc cr = cfg.pinc
  minc   : crMinc cr = cfg.minc
  psize  : crPsize cr = cfg.psize.code
  msize  : crMsize cr = cfg.msize.code
  pincos : crPincos cr = cfg.pincos.code
  pl     : crPl cr = cfg.pl.code
  dbm    : crDbm cr = cfg.dbm
  trbuff : crTrbuff cr = cfg.trbuff
  pburst : crPburst cr = cfg.pburst.code
  mburst : crMburst cr = cfg.mburst.code

theorem ofBool_beq_one (b : Bool) : (BitVec.ofBool b == 1#1) = b := by cases b <;> rfl

/-- Each field of `CR` is one of the packed word, where one code is placed, or none is. -/
theorem holdsRecord_encodeCR (cfg : Record) : HoldsRecord cfg ((encodeCR cfg).setWidth 25) := by
  constructor
  all_goals
    simp (disch := decide) only [crEn, crCt, crDmeie, crTeie, crHtie, crTcie, crPfctrl, crDir, crCirc, crPinc, crMinc,
      crPsize, crMsize, crPincos, crPl, crDbm, crTrbuff, crPburst, crMburst, BitVec.getLsbD_eq_extractLsb',
      BitVec.extractLsb'_setWidth_of_le]
    simp [encodeCR, BitVec.extractLsb'_or, extractLsb'_place_same, extractLsb'_place_disjoint, ofBool_beq_one]

/-- Two records that the same `CR` holds agree on the fields packed in it. -/
theorem HoldsRecord.packed_eq {cfg cfg' : Record} {cr : BitVec 25} (h : HoldsRecord cfg cr)
    (h' : HoldsRecord cfg' cr) :
    cfg.pfctrl = cfg'.pfctrl ∧ cfg.dir = cfg'.dir ∧ cfg.circ = cfg'.circ ∧ cfg.pinc = cfg'.pinc ∧
    cfg.minc = cfg'.minc ∧ cfg.psize = cfg'.psize ∧ cfg.msize = cfg'.msize ∧ cfg.pincos = cfg'.pincos ∧
    cfg.pl = cfg'.pl ∧ cfg.dbm = cfg'.dbm ∧ cfg.trbuff = cfg'.trbuff ∧ cfg.pburst = cfg'.pburst ∧
    cfg.mburst = cfg'.mburst :=
  ⟨FlowController.code_injective (h.pfctrl.symm.trans h'.pfctrl), Dir.code_injective (h.dir.symm.trans h'.dir),
    h.circ.symm.trans h'.circ, h.pinc.symm.trans h'.pinc, h.minc.symm.trans h'.minc,
    DataSize.code_injective (h.psize.symm.trans h'.psize), DataSize.code_injective (h.msize.symm.trans h'.msize),
    IncOffset.code_injective (h.pincos.symm.trans h'.pincos), Priority.code_injective (h.pl.symm.trans h'.pl),
    h.dbm.symm.trans h'.dbm, h.trbuff.symm.trans h'.trbuff, Burst.code_injective (h.pburst.symm.trans h'.pburst),
    Burst.code_injective (h.mburst.symm.trans h'.mburst)⟩

/-- Settles O17: no code is placed on the mask, and the fields of the packed word determine the codes. -/
theorem encodeCrInjective : Obligations.EncodeCrInjective := by
  refine ⟨fun cfg => ?_, fun cfg cfg' h => ?_⟩
  · simp [encodeCR, BitVec.and_or_distrib_right, place_and_eq_zero]
  · exact (holdsRecord_encodeCR cfg).packed_eq (h ▸ holdsRecord_encodeCR cfg')

/-! ### The checks and the hazard (R132, R133, R136) -/

theorem constructFault_of_mapped (cfg : Record) {s : State} (h : s.params.streamIndex < 8) :
    constructFault cfg s = (cfgCondition cfg).map .invalidConfiguration := by
  rw [constructFault, if_neg (Nat.not_le.mpr h)]

theorem constructFault_of_valid {cfg : Record} {s : State} (h : s.params.streamIndex < 8) (hv : ValidConfig cfg) :
    constructFault cfg s = none := by
  rw [constructFault_of_mapped cfg h, (cfgCondition_eq_none_iff cfg).mpr hv, Option.map_none]

/-- Settles O16: the checks answer the first condition (`cfgCondition_eq_some_iff`), and it is raised
as the fault (`faults_raiseFault`). -/
theorem invalidConfigurationNamesFirstCondition : Obligations.InvalidConfigurationNamesFirstCondition := by
  intro cfg s cond hmapped hfails hfirst
  have hcond : cfgCondition cfg = some cond := (cfgCondition_eq_some_iff cfg cond).mpr ⟨hfails, hfirst⟩
  have hfault : checkFault (.construct cfg) s = some (.invalidConfiguration cond) := by
    show constructFault cfg s = _
    rw [constructFault_of_mapped cfg hmapped, hcond, Option.map_some]
  exact ⟨_, exec_of_checkFault hfault, faults_raiseFault _ _ s⟩

/-- Recording a hazard changes `hazardLog` only (R239). -/
theorem recordHazard_eq (cmd : Command) (h : Option HazardCode) (s : State) :
    recordHazard cmd h s = { s with hazardLog := (recordHazard cmd h s).hazardLog } := by
  cases h <;> rfl

/-- R136: the hazard is recorded exactly when the stream was enabled or the engine active. -/
theorem recordHazard_constructHazard_hazardLog (cmd : Command) (s : State) :
    (recordHazard cmd (constructHazard s) s).hazardLog =
      if crEn s.regs.cr = true ∨ s.engineActive = true then
        s.hazardLog ++ [{ context := s.issuer, command := cmd, code := .reconfigureWhileActive }]
      else s.hazardLog := by
  by_cases h : crEn s.regs.cr = true ∨ s.engineActive = true <;> simp [constructHazard, h]

/-- R134: `NDTR` stores the low 16 bits of the count. -/
theorem countWord_extract (cfg : Record) : (countWord cfg).extractLsb' 0 16 = cfg.count.extractLsb' 0 16 := by
  rw [countWord, BitVec.extractLsb'_setWidth_of_le (by decide), BitVec.extractLsb'_eq_self]

/-- R134: the count of a valid record fits in them. -/
theorem countWord_toNat {cfg : Record} (hv : ValidConfig cfg) :
    ((countWord cfg).setWidth 16).toNat = cfg.count.toNat := by
  have hcount : cfg.count.toNat ≤ 0xFFFF := Nat.not_lt.mp (hv .countTooLarge)
  rw [BitVec.setWidth_eq_extractLsb' (by decide), countWord_extract, BitVec.extractLsb'_toNat, Nat.shiftRight_zero]
  exact Nat.mod_eq_of_lt (Nat.lt_succ_of_le hcount)

/-- R41. -/
theorem lifecycle_configured {s : State} (hc : s.constructed = true) (hen : crEn s.regs.cr = false) :
    lifecycle s = .configured := by
  simp [lifecycle, hc, hen]

/-- Settles O15: the registers and the hazard of `exec_construct`, field by field. -/
theorem constructCommitsTheRecord : Obligations.ConstructCommitsTheRecord := by
  intro cfg s hmapped hv
  have cr := holdsRecord_encodeCR cfg
  exact ⟨_, exec_construct hmapped hv, completesWith_complete _ s _ (by simp) (by simp), by simp [KeepsOutside],
    by simp, rfl, lifecycle_configured rfl cr.en, by simp, recordHazard_constructHazard_hazardLog _ s, rfl,
    countWord_toNat hv, cr.en, cr.ct, cr.dmeie, cr.teie, cr.htie, cr.tcie, cr.pfctrl, cr.dir, cr.circ, cr.pinc, cr.minc,
    cr.psize, cr.msize, cr.pincos, cr.pl, cr.dbm, cr.trbuff, cr.pburst, cr.mburst⟩

/-! ### The five steps (R72, R133) -/

/-- A transaction of CONSTRUCT that is not its last one writes its register and leaves the next one to do. -/
theorem advance_constructTxns_more {cfg : Record} {k : Nat} {v : BusWord} {s : State} {r : Reg} {w : Word} {t : Txn}
    {rest : List Txn} (h : (constructTxns cfg).drop k = .write r (.put w) :: t :: rest) :
    advance { instr := .construct cfg, index := k, v := v } s = { s with
      regs := writeRule r (BusWord.ofWord w) s.regs
      contexts := s.contexts.modify s.issuer
        (Context.setInflight { instr := .construct cfg, index := k + 1, v := v }) } :=
  advance_of_more (f := { instr := .construct cfg, index := k, v := v }) h

/-- The last transaction of CONSTRUCT writes `NDTR`, sets the latch and completes the command. -/
theorem advance_constructTxns_last (cfg : Record) (v : BusWord) (s : State) :
    advance { instr := .construct cfg, index := 4, v := v } s = complete .unit { s with
      regs := writeRule .ndtr (BusWord.ofWord (countWord cfg)) s.regs
      constructed := true } := rfl

/-- A transaction turn of a context with an operation in flight advances it (R72). -/
theorem takeTurn_txn_of_inflight {c : Nat} {s : State} {x : Context} {f : InFlight} (hx : s.contexts[c]? = some x)
    (hf : x.inflight = some f) : takeTurn (.txn c) s = .next (advance f { s with issuer := c }) := by
  simp only [takeTurn, txnTurn, hx, hf]

/-- R29. -/
theorem writeRule_par_ofWord (v : Word) (g : Regs) : writeRule .par (BusWord.ofWord v) g = { g with par := v } := by
  simp only [writeRule, bits_ofWord_all]

/-- R30. -/
theorem writeRule_m0ar_ofWord (v : Word) (g : Regs) : writeRule .m0ar (BusWord.ofWord v) g = { g with m0ar := v } := by
  simp only [writeRule, bits_ofWord_all]

/-- R31. -/
theorem writeRule_m1ar_ofWord (v : Word) (g : Regs) : writeRule .m1ar (BusWord.ofWord v) g = { g with m1ar := v } := by
  simp only [writeRule, bits_ofWord_all]

/-- R133: the second, third and fourth transaction write the record's addresses. -/
theorem constructTxns_drop_middle (cfg : Record) {k : Nat} (h1 : 1 ≤ k) (h3 : k ≤ 3) :
    ∃ r w t rest, (constructTxns cfg).drop k = .write r (.put w) :: t :: rest ∧
      ∀ g, (k = 1 → writeRule r (BusWord.ofWord w) g = { g with par := cfg.par }) ∧
        (k = 2 → writeRule r (BusWord.ofWord w) g = { g with m0ar := cfg.m0ar }) ∧
        (k = 3 → writeRule r (BusWord.ofWord w) g = { g with m1ar := cfg.m1ar }) := by
  obtain rfl | rfl | rfl : k = 1 ∨ k = 2 ∨ k = 3 := by omega
  all_goals exact ⟨_, _, _, _, rfl, fun g => by
    simp [writeRule_par_ofWord, writeRule_m0ar_ofWord, writeRule_m1ar_ofWord]⟩

/-- Settles O59: the first step by `startOp_of_checks_pass`, the last by `advance_constructTxns_last`, and those between
them by `advance_constructTxns_more`. -/
theorem constructStepByStep : Obligations.ConstructStepByStep := by
  refine ⟨fun cfg s c cmd hmapped hv hnext hd => ?_, fun cfg s c k x v hx hf h1 h4 => ?_⟩
  · have hfault : (operationOf (.construct cfg) { s with issuer := c }).fault = none :=
      constructFault_of_valid hmapped hv
    have hturn := txnTurn_of_takesNext hnext hd
    rw [startOp_of_checks_pass hfault, recordHazard_eq, advance_constructTxns_more rfl] at hturn
    refine ⟨_, hturn, rfl, ?_, recordHazard_constructHazard_hazardLog _ { s with issuer := c }, ⟨BusWord.zero, ?_⟩,
      contextTurn_others rfl hturn⟩
    · rw [writeRule_cr_ofWord, BitVec.setWidth_eq_extractLsb' (by decide)]
    · rw [List.getElem?_modify_eq]
      rfl
  · have hturn := takeTurn_txn_of_inflight hx hf
    obtain rfl | hlt := Nat.eq_or_lt_of_le h4
    · rw [advance_constructTxns_last] at hturn
      refine ⟨_, hturn, rfl, by simp, by simp, by simp, fun _ => ?_, by simp, ?_, contextTurn_others rfl hturn⟩
      · exact (writeRule_ndtr_ofWord _ _).trans (by rw [countWord_extract])
      · simp [hx, Context.complete]
    · obtain ⟨r, w, t, rest, hdrop, hregs⟩ := constructTxns_drop_middle cfg h1 (Nat.le_of_lt_succ hlt)
      obtain ⟨hpar, hm0ar, hm1ar⟩ := hregs s.regs
      rw [advance_constructTxns_more hdrop] at hturn
      refine ⟨_, hturn, rfl, hpar, hm0ar, hm1ar, fun hk => absurd hk hlt.ne, ?_, ?_, contextTurn_others rfl hturn⟩
      · simp [hlt.ne]
      · simp [hx, hlt.ne, Context.setInflight]

end Sys2Proof.Machine

/-! ## Stream control (41_stream_control.md) -/

namespace Sys2Proof.Machine

/-! ### Completion and lifecycle (R21, R41, R45) -/

/-- Completing a command after a change of the registers and of the draw counter is a quiet completion. -/
theorem completesQuietly_complete (r : Result) (s : State) (g : Regs) (n : Nat) :
    CompletesQuietly r s (complete r { s with regs := g, draws := n }) :=
  ⟨completesWith_complete r s _ rfl rfl, ⟨rfl, rfl, rfl, rfl⟩, rfl, rfl, rfl⟩

/-- A quiet completion leaves a stream that was ready ready. -/
theorem CompletesQuietly.ready {r : Result} {s t : State} (h : CompletesQuietly r s t) (hready : Ready s) :
    Ready t := by
  obtain ⟨-, ⟨hparams, -⟩, hconstructed, -⟩ := h
  exact ⟨hparams ▸ hready.1, hconstructed.trans hready.2⟩

/-- R41. -/
theorem lifecycle_enabled {s : State} (hc : s.constructed = true) (hen : crEn s.regs.cr = true) :
    lifecycle s = .enabled := by
  simp [lifecycle, hc, hen]

/-- R41, R153: the lifecycle is read off the latch and `EN`. -/
theorem lifecycle_congr {s t : State} (hc : t.constructed = s.constructed)
    (hen : crEn t.regs.cr = crEn s.regs.cr) : lifecycle t = lifecycle s := by
  rw [lifecycle, lifecycle, hc, hen]

/-! ### The bits of `CR` (R24, R150, R152) -/

/-- R150: or-ing bit 0 into `CR` sets `EN` and no other bit. -/
theorem cr_or_one (cr : BitVec 25) :
    crEn (cr ||| 1#25) = true ∧ ∀ j, j ≠ 0 → (cr ||| 1#25).getLsbD j = cr.getLsbD j := by
  refine ⟨by simp [crEn], fun j hj => ?_⟩
  rw [BitVec.getLsbD_or, BitVec.getLsbD_one, decide_eq_false hj, Bool.and_false, Bool.or_false]

/-- R152: replacing bit 19 of `CR` by the buffer's bit writes `CT` and no other bit. -/
theorem cr_change_bit19 (b : Buffer) (cr : BitVec 25) :
    crCt ((cr &&& ~~~(1#25 <<< 19)) ||| (b.code.setWidth 25 <<< 19)) = decide (b = .buffer1) ∧
      ∀ j, j ≠ 19 →
        ((cr &&& ~~~(1#25 <<< 19)) ||| (b.code.setWidth 25 <<< 19)).getLsbD j = cr.getLsbD j := by
  have hmask : ∀ j, j < 25 → j ≠ 19 → (~~~(1#25 <<< 19)).getLsbD j = true := by decide
  have hvalue : ∀ j, j < 25 → j ≠ 19 → (b.code.setWidth 25 <<< 19).getLsbD j = false := by cases b <;> decide
  refine ⟨by cases b <;> simp [crCt, Buffer.code], fun j hj => ?_⟩
  by_cases hlt : j < 25
  · rw [BitVec.getLsbD_or, BitVec.getLsbD_and, hmask j hlt hj, hvalue j hlt hj, Bool.and_true, Bool.or_false]
  · simp only [BitVec.getLsbD_of_ge _ j (Nat.not_lt.mp hlt)]

/-! ### The three operations (R150 to R152) -/

/-- Settles O18, by `exec_enable` and `cr_or_one`. -/
theorem enableSetsEnOnly : Obligations.EnableSetsEnOnly := by
  intro s hready
  obtain ⟨hen, hbits⟩ := cr_or_one s.regs.cr
  exact ⟨_, exec_enable hready, completesQuietly_complete .unit s _ _, lifecycle_enabled hready.2 hen, rfl, hen, hbits⟩

/-- Settles O19, by `exec_disable` and `cr_and_not_one`. -/
theorem disableClearsEnOnly : Obligations.DisableClearsEnOnly := by
  intro s hready
  obtain ⟨hen, hbits⟩ := cr_and_not_one s.regs.cr
  exact ⟨_, exec_disable hready, completesQuietly_complete .unit s _ _, lifecycle_configured hready.2 hen, rfl, hen,
    hbits⟩

/-- Settles O20, by `exec_setTargetMemory` and `cr_change_bit19`; `EN` is one of the bits left alone. -/
theorem setTargetMemoryWritesCtOnly : Obligations.SetTargetMemoryWritesCtOnly := by
  intro b s hready
  obtain ⟨hct, hbits⟩ := cr_change_bit19 b s.regs.cr
  exact ⟨_, exec_setTargetMemory hready b, completesQuietly_complete .unit s _ _,
    lifecycle_congr rfl (hbits 0 (by decide)), rfl, hct, hbits⟩

/-! ### CONSTRUCT, ENABLE, DISABLE (R155) -/

/-- R133, R135: a CONSTRUCT of a valid record leaves the stream ready, with the packed record in `CR`. -/
theorem construct_leaves_ready {cfg : Record} {s : State} (hmapped : s.params.streamIndex < 8)
    (hv : ValidConfig cfg) :
    ∃ t, exec (.construct cfg) s = .next t ∧ Ready t ∧ t.regs.cr = (encodeCR cfg).setWidth 25 :=
  ⟨_, exec_construct hmapped hv, ⟨by simpa using hmapped, rfl⟩, rfl⟩

/-- Settles O21: ENABLE and DISABLE change no bit but `EN` (O18, O19), which the packed record has 0 as DISABLE leaves
it. -/
theorem enableThenDisableRestoresCr : Obligations.EnableThenDisableRestoresCr := by
  intro cfg s hmapped hv
  obtain ⟨t, hconstruct, hready, hcr⟩ := construct_leaves_ready hmapped hv
  obtain ⟨u, henable, hquiet, -, -, -, hu⟩ := enableSetsEnOnly t hready
  obtain ⟨w, hdisable, -, -, -, hen, hw⟩ := disableClearsEnOnly u (hquiet.ready hready)
  refine ⟨w, by simp only [execAll, hconstruct, henable, hdisable], ?_⟩
  rw [← hcr]
  have hen0 : crEn t.regs.cr = false := hcr ▸ (holdsRecord_encodeCR cfg).en
  apply BitVec.eq_of_getLsbD_eq
  intro j _
  by_cases hj : j = 0
  · subst hj
    exact hen.trans hen0.symm
  · exact (hw j hj).trans (hu j hj)

end Sys2Proof.Machine

/-! ## Interrupt mask (42_interrupt_mask.md) -/

namespace Sys2Proof

/-! ### Membership in kind sets (R15, R94, R112) -/

theorem KindSet.eq_of_has_eq {s t : KindSet} (h : ∀ k, s.has k = t.has k) : s = t := by
  obtain ⟨tc, ht, te, dme, fe⟩ := s
  obtain ⟨tc', ht', te', dme', fe'⟩ := t
  simpa only [KindSet.mk.injEq] using ⟨h .tc, h .ht, h .te, h .dme, h .fe⟩

@[simp] theorem KindSet.has_ofList (ks : List Kind) (k : Kind) : (KindSet.ofList ks).has k = ks.contains k := by
  cases k <;> rfl

theorem KindSet.has_single (k j : Kind) : (KindSet.single k).has j = (j == k) := by
  cases k <;> cases j <;> rfl

/-- A kind set is the set of any list of its members, whatever the order and the repetition. -/
theorem KindSet.ofList_eq_of_mem_iff {ks : KindSet} {members : List Kind}
    (h : ∀ k, k ∈ members ↔ ks.has k = true) : KindSet.ofList members = ks :=
  KindSet.eq_of_has_eq fun k => by
    rw [KindSet.has_ofList, Bool.eq_iff_iff, List.contains_iff_mem, h k]

end Sys2Proof

namespace Sys2Proof.Machine

/-! ### The enable bits (R24, R170) -/

/-- R170: `crMask` has no bit but the four interrupt enables of `CR`. -/
theorem getLsbD_crMask_outside (ks : KindSet) {j : Nat} (hj : j = 0 ∨ 4 < j) :
    ((crMask ks).setWidth 25).getLsbD j = false := by
  by_cases hlt : j < 25
  · rw [getLsbD_crMask ks j hlt]
    simp [show j ≠ 4 by omega, show j ≠ 3 by omega, show j ≠ 2 by omega, show j ≠ 1 by omega]
  · exact BitVec.getLsbD_of_ge _ j (Nat.not_lt.mp hlt)

/-- R171: the enables after `CR` and `FEIE` are or-ed. A kind other than FE does not see `FEIE`, so for it the set may be
taken without FE. -/
theorem enabledOf_or (g : Regs) (ks : KindSet) (k : Kind) :
    enabledOf { g with
      cr := g.cr ||| (crMask ks).setWidth 25
      fcr := { g.fcr with feie := g.fcr.feie || ks.fe } } k = (enabledOf g k || ks.has k) := by
  have hcr := enabledOf_cr_or (ks := { ks with fe := false }) rfl g k
  cases k with
  | fe => rfl
  | _ => exact hcr

/-- R172: the enables after `CR` and `FEIE` are cleared. -/
theorem enabledOf_and_not (g : Regs) (ks : KindSet) (k : Kind) :
    enabledOf { g with
      cr := g.cr &&& ~~~(crMask ks).setWidth 25
      fcr := { g.fcr with feie := g.fcr.feie && !ks.fe } } k = (enabledOf g k && !ks.has k) := by
  have hcr := enabledOf_cr_and_not (ks := { ks with fe := false }) rfl g k
  cases k with
  | fe => rfl
  | _ => exact hcr

/-! ### Updates of the mask, kind by kind (R171, R172) -/

/-- From the registers `g` to `g'` each kind's enable became `f before member`, where `member` says whether `ks` has the
kind, and nothing but the five enable bits changed. -/
def UpdatesMask (f : Bool → Bool → Bool) (ks : KindSet) (g g' : Regs) : Prop :=
  g' = { g with cr := g'.cr, fcr := { g.fcr with feie := g'.fcr.feie } } ∧
  (∀ k, enabledOf g' k = f (enabledOf g k) (ks.has k)) ∧
  ∀ j, (j = 0 ∨ 4 < j) → g'.cr.getLsbD j = g.cr.getLsbD j

/-- The operation of every kind set completes with `Unit` and updates the mask by `f`: O23 says so of ENABLE_INTERRUPT
and O24 of DISABLE_INTERRUPT. -/
def MaskOperation (op : KindSet → Instr) (f : Bool → Bool → Bool) : Prop :=
  ∀ (ks : KindSet) (s : State), Ready s → ∃ t, exec (op ks) s = .next t ∧
    CompletesQuietly .unit s t ∧ UpdatesMask f ks s.regs t.regs

theorem enableInterrupt_maskOperation : MaskOperation .enableInterrupt fun before member => before || member := by
  intro ks s hready
  obtain ⟨n, hexec⟩ := exec_enableInterrupt hready ks
  refine ⟨_, hexec, completesQuietly_complete .unit s _ _, rfl, enabledOf_or s.regs ks, fun j hj => ?_⟩
  rw [complete_regs, BitVec.getLsbD_or, getLsbD_crMask_outside ks hj, Bool.or_false]

theorem disableInterrupt_maskOperation : MaskOperation .disableInterrupt fun before member => before && !member := by
  intro ks s hready
  obtain ⟨n, hexec⟩ := exec_disableInterrupt hready ks
  rw [BitVec.setWidth_not (by decide)] at hexec
  refine ⟨_, hexec, completesQuietly_complete .unit s _ _, rfl, enabledOf_and_not s.regs ks, fun j hj => ?_⟩
  by_cases hlt : j < 25
  · rw [complete_regs, BitVec.getLsbD_and, BitVec.getLsbD_not, getLsbD_crMask_outside ks hj]
    simp [hlt]
  · simp only [BitVec.getLsbD_of_ge _ j (Nat.not_lt.mp hlt)]

/-- Settles O23: it is `MaskOperation` of ENABLE_INTERRUPT. -/
theorem enableInterruptSetsExactlyItsKinds : Obligations.EnableInterruptSetsExactlyItsKinds :=
  enableInterrupt_maskOperation

/-- Settles O24: it is `MaskOperation` of DISABLE_INTERRUPT. -/
theorem disableInterruptClearsExactlyItsKinds : Obligations.DisableInterruptClearsExactlyItsKinds :=
  disableInterrupt_maskOperation

/-! ### The set form and the single-kind forms (R173) -/

/-- The registers before an update of the mask, its set and its rule determine the registers after it. -/
theorem UpdatesMask.unique {f : Bool → Bool → Bool} {ks : KindSet} {g a b : Regs} (ha : UpdatesMask f ks g a)
    (hb : UpdatesMask f ks g b) : a = b := by
  obtain ⟨hframea, hena, hbitsa⟩ := ha
  obtain ⟨hframeb, henb, hbitsb⟩ := hb
  have hen : ∀ k, enabledOf a k = enabledOf b k := fun k => (hena k).trans (henb k).symm
  have hcr : a.cr = b.cr := by
    apply BitVec.eq_of_getLsbD_eq
    intro j _
    obtain hout | rfl | rfl | rfl | rfl : (j = 0 ∨ 4 < j) ∨ j = 1 ∨ j = 2 ∨ j = 3 ∨ j = 4 := by omega
    · exact (hbitsa j hout).trans (hbitsb j hout).symm
    · exact hen .dme
    · exact hen .te
    · exact hen .ht
    · exact hen .tc
  have hfeie : a.fcr.feie = b.fcr.feie := hen .fe
  rw [hframea, hframeb, hcr, hfeie]

/-- Updates by two sets, one after the other, are an update by their union, if the rule is one that applies membership
in a union as membership in each. -/
theorem UpdatesMask.trans {f : Bool → Bool → Bool} (hunion : ∀ e m m', f (f e m) m' = f e (m || m'))
    {ks ks' us : KindSet} {g g' g'' : Regs} (h : UpdatesMask f ks g g') (h' : UpdatesMask f ks' g' g'')
    (hus : ∀ k, us.has k = (ks.has k || ks'.has k)) : UpdatesMask f us g g'' := by
  obtain ⟨hframe, hen, hbits⟩ := h
  obtain ⟨hframe', hen', hbits'⟩ := h'
  refine ⟨?_, fun k => ?_, fun j hj => (hbits' j hj).trans (hbits j hj)⟩
  · rw [hframe', hframe]
  · rw [hen', hen, hunion, hus]

/-- The single-kind forms of a list, one after another, update the mask by the set of the list. -/
theorem MaskOperation.execAll_singles {op : KindSet → Instr} {f : Bool → Bool → Bool} (hop : MaskOperation op f)
    (hempty : ∀ e, f e false = e) (hunion : ∀ e m m', f (f e m) m' = f e (m || m')) (members : List Kind)
    {s : State} (hready : Ready s) :
    ∃ u, execAll (members.map fun k => op (KindSet.single k)) s = .next u ∧
      UpdatesMask f (KindSet.ofList members) s.regs u.regs := by
  induction members generalizing s with
  | nil => exact ⟨s, rfl, rfl, fun k => by simp [hempty], fun _ _ => rfl⟩
  | cons k rest ih =>
    obtain ⟨t, hexec, hquiet, hfirst⟩ := hop (KindSet.single k) s hready
    obtain ⟨u, hrest, hothers⟩ := ih (hquiet.ready hready)
    refine ⟨u, by simp only [List.map_cons, execAll, hexec, hrest], hfirst.trans hunion hothers fun j => ?_⟩
    rw [KindSet.has_ofList, KindSet.has_ofList, KindSet.has_single, List.contains_cons]

/-- R173: the set form leaves the registers as the single-kind forms of its members do, since both update the mask by
the same set. -/
theorem MaskOperation.setForm_eq_singles {op : KindSet → Instr} {f : Bool → Bool → Bool} (hop : MaskOperation op f)
    (hempty : ∀ e, f e false = e) (hunion : ∀ e m m', f (f e m) m' = f e (m || m')) {ks : KindSet}
    {members : List Kind} {s : State} (hready : Ready s) (hmem : ∀ k, k ∈ members ↔ ks.has k = true) :
    ∃ t u, exec (op ks) s = .next t ∧
      execAll (members.map fun k => op (KindSet.single k)) s = .next u ∧ t.regs = u.regs := by
  obtain ⟨t, hexec, -, hset⟩ := hop ks s hready
  obtain ⟨u, hall, hsingles⟩ := hop.execAll_singles hempty hunion members hready
  rw [KindSet.ofList_eq_of_mem_iff hmem] at hsingles
  exact ⟨t, u, hexec, hall, hset.unique hsingles⟩

/-- Settles O25, by `MaskOperation.setForm_eq_singles` for the rules of enabling and of disabling. -/
theorem setFormEqualsMemberForms : Obligations.SetFormEqualsMemberForms := fun _ _ _ hready hmem =>
  ⟨enableInterrupt_maskOperation.setForm_eq_singles (by decide) (by decide) hready hmem,
    disableInterrupt_maskOperation.setForm_eq_singles (by decide) (by decide) hready hmem⟩

end Sys2Proof.Machine

/-! ## Interrupt flags (43_interrupt_flags.md) -/

namespace Sys2Proof.Machine

/-! ### The indexer (R190 to R192) -/

/-- Settles O29: `locate` computes to the table. -/
theorem locateTable : Obligations.LocateTable := ⟨rfl, rfl, rfl, rfl, rfl⟩

/-- `allKinds` holds every kind (R15). -/
theorem mem_allKinds (k : Kind) : k ∈ allKinds := by cases k <;> decide

/-- R109: the five flag bits in the order of the five kinds. -/
theorem FlagBits.toList_map_val (f : FlagBits) : f.toList.map Fin.val = allKinds.map (flagBitOf f) := rfl

/-- R109: the kind of a bit of a group is unique. -/
theorem flagBitOf_injective {f : FlagBits} (h : f.wf = true) : Function.Injective (flagBitOf f) := by
  have hnodup : (allKinds.map (flagBitOf f)).Nodup :=
    FlagBits.toList_map_val f ▸ (of_decide_eq_true h).map Fin.val_injective
  exact fun k k' he => List.inj_on_of_nodup_map hnodup (mem_allKinds k) (mem_allKinds k') he

/-- R109: every bit of a group has a kind, since five different bits fill it. -/
theorem exists_flagBitOf_eq {f : FlagBits} (h : f.wf = true) {n : Nat} (hn : n < 5) : ∃ k, flagBitOf f k = n := by
  have hcard : f.toList.toFinset.card = Fintype.card (Fin 5) := List.toFinset_card_of_nodup (of_decide_eq_true h)
  have hmem : (⟨n, hn⟩ : Fin 5) ∈ f.toList := by
    rw [← List.mem_toFinset, Finset.eq_univ_of_card _ hcard]
    exact Finset.mem_univ _
  have hval : n ∈ allKinds.map (flagBitOf f) := FlagBits.toList_map_val f ▸ List.mem_map_of_mem hmem
  obtain ⟨k, -, hk⟩ := List.mem_map.mp hval
  exact ⟨k, hk⟩

/-- R191: a kind's bit of its group is `flagBit` modulo 5. -/
theorem flagBit_mod_five (f : FlagBits) (i : Nat) (k : Kind) : flagBit f i k % 5 = flagBitOf f k := by
  have hlt : flagBitOf f k < 5 := by
    cases k with
    | tc => exact Nat.succ_pos 4
    | _ => exact Fin.isLt _
  rw [flagBit, locate, Nat.mul_add_mod, Nat.mod_eq_of_lt hlt]

/-- R192: the stream of a flag, from its register and its bit. -/
theorem stream_eq_of_flagBit (f : FlagBits) {i : Nat} (k : Kind) (hi : i < 8) :
    i = (if (locate i).1 = .high then 4 else 0) + flagBit f i k / 5 := by
  have hmod := flagBit_mod_five f i k
  have hbit : flagBit f i k = 5 * (i % 4) + flagBitOf f k := rfl
  by_cases hlow : i < 4
  · rw [locate_low_of_lt hlow, if_neg (by decide)]; omega
  · rw [locate_high_of_le (Nat.not_lt.mp hlow), if_pos rfl]; omega

/-- R190, R192: the streams of a register are four in a row. -/
theorem locate_of_block (sel : RegSel) {n : Nat} (hn : n < 4) :
    locate ((if sel = .high then 4 else 0) + n) = (sel, 5 * n) := by
  cases sel with
  | low => simp [locate, hn, Nat.mod_eq_of_lt hn]
  | high => simp [locate, Nat.mod_eq_of_lt hn]

/-- R192: two flags at the same bit of the same register are of one stream and one kind. -/
theorem eq_of_flagBit_eq {f : FlagBits} (h : f.wf = true) {i i' : Nat} {k k' : Kind} (hi : i < 8) (hi' : i' < 8)
    (hsel : (locate i).1 = (locate i').1) (hbit : flagBit f i k = flagBit f i' k') : i = i' ∧ k = k' := by
  refine ⟨?_, flagBitOf_injective h ?_⟩
  · rw [stream_eq_of_flagBit f k hi, stream_eq_of_flagBit f k' hi', hsel, hbit]
  · rw [← flagBit_mod_five f i k, hbit, flagBit_mod_five]

/-- Settles O30: the range is `flagBit_lt`, injectivity `eq_of_flagBit_eq`; the flag at bit `j` is that of the kind at
`j mod 5` of its group, of the stream `j div 5` of the register. -/
theorem indexerIsBijection : Obligations.IndexerIsBijection := by
  intro f hf
  refine ⟨fun i k _ => flagBit_lt f i k, fun i i' k k' hi hi' => eq_of_flagBit_eq hf hi hi', fun sel j hj => ?_⟩
  obtain ⟨k, hk⟩ := exists_flagBitOf_eq hf (Nat.mod_lt j (by decide : 0 < 5))
  have hlocate := locate_of_block sel (n := j / 5) (by omega)
  refine ⟨_, k, rfl, by split <;> omega, by rw [hlocate], ?_, hk⟩
  rw [flagBit, hlocate, hk, Nat.div_add_mod]

/-! ### CLEAR_INTERRUPT_FLAG and GET_INTERRUPT_FLAG (R193, R194) -/

theorem locate_eq_low_iff (i : Nat) : (locate i).1 = .low ↔ i < 4 := by simp [locate]

theorem locate_eq_high_iff (i : Nat) : (locate i).1 = .high ↔ 4 ≤ i := by simp [locate]

theorem clearRegOf_injective : Function.Injective clearRegOf := by
  intro a b; cases a <;> cases b <;> decide

/-- R37: a write of a clear register changes the two status registers only. -/
theorem writeRule_clearRegOf (sel : RegSel) (b : BusWord) (g : Regs) :
    writeRule (clearRegOf sel) b g =
      { g with lisr := selFlags .low (writeRule (clearRegOf sel) b g)
               hisr := selFlags .high (writeRule (clearRegOf sel) b g) } := by
  cases sel <;> rfl

/-- R35: the flag of a stream and kind, as a bit of its register. -/
theorem flagOf_eq_selFlags (p : Params) (g : Regs) (i : Nat) (k : Kind) :
    flagOf p g i k = (selFlags (locate i).1 g).getLsbD (flagBit p.flagBits i k) := by
  unfold flagOf statusFlags
  cases (locate i).1 <;> rfl

/-- R193: the write of CLEAR_INTERRUPT_FLAG clears the one bit `flagBit` of the one register of `locate`. -/
theorem getLsbD_selFlags_clear (f : FlagBits) (i : Nat) (k : Kind) (g : Regs) (sel : RegSel) (j : Nat) :
    (selFlags sel (writeRule (clearRegOf (locate i).1) (BusWord.ofWord (flagMask f i k)) g)).getLsbD j =
      ((selFlags sel g).getLsbD j && !(decide ((locate i).1 = sel) && decide (j = flagBit f i k))) := by
  rw [selFlags_writeRule]
  by_cases hsel : (locate i).1 = sel
  · rw [if_pos (congrArg clearRegOf hsel), decide_eq_true hsel, Bool.true_and]
    by_cases hj : j < 20
    · rw [getLsbD_clearFlags_ofWord _ _ j hj, getLsbD_flagMask f i k j hj]
    · simp only [BitVec.getLsbD_of_ge _ j (Nat.not_lt.mp hj), Bool.false_and]
  · rw [if_neg fun h => hsel (clearRegOf_injective h), decide_eq_false hsel, Bool.false_and, Bool.not_false,
      Bool.and_true]

/-- R192, R193: of the streams' flags, the write of CLEAR_INTERRUPT_FLAG clears that of its stream and kind only. -/
theorem flagOf_clear {p : Params} (h : p.flagBits.wf = true) {i i' : Nat} (hi : i < 8) (hi' : i' < 8) (k k' : Kind)
    (g : Regs) :
    flagOf p (writeRule (clearRegOf (locate i).1) (BusWord.ofWord (flagMask p.flagBits i k)) g) i' k' =
      (flagOf p g i' k' && !(decide (i' = i) && decide (k' = k))) := by
  have hsame : ((locate i).1 = (locate i').1 ∧ flagBit p.flagBits i' k' = flagBit p.flagBits i k) ↔
      (i' = i ∧ k' = k) := by
    refine ⟨fun ⟨hsel, hbit⟩ => eq_of_flagBit_eq h hi' hi hsel.symm hbit, ?_⟩
    rintro ⟨rfl, rfl⟩
    exact ⟨rfl, rfl⟩
  rw [flagOf_eq_selFlags, flagOf_eq_selFlags, getLsbD_selFlags_clear, ← Bool.decide_and, ← Bool.decide_and,
    decide_eq_decide.mpr hsame]

/-- Settles O31: the operation is one write of its clear register (`exec_clearInterruptFlag`), which clears one bit
(`getLsbD_selFlags_clear`), the flag of this stream and kind (`flagOf_clear`). -/
theorem clearFlagClearsOneFlag : Obligations.ClearFlagClearsOneFlag := by
  intro k s hready
  have hbits := getLsbD_selFlags_clear s.params.flagBits s.params.streamIndex k s.regs
  refine ⟨_, exec_clearInterruptFlag hready k, completesQuietly_complete .unit s _ _, writeRule_clearRegOf _ _ _,
    fun j => ?_, fun j => ?_, fun hf i k' hi => flagOf_clear hf hready.1 hi k k' s.regs⟩
  · exact (hbits .low j).trans (by rw [decide_eq_decide.mpr (locate_eq_low_iff _)]; rfl)
  · exact (hbits .high j).trans (by rw [decide_eq_decide.mpr (locate_eq_high_iff _)]; rfl)

/-- Settles O32, by `exec_getInterruptFlag`: the result is the flag, and the read changes the draw counter only. -/
theorem getFlagReturnsTheFlag : Obligations.GetFlagReturnsTheFlag := fun k s hready =>
  ⟨_, exec_getInterruptFlag hready k, completesQuietly_complete _ s _ _, rfl⟩

/-! ### From a clear to the next get (R38, R195) -/

/-- R38: a turn that sets a flag is the engine's assertion of it. -/
theorem takeTurn_sets_flag {turn : Turn} {s t : State} {sel : RegSel} {j : Nat} (h : takeTurn turn s = .next t)
    (h0 : (selFlags sel s.regs).getLsbD j = false) (h1 : (selFlags sel t.regs).getLsbD j = true) :
    ∃ (i : Fin 8) (k : Kind), turn = .engine (.assertFlag i k) ∧ (locate i.val).1 = sel ∧
      j = flagBit s.params.flagBits i.val k := by
  have hwrite : ∀ r b g, (selFlags sel g).getLsbD j = false → (selFlags sel (writeRule r b g)).getLsbD j = false :=
    fun r b g hg => Bool.eq_false_iff.mpr fun hw => Bool.eq_false_iff.mp hg (selFlags_of_writeRule hw)
  rcases takeTurn_cases h with ⟨c, hc⟩ | ⟨m, rfl, hm⟩ | ⟨a, rfl, rfl⟩
  · have hkept := contextTurn_regs_induct (fun g => (selFlags sel g).getLsbD j = false) hc h
      (fun _ _ r u _ b g => hwrite r (u.apply b) g) h0
    exact absurd h1 (Bool.eq_false_iff.mp hkept)
  · obtain ⟨i, k, rfl, hsel, hj⟩ := set_by_engineMove hm h0 h1
    exact ⟨i, k, rfl, hsel, hj⟩
  · have hback := (foreignAccess_leavesEngineAlone a s).flags sel j h1
    exact absurd hback (Bool.eq_false_iff.mp h0)

/-- A stream of parameters `p`, constructed, whose flag of kind `k` is not set. -/
structure FlagDown (p : Params) (k : Kind) (s : State) : Prop where
  params      : s.params = p
  constructed : s.constructed = true
  flag        : flagOf p s.regs p.streamIndex k = false

/-- R195: a flag stays down in every turn but the engine's assertion of that flag. -/
theorem FlagDown.takeTurn {p : Params} (hp : p.streamIndex < 8) (hf : p.flagBits.wf = true) {k : Kind} {turn : Turn}
    {s t : State} (h : FlagDown p k s) (hturn : takeTurn turn s = .next t)
    (hquiet : ∀ i : Fin 8, i.val = p.streamIndex → turn ≠ .engine (.assertFlag i k)) : FlagDown p k t := by
  obtain ⟨rfl, hconstructed, hflag⟩ := h
  obtain ⟨hparams, hlatch, -⟩ := takeTurn_outside hturn
  refine ⟨hparams, hlatch hconstructed, Bool.eq_false_iff.mpr fun hset => ?_⟩
  rw [flagOf_eq_selFlags] at hflag hset
  obtain ⟨i, k', hassert, hsel, hbit⟩ := takeTurn_sets_flag hturn hflag hset
  obtain ⟨hi, rfl⟩ := eq_of_flagBit_eq hf hp i.isLt hsel.symm hbit
  exact hquiet i hi.symm hassert

/-- R195: the same for turns one after another. -/
theorem FlagDown.takeTurns {p : Params} (hp : p.streamIndex < 8) (hf : p.flagBits.wf = true) {k : Kind}
    {ts : List Turn} {s t : State} (h : FlagDown p k s) (hturns : takeTurns ts s = .next t)
    (hquiet : ∀ i : Fin 8, i.val = p.streamIndex → Turn.engine (.assertFlag i k) ∉ ts) : FlagDown p k t := by
  induction ts generalizing s with
  | nil =>
    obtain rfl : s = t := by simpa [Machine.takeTurns] using hturns
    exact h
  | cons turn ts ih =>
    obtain ⟨u, hfirst, hrest⟩ := takeTurns_cons hturns
    have hu : FlagDown p k u := h.takeTurn hp hf hfirst fun i hi he => hquiet i hi (he ▸ List.mem_cons_self)
    exact ih hu hrest fun i hi hmem => hquiet i hi (List.mem_cons_of_mem _ hmem)

/-- Settles O33: the clear leaves the flag down (O31), the turns keep it down (`FlagDown.takeTurns`), and the get
returns it (O32). -/
theorem clearThenGetReadsFalse : Obligations.ClearThenGetReadsFalse := by
  intro k s t u ts hready hf hclear hquiet hturns
  obtain ⟨t', ht', hcompletes, -, -, -, hflags⟩ := clearFlagClearsOneFlag k s hready
  obtain rfl : t' = t := Host.Outcome.next.inj (ht'.symm.trans hclear)
  have hreadyt : Ready t' := hcompletes.ready hready
  obtain ⟨-, ⟨hparams, -⟩, -⟩ := hcompletes
  have hdown : FlagDown s.params k t' := ⟨hparams, hreadyt.2, by rw [hflags hf _ k hready.1]; simp⟩
  obtain ⟨hup, huc, hflag⟩ := hdown.takeTurns hready.1 hf hturns hquiet
  obtain ⟨v, hget, ⟨hresult, -⟩, -⟩ := getFlagReturnsTheFlag k u ⟨hup ▸ hready.1, huc⟩
  rw [hup, hflag] at hresult
  exact ⟨v, hget, hresult⟩

end Sys2Proof.Machine

/-! ## FIFO (44_fifo.md) -/

namespace Sys2Proof.Machine

/-! ### The two operations run whole (R210, R211) -/

/-- Settles O34, by `exec_setFifoThreshold`. -/
theorem setFifoThresholdWritesFthOnly : Obligations.SetFifoThresholdWritesFthOnly := fun lvl s hready =>
  ⟨_, exec_setFifoThreshold hready lvl, completesQuietly_complete .unit s _ _, rfl⟩

/-- R211: where `FS` has a status, GET_FIFO_STATUS returns it, and its read changes the draw counter only. -/
theorem exec_getFifoStatus_of_some {s : State} {st : FifoStatus} (h : Ready s)
    (hst : decodeFS s.regs.fcr.fs = some st) :
    exec .getFifoStatus s = .next (complete (.fifo st) { s with draws := s.draws + 1 }) := by
  rw [exec_getFifoStatus h, hst]

/-- R211: where `FS` has no status, GET_FIFO_STATUS raises the fault of R237 after its read. -/
theorem exec_getFifoStatus_of_none {s : State} (h : Ready s) (hst : decodeFS s.regs.fcr.fs = none) :
    exec .getFifoStatus s =
      .next (raiseFault (encode .getFifoStatus) (.unmappedFifoStatus s.regs.fcr.fs)
        { s with draws := s.draws + 1 }) := by
  rw [exec_getFifoStatus h, hst]

/-- R212: the codes that have no status. -/
theorem decodeFS_eq_none_iff (fs : BitVec 3) : decodeFS fs = none ↔ fs = 0b110#3 ∨ fs = 0b111#3 := by
  revert fs; decide

/-- Settles O36: `decodeFS` has the six rows of R108, and the status it gives is the result. -/
theorem getFifoStatusDecodesSixCodes : Obligations.GetFifoStatusDecodesSixCodes := by
  rintro s fs st hready hrow rfl
  have hst : decodeFS s.regs.fcr.fs = some st := by
    have hrows : ∀ row ∈ [(0b000#3, FifoStatus.quarter), (0b001#3, .half), (0b010#3, .threeQuarter),
        (0b011#3, .almostFull), (0b100#3, .empty), (0b101#3, .full)], decodeFS row.1 = some row.2 := by decide
    exact hrows _ hrow
  exact ⟨_, exec_getFifoStatus_of_some hready hst, completesQuietly_complete _ s _ _, rfl⟩

/-- Settles O37: `decodeFS` has no row for the two codes, and the fault after the read is one of R231. -/
theorem undocumentedFifoCodeFaults : Obligations.UndocumentedFifoCodeFaults := fun s hready hcode =>
  ⟨_, exec_getFifoStatus_of_none hready ((decodeFS_eq_none_iff _).mpr hcode),
    faults_raiseFault _ _ { s with draws := s.draws + 1 }⟩

/-! ### From one transaction of an operation to the next (R72) -/

/-- An operation other than CONSTRUCT depends on the parameters and the latch only. -/
theorem operationOf_congr {i : Instr} (hi : isConstruct i = false) {s t : State} (hparams : t.params = s.params)
    (hlatch : t.constructed = s.constructed) : operationOf i t = operationOf i s := by
  have hprologue : prologue t = prologue s := by rw [prologue, prologue, hparams, hlatch]
  cases i with
  | construct cfg => cases hi
  | _ =>
    simp only [operationOf, opEnable, opDisable, opSetTargetMemory, opEnableInterrupt, opDisableInterrupt,
      opClearInterruptFlag, opGetInterruptFlag, opSetFifoThreshold, opGetFifoStatus, hprologue, hparams]

/-- R239: only CONSTRUCT records a hazard. -/
theorem operationOf_hazard {i : Instr} (hi : isConstruct i = false) (s : State) : (operationOf i s).hazard = none := by
  cases i with
  | construct cfg => cases hi
  | _ => rfl

/-- On a ready stream, the turn of a context at transaction `k` of an operation other than CONSTRUCT is that
transaction. -/
theorem txnTurn_atTransaction_of_ready {c k : Nat} {i : Instr} {s : State} (h : AtTransaction c i k s)
    (hready : Ready s) (hi : isConstruct i = false) :
    ∃ v, takeTurn (.txn c) s = .next (advance { instr := i, index := k, v := v } { s with issuer := c }) :=
  txnTurn_atTransaction h (checks_pass_of_ready hready hi) (operationOf_hazard hi s)
    fun _ hparams hlatch _ _ => operationOf_congr hi hparams hlatch

/-- The context of a transaction exists. -/
theorem AtTransaction.exists_context {c k : Nat} {i : Instr} {s : State} (h : AtTransaction c i k s) :
    ∃ x, s.contexts[c]? = some x := by
  rcases h with ⟨-, cmd, ⟨x, hx, -⟩, -⟩ | ⟨x, v, hx, -⟩
  · exact ⟨x, hx⟩
  · exact ⟨x, hx⟩

/-- After a transaction that is not its operation's last, the operation is in flight at the next one. -/
theorem inflight_of_txnTurn {c k : Nat} {i : Instr} {s t : State} (h : AtTransaction c i k s) (hready : Ready s)
    (hi : isConstruct i = false) (hmore : k + 2 ≤ (operationOf i s).txns.length)
    (hturn : takeTurn (.txn c) s = .next t) :
    ∃ x v, t.contexts[c]? = some x ∧ x.inflight = some { instr := i, index := k + 1, v := v } := by
  obtain ⟨x, hx⟩ := h.exists_context
  obtain ⟨v, hv⟩ := txnTurn_atTransaction_of_ready h hready hi
  obtain rfl := Host.Outcome.next.inj (hv.symm.trans hturn)
  have hop : operationOf i { s with issuer := c } = operationOf i s := operationOf_congr hi rfl rfl
  have hlen : 2 ≤ ((operationOf i { s with issuer := c }).txns.drop k).length := by
    rw [hop, List.length_drop]; omega
  match hdrop : (operationOf i { s with issuer := c }).txns.drop k with
  | [] => simp [hdrop] at hlen
  | [_] => simp [hdrop] at hlen
  | txn :: txn' :: rest =>
    rw [advance_of_more hdrop]
    exact ⟨x.setInflight { instr := i, index := k + 1, v := (doTxn txn v { s with issuer := c }).1 }, _,
      by simp [hx], rfl⟩

/-! ### Exclusive runs, turn by turn (R73) -/

/-- An exclusive run begins with an exclusive turn, and goes on exclusively. -/
theorem exclusive_cons {turn : Turn} {ts : List Turn} {s s' : State} (h : exclusive (turn :: ts) s = true)
    (hturn : takeTurn turn s = .next s') : exclusiveTurn turn s = true ∧ exclusive ts s' = true := by
  simpa only [exclusive, hturn, Bool.and_eq_true] using h

/-- The rest of an exclusive run is exclusive. -/
theorem exclusive_of_append {ts us : List Turn} {s s' : State} (h : exclusive (ts ++ us) s = true)
    (hts : takeTurns ts s = .next s') : exclusive us s' = true := by
  induction ts generalizing s with
  | nil =>
    obtain rfl : s = s' := by simpa [takeTurns] using hts
    exact h
  | cons turn ts ih =>
    obtain ⟨s1, hturn, hrest⟩ := takeTurns_cons hts
    exact ih (exclusive_cons h hturn).2 hrest

/-! ### The threshold in an exclusive run (R214) -/

/-- R33: a write of another register leaves `FCR` alone. -/
theorem writeRule_fcr_of_ne {r : Reg} (h : r ≠ .fcr) (b : BusWord) (g : Regs) : (writeRule r b g).fcr = g.fcr := by
  cases r with
  | fcr => exact absurd rfl h
  | _ => rfl

/-- R87, R214: no engine move and no exclusive foreign access writes `FTH`. -/
theorem fth_of_exclusiveTurn {turn : Turn} {s t : State} (hagent : contextOf turn = none)
    (hexcl : exclusiveTurn turn s = true) (h : takeTurn turn s = .next t) : t.regs.fcr.fth = s.regs.fcr.fth := by
  rcases takeTurn_cases h with ⟨c, hc⟩ | ⟨m, rfl, hmove⟩ | ⟨a, rfl, rfl⟩
  · rw [hagent] at hc; cases hc
  · obtain ⟨-, -, -, hfcr, -⟩ := engineMove_regs hmove
    rw [hfcr]
  · cases a with
    | read r => rfl
    | write r v =>
      have hr : r ≠ .fcr := by rintro rfl; cases hexcl
      exact congrArg Fcr.fth (writeRule_fcr_of_ne hr (BusWord.ofWord v) s.regs)

/-- R214: turns of the engine and of foreign software leave `FTH` alone in an exclusive run. -/
theorem fth_of_exclusive {ts : List Turn} {s u : State} (hagents : noContextTurn ts = true)
    (hexcl : exclusive ts s = true) (h : takeTurns ts s = .next u) : u.regs.fcr.fth = s.regs.fcr.fth := by
  induction ts generalizing s with
  | nil =>
    obtain rfl : s = u := by simpa [takeTurns] using h
    rfl
  | cons turn ts ih =>
    obtain ⟨s', hturn, hrest⟩ := takeTurns_cons h
    obtain ⟨hexclTurn, hexclRest⟩ := exclusive_cons hexcl hturn
    rw [noContextTurn, List.all_cons, Bool.and_eq_true, Option.isNone_iff_eq_none] at hagents
    exact (ih hagents.2 hexclRest hrest).trans (fth_of_exclusiveTurn hagents.1 hexclTurn hturn)

/-- R70, R210: whatever word was read, the word `change(FCR, 0x3, lvl, 0)` writes has the level's code in `FTH`. -/
theorem fth_write_change (f : Fcr) (v : BusWord) (c : BitVec 2) :
    (f.write ((Update.change 0x00000003#32 (c.setWidth 32) 0).apply v)).fth = c := by
  have hclear : ∀ w : Word, w &&& ~~~0x00000003#32 &&& 0x3#32 = 0#32 := fun w => by
    rw [BitVec.and_assoc, show ~~~0x00000003#32 &&& 0x3#32 = 0#32 by decide, BitVec.and_zero]
  have hcode : ∀ c : BitVec 2, (c.setWidth 32 <<< 0 &&& 0x00000003#32 &&& 0x3#32).setWidth 2 = c := by decide
  show (BusWord.bits _ 0x3#32).setWidth 2 = c
  rw [BusWord.bits_eq, value_update_change, BitVec.and_or_distrib_right, hclear, BitVec.zero_or, hcode]

/-- R210: the second transaction of SET_FIFO_THRESHOLD leaves the level's code in `FTH`, whatever happened to `FCR`
since the first. -/
theorem fth_advance_setFifoThreshold (lvl : FifoLevel) (v : BusWord) (s : State) :
    (advance { instr := .setFifoThreshold lvl, index := 1, v := v } s).regs.fcr.fth = lvl.code :=
  fth_write_change s.regs.fcr v lvl.code

/-- R210: SET_FIFO_THRESHOLD as its two transactions, with any turns of the other agents between them, leaves the
level's code in `FTH`. -/
theorem fth_of_two_txns {c : Nat} {cmd : Command} {lvl : FifoLevel} {between : List Turn} {s t t' u : State}
    (hready : Ready s) (hnext : TakesNext c cmd s) (hd : decode cmd = .ok (.setFifoThreshold lvl))
    (hread : takeTurn (.txn c) s = .next t) (hothers : noTurnOf c between = true)
    (hbetween : takeTurns between t = .next t') (hwrite : takeTurn (.txn c) t' = .next u) :
    u.regs.fcr.fth = lvl.code := by
  obtain ⟨x, v, hx, hf⟩ := inflight_of_txnTurn (.inl ⟨rfl, cmd, hnext, hd⟩) hready rfl (le_refl 2) hread
  obtain ⟨hsame, -⟩ := takeTurns_noTurnOf c between t t' hothers hbetween
  obtain rfl := Host.Outcome.next.inj ((takeTurn_txn_of_inflight (hsame.trans hx) hf).symm.trans hwrite)
  exact fth_advance_setFifoThreshold lvl v _

/-- Settles O35: in both forms the operation leaves the level's code in `FTH`, the turns that follow leave `FTH` alone
(`fth_of_exclusive`), and a read gives `FTH` in bits 1:0 (`memReadWord_fcr_fields`). -/
theorem thresholdReadsBack : Obligations.ThresholdReadsBack := by
  intro lvl s after u hready hagents hrun
  have hfth : u.regs.fcr.fth = lvl.code := by
    rcases hrun with ⟨t, hexec, hexcl, hafter⟩ | ⟨c, cmd, between, hnext, hd, hothers, hexcl, hturns⟩
    · obtain rfl := Host.Outcome.next.inj ((exec_setFifoThreshold hready lvl).symm.trans hexec)
      exact fth_of_exclusive hagents hexcl hafter
    · obtain ⟨t', hfirst, hrest⟩ := takeTurns_append hturns
      obtain ⟨t, hread, hbetween⟩ := takeTurns_cons hfirst
      obtain ⟨w, hwrite, hafter⟩ := takeTurns_cons hrest
      have hexclAfter := (exclusive_cons (exclusive_of_append hexcl hfirst) hwrite).2
      exact (fth_of_exclusive hagents hexclAfter hafter).trans
        (fth_of_two_txns hready hnext hd hread hothers hbetween hwrite)
  obtain ⟨hread, -⟩ := memReadWord_fcr_fields u
  exact ⟨hfth, hread.trans hfth⟩

end Sys2Proof.Machine

/-! ## Faults (60_exceptions.md) -/

namespace Sys2Proof.Machine

/-! ### The fault log and the results (R43, R231) -/

/-- R231: a step that adds to `faultLog` entries of one context, and to the results of that context the fault results of
those entries, keeps log and results matching. -/
theorem FaultLogMatchesResults.modify {s t : State} {c : Nat} {f : Context → Context} {es : List FaultEntry}
    (h : FaultLogMatchesResults s) (hctx : t.contexts = s.contexts.modify c f)
    (hlog : t.faultLog = s.faultLog ++ es) (hes : ∀ e ∈ es, e.context = c)
    (hresults : ∀ x, (f x).results.filterMap faultOf = x.results.filterMap faultOf ++ es.map FaultEntry.code) :
    FaultLogMatchesResults t := by
  intro d y hy
  rw [hctx, List.getElem?_modify] at hy
  obtain ⟨x, hx, rfl⟩ := Option.map_eq_some_iff.mp hy
  rw [hlog, List.filter_append, List.map_append, h d x hx]
  by_cases hd : c = d
  · subst hd
    rw [List.filter_eq_self.mpr fun e he => beq_iff_eq.mpr (hes e he), if_pos rfl, hresults]
  · have hnone : es.filter (fun e => e.context == d) = [] :=
      List.filter_eq_nil_iff.mpr fun e he hed => hd ((hes e he).symm.trans (beq_iff_eq.mp hed))
    simp only [hnone, if_neg hd, List.map_nil, List.append_nil]

/-- R231: a context's turn keeps log and results matching: a fault goes to both, any other result to neither. -/
theorem ContextEffect.keeps_faultLogMatchesResults {c : Nat} {x : Context} {s t : State}
    (effect : ContextEffect c x s t) (h : FaultLogMatchesResults s) : FaultLogMatchesResults t := by
  rcases effect.contexts with ⟨cmd, code, hctx, hlog, -⟩ | ⟨r, hr, hctx, hlog, -⟩ | ⟨f, hctx, hlog, -⟩
  · exact h.modify hctx hlog (by simp) (by simp [faultOf])
  · exact h.modify (es := []) hctx (by simp [hlog]) (by simp) (by simp [hr])
  · exact h.modify (es := []) hctx (by simp [hlog]) (by simp) (by simp)

/-- Settles O41: a context's turn keeps the match (`ContextEffect.keeps_faultLogMatchesResults`), and no other agent
touches log or results. -/
theorem stepKeepsFaultLogMatchingResults : Obligations.StepKeepsFaultLogMatchingResults := by
  intro s t h hstep
  rcases step_context_or_outside hstep with ⟨turn, c, x, -, -, -, effect⟩ | hout
  · exact effect.keeps_faultLogMatchesResults h
  · rw [hout]; exact h

/-! ### The interrupt request (R241, R242) -/

/-- R242. -/
theorem irq_eq_true_iff (s : State) :
    irq s = true ↔ ∃ k, flagOf s.params s.regs s.params.streamIndex k = true ∧ enabledOf s.regs k = true := by
  simp only [irq, List.any_eq_true, mem_allKinds, true_and, Bool.and_eq_true]

/-- R190, R191: the flag of a stream and kind, as a bit of `LISR` or of `HISR`. -/
theorem flagOf_eq_getLsbD (p : Params) (g : Regs) (i : Nat) (k : Kind) :
    flagOf p g i k = (if i < 4 then g.lisr else g.hisr).getLsbD (5 * (i % 4) + flagBitOf p.flagBits k) := by
  rw [flagOf_eq_selFlags]
  split_ifs with hi
  · rw [locate_low_of_lt hi]; rfl
  · rw [locate_high_of_le (Nat.not_lt.mp hi)]; rfl

/-- R15, R94: the set of all five kinds. -/
theorem has_allKindsSet (k : Kind) :
    KindSet.has { tc := true, ht := true, te := true, dme := true, fe := true } k = true := by
  cases k <;> rfl

/-- R241: with no kind enabled there is no request, whatever is pending. -/
theorem irq_eq_false_of_none_enabled {s : State} (h : ∀ k, enabledOf s.regs k = false) : irq s = false := by
  rw [Bool.eq_false_iff, ne_eq, irq_eq_true_iff]
  rintro ⟨k, -, hk⟩
  exact Bool.eq_false_iff.mp (h k) hk

/-- Settles O28: `irq` is `irq_eq_true_iff` with the flags written out, and disabling the five kinds leaves none enabled
and no flag changed (O24). -/
theorem disablingAllKindsSilencesIrq : Obligations.DisablingAllKindsSilencesIrq := by
  refine ⟨fun s _ => ?_, fun s hready => ?_⟩
  · simp only [irq_eq_true_iff, flagOf_eq_getLsbD]
  · obtain ⟨t, hexec, -, hframe, hen, -⟩ := disableInterruptClearsExactlyItsKinds
      { tc := true, ht := true, te := true, dme := true, fe := true } s hready
    refine ⟨t, hexec, irq_eq_false_of_none_enabled fun k => ?_, by rw [hframe], by rw [hframe]⟩
    rw [hen, has_allKindsSet, Bool.not_true, Bool.and_false]

/-! ### The faults of the checks (R234, R235, R238) -/

/-- The checks of an operation other than CONSTRUCT are the common prologue. -/
theorem checkFault_eq_prologue {i : Instr} (hi : isConstruct i = false) (s : State) :
    checkFault i s = prologue s := by
  cases i with
  | construct cfg => cases hi
  | _ => rfl

/-- R234: the stream index is the first check of every operation. -/
theorem checkFault_of_unmapped (i : Instr) {s : State} (h : 8 ≤ s.params.streamIndex) :
    checkFault i s = some (.unmappedStreamIndex s.params.streamIndex) := by
  cases i with
  | construct cfg => exact if_pos h
  | _ => exact prologue_unmapped h

/-- R237: `UnmappedFifoStatus` is no fault of the checks. -/
theorem checkFault_ne_unmappedFifoStatus {i : Instr} {s : State} {code : FaultCode}
    (h : checkFault i s = some code) (fs : BitVec 3) : code ≠ .unmappedFifoStatus fs := by
  rintro rfl
  cases i with
  | construct cfg =>
    simp only [checkFault, operationOf, opConstruct, constructFault] at h
    split_ifs at h
    · cases h
    · simp at h
  | _ =>
    rw [checkFault_eq_prologue rfl, prologue] at h
    split_ifs at h <;> cases h

/-- An operation whose checks fail is a fault as R231 describes it. -/
theorem exec_faults_of_checkFault {i : Instr} {s : State} {code : FaultCode} (h : checkFault i s = some code) :
    ∃ t, exec i s = .next t ∧ Faults (encode i) code s t :=
  ⟨_, exec_of_checkFault h, faults_raiseFault _ _ s⟩

/-- Settles O38, by `checkFault_of_unmapped`. -/
theorem unmappedStreamIndexFaultsEveryOperation : Obligations.UnmappedStreamIndexFaultsEveryOperation :=
  fun i _ h => exec_faults_of_checkFault (checkFault_of_unmapped i h)

/-- Settles O39: the two checks of the common prologue, in the order of R238. -/
theorem notConstructedFaultsOtherOperations : Obligations.NotConstructedFaultsOtherOperations := by
  intro i s hi hc
  apply exec_faults_of_checkFault
  split_ifs with hmapped
  · rw [checkFault_eq_prologue hi, prologue_notConstructed hmapped hc]
  · exact checkFault_of_unmapped i (Nat.not_lt.mp hmapped)

/-! ### A faulting operation writes nothing (R232) -/

/-- R45: a command completes with one result. -/
theorem CompletesWith.result_unique {r r' : Result} {s t : State} (hissuer : s.issuer < s.contexts.length)
    (h : CompletesWith r s t) (h' : CompletesWith r' s t) : r = r' := by
  have hsame := (h s.issuer).symm.trans (h' s.issuer)
  simpa [List.getElem?_eq_getElem hissuer] using hsame

/-- R211: only GET_FIFO_STATUS ends by decoding the FIFO status. -/
theorem operationOf_finish_fifoStatus {i : Instr} {s : State} (h : (operationOf i s).finish = .fifoStatus) :
    i = .getFifoStatus := by
  cases i with
  | getFifoStatus => rfl
  | _ => cases h

/-- R232: an operation whose checks pass ends in a fault only if it is GET_FIFO_STATUS. -/
theorem getFifoStatus_of_fault_after_checks {i : Instr} {s t : State} {code : FaultCode}
    (hissuer : s.issuer < s.contexts.length) (hchecks : checkFault i s = none) (hexec : exec i s = .next t)
    (h : CompletesWith (.fault code) s t) : i = .getFifoStatus := by
  have hmid := (Midway.recordHazard (c := s.issuer) (s := s) (encode i) (operationOf i s).hazard).doTxns
    (operationOf i s).txns BusWord.zero
  simp only [exec_eq_runOp, runOp, show (operationOf i s).fault = none from hchecks, Host.Outcome.next.injEq] at hexec
  rcases finishOp_cases (encode i) (operationOf i s).finish _ _ with ⟨r, hr, hfin⟩ | ⟨-, hfifo, -⟩
  · have hother : CompletesWith r s t :=
      hexec ▸ hfin ▸ completesWith_complete r s _ hmid.contexts hmid.issuer
    rw [← h.result_unique hissuer hother] at hr
    cases hr
  · exact operationOf_finish_fifoStatus hfifo

/-- R72: an operation of one transaction is a single step. -/
theorem exec_eq_startOp_of_single {i : Instr} {s : State} (h : (operationOf i s).txns.length = 1) :
    exec i s = .next (startOp i s) := by
  cases hf : (operationOf i s).fault with
  | some code => rw [startOp_of_fault hf, exec_of_checkFault hf]
  | none =>
    have hop := operationOf_txns_of_params i (recordHazard_params (encode i) (operationOf i s).hazard s)
    rw [startOp_of_checks_pass hf, exec_of_checks_pass hf, advance_of_last (by simp only [hop.1, h, Nat.le_refl])]

/-- R212, R237: a GET_FIFO_STATUS whose checks pass and that ends in a fault has raised `UnmappedFifoStatus` after its
one read, and has changed no register. -/
theorem getFifoStatus_fault_after_read {s t : State} {code : FaultCode} (hissuer : s.issuer < s.contexts.length)
    (hready : Ready s) (hexec : exec .getFifoStatus s = .next t) (h : CompletesWith (.fault code) s t) :
    code = .unmappedFifoStatus s.regs.fcr.fs ∧ t.regs = s.regs ∧ t.draws = s.draws + 1 := by
  cases hst : decodeFS s.regs.fcr.fs with
  | some st =>
    obtain rfl := Host.Outcome.next.inj ((exec_getFifoStatus_of_some hready hst).symm.trans hexec)
    cases h.result_unique hissuer (completesWith_complete _ s _ rfl rfl)
  | none =>
    obtain rfl := Host.Outcome.next.inj ((exec_getFifoStatus_of_none hready hst).symm.trans hexec)
    have hcode := h.result_unique hissuer (completesWith_complete _ s _ rfl rfl)
    exact ⟨Result.fault.inj hcode, rfl, rfl⟩

/-- Settles O40: a fault of the checks is raised and nothing else is done; after the checks only GET_FIFO_STATUS faults,
whose one transaction is a read; and a command that does not decode only raises its fault. -/
theorem faultingOperationWritesNothing : Obligations.FaultingOperationWritesNothing := by
  refine ⟨fun i s t code hissuer hexec hfault => ?_, fun s t c cmd e turn hturn hnext hd htake => ?_⟩
  · cases hchecks : checkFault i s with
    | some raised =>
      obtain rfl := Host.Outcome.next.inj ((exec_of_checkFault hchecks).symm.trans hexec)
      obtain ⟨hraised, -⟩ := faults_raiseFault (encode i) raised s
      obtain rfl : code = raised := Result.fault.inj (hfault.result_unique hissuer hraised)
      exact ⟨rfl, startOp_of_fault hchecks, fun _ => rfl,
        fun ⟨fs, hfs⟩ => absurd hfs (checkFault_ne_unmappedFifoStatus hchecks fs)⟩
    | none =>
      obtain rfl := getFifoStatus_of_fault_after_checks hissuer hchecks hexec hfault
      obtain ⟨hmapped, hconstructed⟩ := checks_pass hchecks
      obtain ⟨hcode, hregs, hdraws⟩ :=
        getFifoStatus_fault_after_read hissuer ⟨hmapped, hconstructed.resolve_right (by decide)⟩ hexec hfault
      exact ⟨hregs, Host.Outcome.next.inj ((exec_eq_startOp_of_single rfl).symm.trans hexec),
        fun hother => absurd hcode (hother _), fun _ => ⟨rfl, hdraws⟩⟩
  · have hraise := takeTurn_of_illegalWord hturn hnext (illegalWord_of_decode_error hd)
    obtain rfl := Host.Outcome.next.inj (hraise.symm.trans htake)
    exact ⟨rfl, rfl⟩

end Sys2Proof.Machine

/-! ## Reset and hazards (70_reset_and_hazards.md) -/

namespace Sys2Proof.Machine

/-! ### Before the first CONSTRUCT (R266, R235) -/

/-- R266: the operation in flight in a context before the first CONSTRUCT has completed is a CONSTRUCT. -/
theorem OnlyFaultsBeforeConstruct.isConstruct_of_inflight {c : Nat} {s : State} {x : Context} {i : Instr}
    (h : OnlyFaultsBeforeConstruct s) (hlatch : s.constructed = false) (hx : s.contexts[c]? = some x)
    (hf : x.inflight ≠ none) (hi : currentInstr c s = some i) : isConstruct i = true := by
  obtain ⟨f, hf⟩ := Option.ne_none_iff_exists'.mp hf
  obtain rfl : f.instr = i := by simpa [currentInstr, hx, hf] using hi
  exact (h hlatch x (List.mem_of_getElem? hx)).2 f hf

/-- R266, R235: a context's turn that does not set the latch completes its command with a fault, or puts a CONSTRUCT in
flight. -/
theorem ContextEffect.keeps_onlyFaultsBeforeConstruct {c : Nat} {x : Context} {s t : State}
    (effect : ContextEffect c x s t) (hx : s.contexts[c]? = some x) (h : OnlyFaultsBeforeConstruct s) :
    OnlyFaultsBeforeConstruct t := by
  intro hlatcht
  have hlatch : s.constructed = false := by
    rcases effect.constructed with hsame | ⟨hset, -⟩
    · exact hsame.symm.trans hlatcht
    · exact absurd hset (by simp [hlatcht])
  have hunset : s.constructed ≠ true := by simp [hlatch]
  rcases effect.contexts with ⟨cmd, code, hctx, -⟩ | ⟨r, -, -, -, hset | ⟨i, hi, hother, hchecks⟩⟩ |
    ⟨f, hctx, -, hi, -, -, hchecks⟩
  · rw [hctx]
    refine forall_mem_modify (h hlatch) (fun _ => id) fun y hy => ?_
    obtain ⟨hresults, -⟩ := h hlatch y (List.mem_of_getElem? hy)
    exact ⟨List.forall_mem_append.mpr ⟨hresults, by simp [faultOf]⟩, by simp⟩
  · exact absurd hset (by simp [hlatcht])
  · have hinst := h.isConstruct_of_inflight hlatch hx (fun hf => hunset (hchecks hf)) hi
    exact absurd hinst (by simp [hother])
  · rw [hctx]
    refine forall_mem_modify (h hlatch) (fun _ => id) fun y hy => ?_
    obtain ⟨hresults, -⟩ := h hlatch y (List.mem_of_getElem? hy)
    refine ⟨hresults, fun g hg => ?_⟩
    obtain rfl : f = g := by simpa using hg
    by_cases hf : x.inflight = none
    · obtain ⟨-, hpassed⟩ := hchecks hf
      exact hpassed.resolve_left hunset
    · exact h.isConstruct_of_inflight hlatch hx hf hi

/-- Settles O56: a context's turn keeps it (`ContextEffect.keeps_onlyFaultsBeforeConstruct`), and no other agent touches
the latch or a context. -/
theorem stepKeepsOnlyFaultsBeforeConstruct : Obligations.StepKeepsOnlyFaultsBeforeConstruct := by
  intro s t h hstep
  rcases step_context_or_outside hstep with ⟨turn, c, -, -, hc, htake, -⟩ | hout
  · obtain ⟨x, hx, effect⟩ := contextTurn_effect hc htake
    exact effect.keeps_onlyFaultsBeforeConstruct hx h
  · rw [hout]; exact h

/-! ### What never changes (R46, R265) -/

/-- Settles O54: every step is a turn, and no turn changes either (`takeTurn_outside`). -/
theorem identityNeverChanges : Obligations.IdentityNeverChanges := by
  intro s t h
  obtain ⟨turn, -, htake⟩ := step_cases h
  obtain ⟨hparams, -, hlength⟩ := takeTurn_outside htake
  exact ⟨hparams, hlength⟩

/-! ### The end of an operation and the end of the run (R273, R274) -/

/-- Settles O10, by `exec_eq_runOp`. -/
theorem everyOperationCompletes : Obligations.EveryOperationCompletes :=
  fun i s => ⟨_, exec_eq_runOp i s⟩

/-- No turn stops as the end of the run does. -/
theorem takeTurn_ne_endOfRun (turn : Turn) (s : State) : takeTurn turn s ≠ .fault .endOfRun := by
  cases turn with
  | whole c | txn c =>
    cases hx : s.contexts[c]? with
    | none => simp [takeTurn, wholeTurn, txnTurn, hx]
    | some x =>
      cases hf : x.inflight with
      | some f => simp [takeTurn, wholeTurn, txnTurn, hx, hf]
      | none =>
        cases hn : x.next with
        | none => simp [takeTurn, wholeTurn, txnTurn, hx, hf, hn]
        | some cmd => cases hd : decode cmd <;> simp [takeTurn, wholeTurn, txnTurn, hx, hf, hn, hd, exec_eq_runOp]
  | engine m =>
    simp only [takeTurn, engineTurn]
    cases engineMove m s <;> simp
  | foreign a => simp [takeTurn]

/-- A context has finished when nothing of it is in flight and its sequence is run through (R21). -/
theorem Context.busy_eq_false_iff (x : Context) :
    x.busy = false ↔ x.inflight = none ∧ x.prog.length ≤ x.pc := by
  simp [Context.busy]

/-- R273: there is no default turn exactly when every context has finished. -/
theorem defaultTurn_eq_none_iff (s : State) :
    defaultTurn s = none ↔ ∀ x ∈ s.contexts, x.inflight = none ∧ x.prog.length ≤ x.pc := by
  simp only [defaultTurn, Option.map_eq_none_iff, List.findIdx?_eq_none_iff, Context.busy_eq_false_iff]

/-- Settles O14: a turn that is taken never stops as the end of the run (`takeTurn_ne_endOfRun`), and none is taken
exactly when none is scheduled and every context has finished. -/
theorem runEndsWhenAllContextsFinished : Obligations.RunEndsWhenAllContextsFinished := by
  intro s
  rw [← defaultTurn_eq_none_iff, step, nextTurn]
  cases s.schedule with
  | cons turn rest => simp [takeTurn_ne_endOfRun]
  | nil => cases defaultTurn s <;> simp [takeTurn_ne_endOfRun]

/-! ### A read and the write after it (R68 to R70, R269) -/

/-- A transaction that is a read, with more to come, leaves the word read in flight. -/
theorem advance_of_read {f : InFlight} {s : State} {r : Reg} {t : Txn} {rest : List Txn}
    (h : (operationOf f.instr s).txns.drop f.index = .read r :: t :: rest) :
    advance f s = { afterRead s with
      contexts := s.contexts.modify s.issuer
        (Context.setInflight { instr := f.instr, index := f.index + 1, v := memReadWord r s }) } :=
  advance_of_more h

/-- A transaction that is a write, the last one or not, writes its register. -/
theorem advance_regs_of_write {f : InFlight} {s : State} {r : Reg} {u : Update} {rest : List Txn}
    (h : (operationOf f.instr s).txns.drop f.index = .write r u :: rest) :
    (advance f s).regs = writeRule r (u.apply f.v) s.regs := by
  cases rest with
  | nil => simp only [advance, h, doTxn, finishOp_regs, memWrite_regs]
  | cons t rest => rw [advance_of_more h]; rfl

/-- Context `c` is about to write: in its next transaction turn, whatever turns of the others come before it, the
registers become what `w` makes of them. -/
def WriteDue (c : Nat) (w : Regs → Regs) (s : State) : Prop :=
  ∀ (ts : List Turn) (u : State), noTurnOf c ts = true → takeTurns ts s = .next u →
    ∃ t, takeTurn (.txn c) u = .next t ∧ t.regs = w u.regs

/-- A write is due when it is the next transaction of the operation in flight. -/
theorem writeDue_of_inflight {c : Nat} {s : State} {x : Context} {f : InFlight} {r : Reg} {u : Update}
    {rest : List Txn} (hx : s.contexts[c]? = some x) (hf : x.inflight = some f)
    (hdrop : (operationOf f.instr s).txns.drop f.index = .write r u :: rest) :
    WriteDue c (writeRule r (u.apply f.v)) s := by
  intro ts s' hothers hturns
  obtain ⟨hsame, hparams, -⟩ := takeTurns_noTurnOf c ts s s' hothers hturns
  refine ⟨_, takeTurn_txn_of_inflight (hsame.trans hx) hf, advance_regs_of_write (rest := rest) ?_⟩
  rw [(operationOf_txns_of_params f.instr (t := { s' with issuer := c }) hparams).1, hdrop]

/-- A write that is due stays due over the turns of the others. -/
theorem WriteDue.after {c : Nat} {w : Regs → Regs} {s u : State} {ts : List Turn} (h : WriteDue c w s)
    (hothers : noTurnOf c ts = true) (hturns : takeTurns ts s = .next u) : WriteDue c w u := by
  intro us u' hothers' hturns'
  refine h (ts ++ us) u' ?_ ((takeTurns_append_of_next us hturns).trans hturns')
  rw [noTurnOf, List.all_append, Bool.and_eq_true]
  exact ⟨hothers, hothers'⟩

/-- Transaction `k` of the operation `i` reads a register and the one after it writes that register: the registers then
become `written read now`, of the registers at the read and at the write. -/
structure ReadsThenWrites (i : Instr) (k : Nat) (written : Regs → Regs → Regs) : Prop where
  notConstruct : isConstruct i = false
  access : ∃ r u, (∀ s, ∃ rest, (operationOf i s).txns.drop k = .read r :: .write r u :: rest) ∧
    ∀ s now, writeRule r (u.apply (memReadWord r s)) now = written s.regs now

/-- The read changes no register, and leaves the write due with what was read. -/
theorem ReadsThenWrites.read {c k : Nat} {i : Instr} {written : Regs → Regs → Regs} {s : State}
    (h : ReadsThenWrites i k written) (hready : Ready s) (hat : AtTransaction c i k s) :
    ∃ t, takeTurn (.txn c) s = .next t ∧ t.regs = s.regs ∧ Ready t ∧ WriteDue c (written s.regs) t := by
  obtain ⟨r, u, htxns, hwrite⟩ := h.access
  obtain ⟨x, hx⟩ := hat.exists_context
  obtain ⟨v, hturn⟩ := txnTurn_atTransaction_of_ready hat hready h.notConstruct
  obtain ⟨rest, hdrop⟩ := htxns { s with issuer := c }
  have hread := advance_of_read (f := { instr := i, index := k, v := v }) hdrop
  refine ⟨_, hturn, by rw [hread]; rfl, by rw [hread]; exact hready, ?_⟩
  rw [← funext (hwrite s)]
  refine writeDue_of_inflight (x := x.setInflight { instr := i, index := k + 1, v := memReadWord r s })
    (f := { instr := i, index := k + 1, v := memReadWord r s }) (rest := rest) ?_ rfl ?_
  · rw [hread, List.getElem?_modify_eq, hx]; rfl
  · rw [(operationOf_txns_of_params i (s := { s with issuer := c }) (by rw [hread]; rfl)).1, ← List.drop_drop, hdrop]
    rfl

/-! ### The six read-modify-writes (R150 to R152, R171, R172, R210) -/

/-- The registers after a write to `CR` of what `f` makes of the `CR` that was read. -/
def writtenCr (f : BitVec 25 → BitVec 25) (read now : Regs) : Regs := { now with cr := f read.cr }

/-- The registers after a write to `FCR` of what `f` makes of the `FCR` that was read; `FS` ignores the write (R33). -/
def writtenFcr (f : Fcr → Fcr) (read now : Regs) : Regs :=
  { now with fcr := { f read.fcr with fs := now.fcr.fs } }

/-- R171: the `FCR` access where FE is in the set, then the `CR` access. -/
theorem enableInterrupt_txns (ks : KindSet) (s : State) :
    (operationOf (.enableInterrupt ks) s).txns =
      (if ks.fe then setReg .fcr feieMask else []) ++ setReg .cr (crMask ks) := rfl

/-- R172: the same of a disabling. -/
theorem disableInterrupt_txns (ks : KindSet) (s : State) :
    (operationOf (.disableInterrupt ks) s).txns =
      (if ks.fe then clearReg .fcr feieMask else []) ++ clearReg .cr (crMask ks) := rfl

/-- R150. -/
theorem enable_readsThenWrites : ReadsThenWrites .enable 0 (writtenCr fun cr => cr ||| 0x1#25) :=
  ⟨rfl, .cr, .setMask 0x1#32, fun _ => ⟨[], rfl⟩, fun s now => writeRule_cr_or s now _⟩

/-- R151. -/
theorem disable_readsThenWrites : ReadsThenWrites .disable 0 (writtenCr fun cr => cr &&& ~~~0x1#25) :=
  ⟨rfl, .cr, .clearMask 0x1#32, fun _ => ⟨[], rfl⟩, fun s now => writeRule_cr_and s now _⟩

/-- R152: the buffer's code in position is bit 19 or nothing. -/
theorem setTargetMemory_readsThenWrites (b : Buffer) :
    ReadsThenWrites (.setTargetMemory b) 0
      (writtenCr fun cr => (cr &&& ~~~0x80000#25) ||| (if b = .buffer1 then 0x80000#25 else 0#25)) := by
  refine ⟨rfl, .cr, .change 0x80000#32 (b.code.setWidth 32) 19, fun _ => ⟨[], rfl⟩, fun s now => ?_⟩
  have hvalue : ((b.code.setWidth 32 <<< 19) &&& 0x80000#32).setWidth 25 =
      if b = .buffer1 then 0x80000#25 else 0#25 := by
    cases b <;> decide
  rw [Update.apply, writeRule_cr_change, hvalue]
  rfl

/-- R171: the `CR` access. -/
theorem enableInterrupt_readsThenWrites_cr (ks : KindSet) :
    ReadsThenWrites (.enableInterrupt ks) (if ks.fe then 2 else 0)
      (writtenCr fun cr => cr ||| (crMask ks).setWidth 25) := by
  refine ⟨rfl, .cr, .setMask (crMask ks), fun s => ⟨[], ?_⟩, fun s now => writeRule_cr_or s now _⟩
  rw [enableInterrupt_txns]
  cases ks.fe <;> rfl

/-- R172: the `CR` access. -/
theorem disableInterrupt_readsThenWrites_cr (ks : KindSet) :
    ReadsThenWrites (.disableInterrupt ks) (if ks.fe then 2 else 0)
      (writtenCr fun cr => cr &&& ~~~(crMask ks).setWidth 25) := by
  refine ⟨rfl, .cr, .clearMask (crMask ks), fun s => ⟨[], ?_⟩, fun s now => ?_⟩
  · rw [disableInterrupt_txns]
    cases ks.fe <;> rfl
  · rw [Update.apply, writeRule_cr_and, BitVec.setWidth_not (by decide)]
    rfl

/-- R171: the `FCR` access. -/
theorem enableInterrupt_readsThenWrites_fcr {ks : KindSet} (hfe : ks.fe = true) :
    ReadsThenWrites (.enableInterrupt ks) 0 (writtenFcr fun f => { f with feie := true }) := by
  refine ⟨rfl, .fcr, .setMask feieMask, fun s => ⟨setReg .cr (crMask ks), ?_⟩,
    fun s now => writeRule_fcr_set_feie s now⟩
  rw [enableInterrupt_txns, hfe]
  rfl

/-- R172: the `FCR` access. -/
theorem disableInterrupt_readsThenWrites_fcr {ks : KindSet} (hfe : ks.fe = true) :
    ReadsThenWrites (.disableInterrupt ks) 0 (writtenFcr fun f => { f with feie := false }) := by
  refine ⟨rfl, .fcr, .clearMask feieMask, fun s => ⟨clearReg .cr (crMask ks), ?_⟩,
    fun s now => writeRule_fcr_clear_feie s now⟩
  rw [disableInterrupt_txns, hfe]
  rfl

/-- R210. -/
theorem setFifoThreshold_readsThenWrites (lvl : FifoLevel) :
    ReadsThenWrites (.setFifoThreshold lvl) 0 (writtenFcr fun f => { f with fth := lvl.code }) :=
  ⟨rfl, .fcr, .change 0x3#32 (lvl.code.setWidth 32) 0, fun _ => ⟨[], rfl⟩,
    fun s now => writeRule_fcr_change_fth s now lvl.code⟩

/-! ### Lost updates (R269, V17, P3) -/

/-- R269: what the others do between the read and the write does not reach what is written back. -/
theorem ReadsThenWrites.loses_change {c k : Nat} {i : Instr} {written : Regs → Regs → Regs} {s u : State}
    {ts : List Turn} (h : ReadsThenWrites i k written) (hready : Ready s) (hat : AtTransaction c i k s)
    (hothers : noTurnOf c ts = true) (hturns : takeTurns (.txn c :: ts) s = .next u) :
    ∃ t, takeTurn (.txn c) u = .next t ∧ t.regs = written s.regs u.regs := by
  obtain ⟨s', hfirst, hrest⟩ := takeTurns_cons hturns
  obtain ⟨t, hread, -, -, hdue⟩ := h.read hready hat
  obtain rfl := Host.Outcome.next.inj (hread.symm.trans hfirst)
  exact hdue ts u hothers hrest

/-- R269 for `CR`. -/
theorem ReadsThenWrites.losesCrChange {k : Nat} {i : Instr} {f : BitVec 25 → BitVec 25}
    (h : ReadsThenWrites i k (writtenCr f)) : LosesCrChange i k f :=
  fun _ _ _ _ hready hat hothers hturns => h.loses_change hready hat hothers hturns

/-- R269 for `FCR`. -/
theorem ReadsThenWrites.losesFcrChange {k : Nat} {i : Instr} {f : Fcr → Fcr}
    (h : ReadsThenWrites i k (writtenFcr f)) : LosesFcrChange i k f :=
  fun _ _ _ _ hready hat hothers hturns => h.loses_change hready hat hothers hturns

/-- Settles O60: each access reads and then writes its register (`..._readsThenWrites`), so a change between the two is
lost (`ReadsThenWrites.loses_change`). -/
theorem readModifyWriteLosesConcurrentChange : Obligations.ReadModifyWriteLosesConcurrentChange :=
  ⟨enable_readsThenWrites.losesCrChange, disable_readsThenWrites.losesCrChange,
    fun b => (setTargetMemory_readsThenWrites b).losesCrChange,
    fun ks => (enableInterrupt_readsThenWrites_cr ks).losesCrChange,
    fun ks => (disableInterrupt_readsThenWrites_cr ks).losesCrChange,
    fun _ hfe => (enableInterrupt_readsThenWrites_fcr hfe).losesFcrChange,
    fun _ hfe => (disableInterrupt_readsThenWrites_fcr hfe).losesFcrChange,
    fun lvl => (setFifoThreshold_readsThenWrites lvl).losesFcrChange⟩

/-- Settles O22: the case of ENABLE in O60, bit by bit (`cr_or_one`). -/
theorem enableLosesConcurrentCrChange : Obligations.EnableLosesConcurrentCrChange := by
  intro s c cmd ts u hready hnext hd hothers hturns
  obtain ⟨t, hwrite, hregs⟩ :=
    enable_readsThenWrites.losesCrChange s c ts u hready (.inl ⟨rfl, cmd, hnext, hd⟩) hothers hturns
  obtain ⟨hen, hbits⟩ := cr_or_one s.regs.cr
  exact ⟨t, hwrite, by rw [hregs], by rw [hregs]; exact hen, by rw [hregs]; exact hbits⟩

/-- A context at a transaction still is after a step that leaves the context alone. -/
theorem AtTransaction.of_same_context {c k : Nat} {i : Instr} {s t : State} (h : AtTransaction c i k s)
    (hsame : t.contexts[c]? = s.contexts[c]?) : AtTransaction c i k t :=
  h.imp (fun ⟨hk, cmd, hnext, hd⟩ => ⟨hk, cmd, hnext.of_same_context hsame, hd⟩)
    fun ⟨x, v, hx, hf⟩ => ⟨x, v, hsame.trans hx, hf⟩

/-- A transaction turn of one context is no turn of another. -/
theorem noTurnOf_txn_of_ne {c d : Nat} (hne : d ≠ c) : noTurnOf c [.txn d] = true := by
  simp [noTurnOf, contextOf, hne]

/-- Two contexts that read one after the other leave the registers alone, and both writes due with what was there. -/
theorem two_reads {a b k l : Nat} {i j : Instr} {wa wb : Regs → Regs → Regs} {s : State} (hready : Ready s)
    (hne : a ≠ b) (ha : AtTransaction a i k s) (hb : AtTransaction b j l s) (hi : ReadsThenWrites i k wa)
    (hj : ReadsThenWrites j l wb) :
    ∃ t, takeTurns [.txn a, .txn b] s = .next t ∧ t.regs = s.regs ∧ WriteDue a (wa s.regs) t ∧
      WriteDue b (wb s.regs) t := by
  obtain ⟨s1, hreada, hregs1, hready1, hduea⟩ := hi.read hready ha
  have hb1 : AtTransaction b j l s1 := hb.of_same_context (contextTurn_others rfl hreada b hne.symm)
  obtain ⟨t, hreadb, hregs, -, hdueb⟩ := hj.read hready1 hb1
  rw [← takeTurns_singleton] at hreada hreadb
  exact ⟨t, (takeTurns_append_of_next [.txn b] hreada).trans hreadb, hregs.trans hregs1,
    hduea.after (noTurnOf_txn_of_ne hne.symm) hreadb, hregs1 ▸ hdueb⟩

/-- Two writes that are due, one after the other. -/
theorem two_writes {a b : Nat} {wa wb : Regs → Regs} {s : State} (hne : a ≠ b) (ha : WriteDue a wa s)
    (hb : WriteDue b wb s) : ∃ t, takeTurns [.txn a, .txn b] s = .next t ∧ t.regs = wb (wa s.regs) := by
  obtain ⟨s1, hwritea, hregs1⟩ := ha [] s rfl rfl
  rw [← takeTurns_singleton] at hwritea
  obtain ⟨t, hwriteb, hregs⟩ := hb [.txn a] s1 (noTurnOf_txn_of_ne hne) hwritea
  rw [← takeTurns_singleton] at hwriteb
  exact ⟨t, (takeTurns_append_of_next [.txn b] hwritea).trans hwriteb, hregs.trans (congrArg wb hregs1)⟩

/-- R269, P3: of two interleaved read-modify-writes of `CR`, the update of the context that writes last stands alone,
whichever context read first. -/
theorem interleaved_last_write_wins {a b k l : Nat} {i j : Instr} {f g : BitVec 25 → BitVec 25} {s : State}
    (hready : Ready s) (hne : a ≠ b) (ha : AtTransaction a i k s) (hb : AtTransaction b j l s)
    (hi : ReadsThenWrites i k (writtenCr f)) (hj : ReadsThenWrites j l (writtenCr g)) (reads : List Turn)
    (hreads : reads = [.txn a, .txn b] ∨ reads = [.txn b, .txn a]) :
    ∃ t, takeTurns (reads ++ [.txn b, .txn a]) s = .next t ∧ t.regs = { s.regs with cr := f s.regs.cr } := by
  obtain ⟨u, hturns, hregs, hduea, hdueb⟩ : ∃ u, takeTurns reads s = .next u ∧ u.regs = s.regs ∧
      WriteDue a (writtenCr f s.regs) u ∧ WriteDue b (writtenCr g s.regs) u := by
    rcases hreads with rfl | rfl
    · exact two_reads hready hne ha hb hi hj
    · obtain ⟨u, hturns, hregs, hdueb, hduea⟩ := two_reads hready hne.symm hb ha hj hi
      exact ⟨u, hturns, hregs, hduea, hdueb⟩
  obtain ⟨t, hwrites, ht⟩ := two_writes hne.symm hdueb hduea
  exact ⟨t, (takeTurns_append_of_next _ hturns).trans hwrites, by rw [ht, hregs]; rfl⟩

/-- Settles O26: in the first two orders the second operation starts from the `CR` that the first has left; in the four
others both read the same `CR`, and the last write stands (`interleaved_last_write_wins`). -/
theorem interleavedMaskUpdatesLoseOne : Obligations.InterleavedMaskUpdatesLoseOne := by
  intro s a b ca cb ka kb hready hne hta htb hda hdb hfa hfb
  have ha : AtTransaction a (.enableInterrupt ka) 0 s := .inl ⟨rfl, ca, hta, hda⟩
  have hb : AtTransaction b (.disableInterrupt kb) 0 s := .inl ⟨rfl, cb, htb, hdb⟩
  have hi := enableInterrupt_readsThenWrites_cr ka
  have hj := disableInterrupt_readsThenWrites_cr kb
  rw [hfa] at hi
  rw [hfb] at hj
  have hlasta := interleaved_last_write_wins hready hne ha hb hi hj
  have hlastb := interleaved_last_write_wins hready hne.symm hb ha hj hi
  refine ⟨?_, ?_, hlasta _ (.inl rfl), hlasta _ (.inr rfl), hlastb _ (.inl rfl), hlastb _ (.inr rfl)⟩
  · obtain ⟨u, hu, hregs, hreadyu, hothers⟩ := takeTurns_enableInterrupt hready hfa hta hda
    obtain ⟨t, ht, htregs, -⟩ :=
      takeTurns_disableInterrupt hreadyu hfb (htb.of_same_context (hothers b hne.symm)) hdb
    exact ⟨t, (takeTurns_append_of_next [.txn b, .txn b] hu).trans ht, by rw [htregs, hregs]⟩
  · obtain ⟨u, hu, hregs, hreadyu, hothers⟩ := takeTurns_disableInterrupt hready hfb htb hdb
    obtain ⟨t, ht, htregs, -⟩ := takeTurns_enableInterrupt hreadyu hfa (hta.of_same_context (hothers a hne)) hda
    exact ⟨t, (takeTurns_append_of_next [.txn a, .txn a] hu).trans ht, by rw [htregs, hregs]⟩

/-! ### The start of a run (R47, R260, R261) -/

/-- R47, R260: every context starts with its sequence and nothing else. -/
theorem start_of_mem {progs : List (List Command)} {x : Context} (h : x ∈ progs.map Context.start) :
    x.pc = 0 ∧ x.inflight = none ∧ x.results = [] := by
  obtain ⟨prog, -, rfl⟩ := List.mem_map.mp h
  exact ⟨rfl, rfl, rfl⟩

/-- The contexts at the start keep the sequences they are given. -/
theorem map_prog_start (progs : List (List Command)) : (progs.map Context.start).map Context.prog = progs := by
  simp [Function.comp_def]

/-- Settles O57: both starts are `State.resetWith`, the second up to the draw counter. -/
theorem resetClearsEncoderState : Obligations.ResetClearsEncoderState :=
  ⟨fun _ _ progs => ⟨rfl, rfl, rfl, rfl, rfl, rfl, map_prog_start progs, fun _ => start_of_mem⟩,
    fun s => ⟨rfl, rfl, rfl, rfl, rfl, rfl, map_prog_start (s.contexts.map Context.prog), fun _ => start_of_mem⟩⟩

/-- A context at the start of a run is in order. -/
theorem contextWf_start (s : State) (prog : List Command) : contextWf s (Context.start prog) = true := by
  simp [contextWf_iff]

/-- The machine's invariant at the start of a run. -/
theorem resetWith_wf {p : Params} (g : Regs) {progs : List (List Command)} (hp : p.wf = true) (hne : progs ≠ []) :
    (State.resetWith p g progs).wf = true := by
  refine (State.wf_iff _).mpr ⟨hp, List.map_eq_nil_iff.not.mpr hne, fun x hx => ?_, by simp [State.resetWith],
    by simp [State.resetWith]⟩
  obtain ⟨prog, -, rfl⟩ := List.mem_map.mp hx
  exact contextWf_start _ prog

/-- R231 at the start of a run: nothing is in the log and no context has a result. -/
theorem resetWith_faultLogMatchesResults (p : Params) (g : Regs) (progs : List (List Command)) :
    FaultLogMatchesResults (State.resetWith p g progs) := by
  intro c x hx
  obtain ⟨-, -, hresults⟩ := start_of_mem (List.mem_of_getElem? hx)
  rw [hresults]
  rfl

/-- R266 at the start of a run: no context has a result or anything in flight. -/
theorem resetWith_onlyFaultsBeforeConstruct (p : Params) (g : Regs) (progs : List (List Command)) :
    OnlyFaultsBeforeConstruct (State.resetWith p g progs) := by
  intro _ x hx
  obtain ⟨-, hflight, hresults⟩ := start_of_mem hx
  simp [hflight, hresults]

/-- Settles O58: each start is `State.resetWith`, up to the draw counter, which no invariant speaks of. -/
theorem resetMeetsTheInvariants : Obligations.ResetMeetsTheInvariants := by
  have hstart : ∀ (p : Params) (g : Regs) (progs : List (List Command)), p.wf = true → progs ≠ [] →
      (State.resetWith p g progs).wf = true ∧ FaultLogMatchesResults (State.resetWith p g progs) ∧
        OnlyFaultsBeforeConstruct (State.resetWith p g progs) := fun p g progs hp hne =>
    ⟨resetWith_wf g hp hne, resetWith_faultLogMatchesResults p g progs, resetWith_onlyFaultsBeforeConstruct p g progs⟩
  refine ⟨hstart, fun s hp hne => ?_, hstart _ _ _ (by decide) (by decide)⟩
  exact hstart s.params s.regs (s.contexts.map Context.prog) hp (List.map_eq_nil_iff.not.mpr hne)

end Sys2Proof.Machine
